-- ==== Sys2Proof/Word.lean ====
section
/-! DEFINITION. The value types of the engine: bytes, 32-bit words, binary32 patterns, Complex64 pairs
(`00_scope.md` R8, R9). -/

namespace Sys2Proof

/-- One byte of system memory (`20_memory.md` R51). -/
abbrev Byte := BitVec 8

/-- An unsigned 32-bit register value or address (`00_scope.md` R8). -/
abbrev Word := BitVec 32

/-- A 32-bit pattern read as an IEEE 754 binary32 number (`00_scope.md` R9, `40_complex64.md` R100). -/
abbrev F32 := BitVec 32

/-- The pair `(re, im)` of `00_scope.md` R9 and `40_complex64.md` R106: a plain value. -/
structure C64 where
  re : F32
  im : F32
  deriving DecidableEq, Repr

end Sys2Proof
end

