-- ==== Sys2Proof/Syntax.lean ====
section
/-! DEFINITION. The commands of the engine: one constructor for each row of the opcode table. -/

namespace Sys2Proof

/-- The four operations of `30_encoding.md` R81. `idx` is the stage index, an unsigned natural (R82); it enters the
operation rules only as a shift count. -/
inductive Instr where
  /-- `R2C`, the radix-2 stage in canonical form (`41_radix2.md` R122). -/
  | r2c (idx : Nat)
  /-- `R2A`, the radix-2 stage with alternate addressing (`41_radix2.md` R123). -/
  | r2a (idx : Nat)
  /-- `R4`, the radix-4 stage (`42_radix4.md` R142). -/
  | r4 (idx : Nat)
  /-- `INIT`, the radix-4 init-combine (`42_radix4.md` R146): it has no stage index (`30_encoding.md` R84). -/
  | init
  deriving DecidableEq, Repr

end Sys2Proof
end

