-- ==== Sys2Proof/WellFormed.lean ====
section
/-! DEFINITION. Which commands an encoding exists for. -/

namespace Sys2Proof

/-- The stage index fits the 8-bit `IDX` field: it lies in `[0, 255]` (`30_encoding.md` R82). `INIT` has no operand. -/
def Instr.wf : Instr → Bool
  | .r2c idx => idx < 256
  | .r2a idx => idx < 256
  | .r4 idx => idx < 256
  | .init => true

end Sys2Proof
end

