-- ==== Sys2Proof/Decode.lean ====
section
/-! DEFINITION. The command word (`30_encoding.md` R80–R87): decoding, total and rejecting by name, and encoding. -/

namespace Sys2Proof

/-- Why a command is not one of the four operations (`30_encoding.md` R85, `60_exceptions.md` R162). -/
inductive DecodeError where
  /-- `RSV0 = w[7:4]` or `RSV1 = w[31:16]` is not zero (R83). -/
  | reservedBits
  /-- `OP` is 0x0 or 0x5–0xF (R81). -/
  | badOp
  /-- `INIT` with `IDX ≠ 0` (R84). -/
  | initIdx
  /-- Fewer bytes than the four of a command word (R80). -/
  | truncated
  deriving DecidableEq, Repr

/-- `OP = w[3:0]` (R80). -/
def opField (w : Word) : BitVec 4 := w.extractLsb' 0 4

/-- `RSV0 = w[7:4]` (R80). -/
def rsv0Field (w : Word) : BitVec 4 := w.extractLsb' 4 4

/-- `IDX = w[15:8]` (R80). -/
def idxField (w : Word) : BitVec 8 := w.extractLsb' 8 8

/-- `RSV1 = w[31:16]` (R80). -/
def rsv1Field (w : Word) : BitVec 16 := w.extractLsb' 16 16

/-- `legal(w)`, as `30_encoding.md` R85 writes it. -/
def legal (w : Word) : Bool :=
  rsv1Field w == 0 && rsv0Field w == 0
    && (opField w == 1 || opField w == 2 || opField w == 3 || opField w == 4)
    && (opField w != 4 || idxField w == 0)

/-- `decode(w)` of `30_encoding.md` R86, on all `2^32` words. -/
def decodeWord (w : Word) : Except DecodeError Instr :=
  if rsv1Field w ≠ 0 ∨ rsv0Field w ≠ 0 then .error .reservedBits
  else if opField w = 1 then .ok (.r2c (idxField w).toNat)
  else if opField w = 2 then .ok (.r2a (idxField w).toNat)
  else if opField w = 3 then .ok (.r4 (idxField w).toNat)
  else if opField w = 4 then (if idxField w = 0 then .ok .init else .error .initIdx)
  else .error .badOp

/-- A word from its four bytes, the least significant first (`20_memory.md` R53: registers are little-endian). -/
def wordOfBytes (b0 b1 b2 b3 : Byte) : Word := b3 ++ b2 ++ b1 ++ b0

/-- The four bytes of a word, the least significant first. -/
def bytesOfWord (w : Word) : List Byte :=
  [w.extractLsb' 0 8, w.extractLsb' 8 8, w.extractLsb' 16 8, w.extractLsb' 24 8]

/-- Decoding a stream of bytes: the first command and the bytes after it. -/
def decode : List Byte → Except DecodeError (Instr × List Byte)
  | b0 :: b1 :: b2 :: b3 :: rest =>
    match decodeWord (wordOfBytes b0 b1 b2 b3) with
    | .ok i => .ok (i, rest)
    | .error e => .error e
  | _ => .error .truncated

/-- `enc` of `30_encoding.md` R86. -/
def encodeWord : Instr → Word
  | .r2c idx => BitVec.ofNat 32 ((idx <<< 8) ||| 0x1)
  | .r2a idx => BitVec.ofNat 32 ((idx <<< 8) ||| 0x2)
  | .r4 idx => BitVec.ofNat 32 ((idx <<< 8) ||| 0x3)
  | .init => 0x00000004

/-- The words of a command: exactly one (R80). -/
def encode (i : Instr) : List Word := [encodeWord i]

/-- The bytes of a command as the engine's little-endian register takes them. -/
def encodeBytes (i : Instr) : List Byte := (encode i).flatMap bytesOfWord

/-- The command word of `nbits` table bits `w`: the bits above `nbits` are 0. -/
def tableWord (nbits w : Nat) : Word := BitVec.ofNat 32 (w % 2 ^ nbits)

/-- What the decoder reads from an opcode-table word of `nbits` bits. -/
def decodeTableWord (nbits w : Nat) : Option Instr :=
  match decode (bytesOfWord (tableWord nbits w)) with
  | .ok (i, _) => some i
  | .error _ => none

/-- One hexadecimal digit, upper case. -/
def hexDigit (n : Nat) : Char :=
  if n < 10 then Char.ofNat (48 + n) else Char.ofNat (55 + n)

/-- The eight hexadecimal digits of a word. -/
def hexWord (w : Word) : String :=
  String.ofList ((List.range 8).reverse.map fun j => hexDigit (w.toNat / 16 ^ j % 16))

/-- The disassembly of a command word (`30_encoding.md` R90). -/
def disassemble (w : Word) : String :=
  match decodeWord w with
  | .ok (.r2c k) => "r2c " ++ toString k
  | .ok (.r2a k) => "r2a " ++ toString k
  | .ok (.r4 k) => "r4 " ++ toString k
  | .ok .init => "init"
  | .error _ => ".word 0x" ++ hexWord w

end Sys2Proof
end

