-- ==== Sys2Proof/Config.lean ====
section
/-! DEFINITION. What an implementation of the engine fixes (`00_scope.md` R7), and the free values the spec
leaves to its draws. -/

namespace Sys2Proof

/-- The OPEN parameters of `00_scope.md` R7. One record of plain data, carried unchanged by every state, so that a
statement about every state is a statement about every implementation (log 1). -/
structure Config where
  /-- `LOG2_NMAX`, an integer with `2 ≤ LOG2_NMAX ≤ 29`. -/
  log2NMax : Nat
  /-- `CORE_BASE`, the byte address of the register window, a multiple of 64. -/
  coreBase : Nat
  /-- `admits` as a set of intervals `[lo, hi)`: a predicate over `[0, 2^32)` is a finite union of them. -/
  admitted : List (Nat × Nat)
  deriving DecidableEq, Repr

/-- The ranges that R7 gives for its parameters. -/
abbrev Config.wf (c : Config) : Prop :=
  2 ≤ c.log2NMax ∧ c.log2NMax ≤ 29 ∧ c.coreBase % 64 = 0

/-- FREE VALUE `nanDraw` (`40_complex64.md` R102): which of the `2^23` quiet NaN patterns a binary32 operation
delivers. No body: nothing about it can be proved (log 4). -/
opaque Config.nanDraw : Nat → BitVec 23

/-- FREE VALUE `resetDraw` (`70_reset_and_hazards.md` R191): the bytes left in the destination region of an
operation cut short by reset (log 5). -/
opaque Config.resetDraw : Nat → Byte

/-- FREE VALUE `busyReadDraw` (`70_reset_and_hazards.md` R197): the bytes a host read of the destination region
returns while the engine is busy (log 5). -/
opaque Config.busyReadDraw : Nat → Byte

end Sys2Proof
end

