-- ==== Sys2Proof/Machine/Float.lean ====
section
/-! DEFINITION. The binary32 primitives of the datapath: `fadd`, `fsub`, `fmul`, `fneg` (`40_complex64.md`
R100–R105). Each is the exact result on integers, rounded once. -/

namespace Sys2Proof.Machine

/-- The sign bit `v[31]` (R100). -/
def f32Sign (x : F32) : Bool := x.getLsbD 31

/-- The biased exponent `v[30:23]` (R100). -/
def f32Exp (x : F32) : Nat := (x.extractLsb' 23 8).toNat

/-- The fraction `v[22:0]` (R100). -/
def f32Frac (x : F32) : Nat := (x.extractLsb' 0 23).toNat

/-- NaN: `e = 255` and `f ≠ 0` (R100). -/
def isNaN (x : F32) : Bool := f32Exp x == 255 && f32Frac x != 0

/-- A quiet NaN: a NaN with `f[22] = 1` (R100, R102). -/
def isQuietNaN (x : F32) : Bool := isNaN x && x.getLsbD 22

/-- Infinity: `e = 255` and `f = 0` (R100). -/
def isInf (x : F32) : Bool := f32Exp x == 255 && f32Frac x == 0

/-- Zero of either sign: `e = 0` and `f = 0` (R100). -/
def isZero (x : F32) : Bool := f32Exp x == 0 && f32Frac x == 0

/-- Zero, subnormal or normal: everything but infinity and NaN (R100). -/
def isFinite (x : F32) : Bool := f32Exp x != 255

/-- The magnitude of a finite value in units of `2^-149` (R100): `f` for a subnormal, `(2^23 + f) * 2^(e-1)` for a
normal. -/
def f32Mag (x : F32) : Nat :=
  if f32Exp x = 0 then f32Frac x else (2 ^ 23 + f32Frac x) <<< (f32Exp x - 1)

/-- The value of a finite pattern in units of `2^-149` (R100). -/
def f32Val (x : F32) : Int := if f32Sign x then -(f32Mag x : Int) else (f32Mag x : Int)

/-- The quiet NaN pattern of a draw: `e = 255`, `f[22] = 1`, sign and `f[21:0]` from the 23 drawn bits (R102). -/
def quietNaN (d : BitVec 23) : F32 := d.extractLsb' 22 1 ++ 0xFF#8 ++ 1#1 ++ d.extractLsb' 0 22

/-- The NaN result of the binary32 operation that makes the `k`-th draw: FREE VALUE (R102; log 4). -/
def nanResult (k : Nat) : F32 := quietNaN (Config.nanDraw k)

/-- Bits 30:0 of the binary32 pattern nearest to the magnitude `n * 2^-(149 + u)`, ties to even (R101). `sh` is how many low
bits of `n` fall below the last place of the result; a carry out of the significand moves into the exponent; a
magnitude that rounds above the largest finite value gives infinity. -/
def roundMag (n u : Nat) : Nat :=
  let sh := max u (n.log2 - 23)
  let q := n >>> sh
  let r := n - (q <<< sh)
  let up := 2 * r > 1 <<< sh || (2 * r == 1 <<< sh && q % 2 == 1)
  min ((sh - u) * 2 ^ 23 + (if up then q + 1 else q)) 0x7F800000

/-- A pattern from a sign and bits 30:0. -/
def packF32 (neg : Bool) (p : Nat) : F32 := BitVec.ofNat 32 ((if neg then 2 ^ 31 else 0) + p)

/-- `fneg(x)`: bit 31 inverted, bits 30:0 unchanged, for every pattern (R103). -/
def fneg (x : F32) : F32 := x ^^^ 0x80000000

/-- `fadd(x, y)` (R101), its NaN result being draw `k` (R102). -/
def fadd (k : Nat) (x y : F32) : F32 :=
  if isNaN x || isNaN y then nanResult k
  else if isInf x then (if isInf y && f32Sign x != f32Sign y then nanResult k else x)
  else if isInf y then y
  else
    let z := f32Val x + f32Val y
    if z = 0 then packF32 (f32Sign x && f32Sign y) 0 else packF32 (decide (z < 0)) (roundMag z.natAbs 0)

/-- `fsub(x, y)` (R101): the sum of `x` and the negation of `y`, which has the same value, signs of zero and invalid
cases (log 18). -/
def fsub (k : Nat) (x y : F32) : F32 := fadd k x (fneg y)

/-- `fmul(x, y)` (R101), its NaN result being draw `k` (R102). The exact product is in units of `2^-298`. -/
def fmul (k : Nat) (x y : F32) : F32 :=
  if isNaN x || isNaN y then nanResult k
  else if isInf x || isInf y then
    (if isZero x || isZero y then nanResult k else packF32 (f32Sign x != f32Sign y) 0x7F800000)
  else packF32 (f32Sign x != f32Sign y) (roundMag (f32Mag x * f32Mag y) 149)

end Sys2Proof.Machine
end

