-- ==== Sys2Proof/Machine/Complex.lean ====
section
/-! DEFINITION. The Complex64 operations of the datapath (`40_complex64.md` R106–R111). No command selects one alone
(`30_encoding.md` R88). Each binary32 operation in a formula has a draw number of its own, counted from `k`. -/

namespace Sys2Proof.Machine

/-- `cadd(x, y)` (R107). Uses the draws `k`, `k + 1`. -/
def cadd (k : Nat) (x y : C64) : C64 := ⟨fadd k x.re y.re, fadd (k + 1) x.im y.im⟩

/-- `csub(x, y)` (R109). Uses the draws `k`, `k + 1`. -/
def csub (k : Nat) (x y : C64) : C64 := ⟨fsub k x.re y.re, fsub (k + 1) x.im y.im⟩

/-- `cmul(x, t)`, the twiddle rotation (R108): four products, each rounded before the difference and the sum that use
them (R105). Uses the draws `k` to `k + 5`. -/
def cmul (k : Nat) (x t : C64) : C64 :=
  let p1 := fmul k x.re t.re
  let p2 := fmul (k + 1) x.im t.im
  let p3 := fmul (k + 2) x.im t.re
  let p4 := fmul (k + 3) x.re t.im
  ⟨fsub (k + 4) p1 p2, fadd (k + 5) p3 p4⟩

/-- `crotni(x)`, multiplication by −i (R110): exact, with no draw. -/
def crotni (x : C64) : C64 := ⟨x.im, fneg x.re⟩

end Sys2Proof.Machine
end

