-- ==== Sys2Proof/Machine/State.lean ====
section
/-! DEFINITION. The state of the machine: the engine, system memory, the model's fault log, the host agent and the
inputs still to come (`10_state.md` R20–R46, `30_encoding.md` R89). Plain data throughout. -/

namespace Sys2Proof.Machine

/-- The operation field of a descriptor (`10_state.md` R39, `30_encoding.md` R81). -/
inductive Op where
  | r2c
  | r2a
  | r4
  | init
  deriving DecidableEq, Repr

/-- The operation descriptor latched at a successful issue (`10_state.md` R39). -/
structure Desc where
  op : Op
  n : Word
  idx : Nat
  srcB : Word
  dstB : Word
  twB : Word
  deriving DecidableEq, Repr

/-- A butterfly group (`10_state.md` R40): a pair `(i, O)` of `R2C`, `R2A`, `R4`, or an index `o` of `INIT`. -/
inductive Group where
  | pair (i O : Nat)
  | index (o : Nat)
  deriving DecidableEq, Repr

/-- The eight issue checks, in the priority order of `60_exceptions.md` R161. -/
inductive Check where
  | illegalCmd
  | badLen
  | badIdx
  | twShort
  | misaligned
  | range
  | overlap
  | bus
  deriving DecidableEq, Repr

/-- An entry of `mfaults` (`10_state.md` R44): its kind and its detail. `check` is a failed issue with its cause
code; the other three are the model faults of `60_exceptions.md` R179, whose details are the model's (log 8). -/
inductive MFault where
  | check (code : BitVec 8)
  | mmioAccess (addr width : Nat)
  | hazard (addr width : Nat)
  | multiHost (host : Nat)
  deriving DecidableEq, Repr

/-- The sixteen 32-bit words of the register window (`10_state.md` R20, R22). -/
inductive Reg where
  | cmd
  | status
  | ctrl
  | len
  | src
  | dst
  | tw
  | twlen
  | caps
  /-- The reserved word number `k` of seven: offset `0x24 + 4 * k`. -/
  | reserved (k : Fin 7)
  deriving DecidableEq, Repr

/-- One line of a host program (`30_encoding.md` R89). Labels are numbers. -/
inductive HostLine where
  /-- `wr REG, v`. -/
  | wr (r : Reg) (v : Word)
  /-- `rd REG -> hN`. -/
  | rd (r : Reg) (n : Nat)
  /-- `st.c A, (re, im)`. -/
  | stc (a : Word) (x : C64)
  /-- `ld.c A -> cN`. -/
  | ldc (a : Word) (n : Nat)
  /-- `L:`. -/
  | label (l : Nat)
  /-- `bnz hN & m, L`. -/
  | bnz (n : Nat) (m : Word) (l : Nat)
  /-- `bz hN & m, L`. -/
  | bz (n : Nat) (m : Word) (l : Nat)
  /-- `fence`. -/
  | fence
  /-- `halt`. -/
  | halt
  deriving DecidableEq, Repr

/-- One access a host makes (`20_memory.md` R50): to the register window, of any width and at any address of the
host's space, by a numbered host agent; or to system memory, of any length. -/
inductive HostAccess where
  | regWrite (host addr width : Nat) (v : Word)
  | regRead (host addr width : Nat)
  | memWrite (a : Word) (bs : List Byte)
  | memRead (a : Word) (n : Nat)
  deriving DecidableEq, Repr

/-- What happens next at the machine (`00_scope.md` R5, R6; log 2): which agent moves, and with which choice. -/
inductive Event where
  /-- The host agent executes its next line (`30_encoding.md` R89). -/
  | host
  /-- A host makes an access that is not written in the host program. -/
  | access (a : HostAccess)
  /-- The engine takes its enabled step, performing the group that `k` selects (`60_exceptions.md` R173, R174). -/
  | engine (k : Nat)
  /-- The platform asserts reset (`70_reset_and_hazards.md` R190). -/
  | reset
  deriving DecidableEq, Repr

/-- Why the machine has no next state. -/
inductive Fault where
  /-- Raised by `step` in a state whose log holds a `MMIO_ACCESS` model fault (`10_state.md` R21,
  `60_exceptions.md` R179): there is no further step. SAFE: the model stops where hardware might go on. -/
  | mmioAccess
  /-- Raised by `step` in a state whose log holds a `HAZARD` model fault (`70_reset_and_hazards.md` R197). SAFE. -/
  | hazard
  /-- Raised by `step` in a state whose log holds a `MULTI_HOST` model fault (`60_exceptions.md` R183). SAFE. -/
  | multiHost
  /-- Raised by a host memory access that leaves `[0, 2^32)` (`20_memory.md` R51; log 9): there is no such byte.
  SAFE. -/
  | noSuchAddress
  deriving DecidableEq, Repr

/-- Why an instruction has no meaning. -/
inductive Refusal where
  /-- An arm of `exec` that has no meaning yet; no arm of this model is one. SAFE. -/
  | notModelled (mnemonic : String)
  deriving DecidableEq, Repr

/-- The whole state (`10_state.md` R45, and the host agent of `30_encoding.md` R89). Register names are the spec's. -/
structure State where
  /-- The parameters of `00_scope.md` R7; no step changes them (log 1). -/
  cfg : Config
  /-- `CMD` (`10_state.md` R23). -/
  cmd : Word
  /-- `LEN` (R32). -/
  len : Word
  /-- `SRC` (R33). -/
  src : Word
  /-- `DST` (R34). -/
  dst : Word
  /-- `TW` (R35). -/
  tw : Word
  /-- `TWLEN` (R36). -/
  twlen : Word
  /-- `CTRL.IE` (R31). -/
  ie : Bool
  /-- `STATUS.BUSY` (R25). -/
  busy : Bool
  /-- `STATUS.DONE` (R26). -/
  done : Bool
  /-- `STATUS.FAULT` (R27). -/
  fault : Bool
  /-- `STATUS.DROP` (R28). -/
  drop : Bool
  /-- `STATUS.CAUSE` (R29). -/
  cause : BitVec 8
  /-- The latched descriptor (R39). -/
  desc : Option Desc
  /-- The groups not yet performed (R40), without repeats; the order of the list has no meaning. -/
  pending : List Group
  /-- System memory (`20_memory.md` R51) in the canonical form of `Memory.wf`. -/
  mem : List Host.Cell
  /-- The model's fault log (R44), oldest first. -/
  mfaults : List MFault
  /-- The host program (`30_encoding.md` R89). -/
  prog : List HostLine
  /-- The number of the line the host executes next. -/
  hpc : Nat
  /-- The host has executed `halt` (`70_reset_and_hazards.md` R203). -/
  halted : Bool
  /-- The host temporaries `hN` that are not 0, by number. -/
  h : List (Nat × Word)
  /-- The host temporaries `cN` that are not `(0, 0)`, by number. -/
  c : List (Nat × C64)
  /-- The host agent that has made register accesses so far (`60_exceptions.md` R183). The model's own field. -/
  regHost : Option Nat
  /-- What the last register read returned. The model's own field. -/
  regData : Word
  /-- What the last host memory read returned, lowest address first. The model's own field. -/
  memData : List Byte
  /-- The inputs still to come, soonest first (log 2). The model's own field. -/
  events : List Event
  /-- How many free values have been drawn (log 4, log 5). The model's own field. -/
  draws : Nat
  deriving DecidableEq, Repr

/-- The machine at power-on: every register as `10_state.md` R46 says; the parameters, the host agent and the
model's own fields at the values that the logs 1, 2, 4, 6, 10 and 11 name. -/
def State.reset : State where
  cfg := { log2NMax := 10, coreBase := 0, admitted := [(0x1000, 0x3000)] }
  cmd := 0
  len := 0
  src := 0
  dst := 0
  tw := 0
  twlen := 0
  ie := false
  busy := false
  done := false
  fault := false
  drop := false
  cause := 0
  desc := none
  pending := []
  mem := []
  mfaults := []
  prog := []
  hpc := 0
  halted := false
  h := []
  c := []
  regHost := none
  regData := 0
  memData := []
  events := []
  draws := 0

end Sys2Proof.Machine
end

