-- ==== Sys2Proof/Machine/Flags.lean ====
section
/-! DEFINITION. `STATUS`, `CTRL`, `CAPS` and `IRQ`: the engine's only flags (`10_state.md` R24–R31, R37, R42;
`60_exceptions.md` R177). -/

namespace Sys2Proof.Machine

/-- The word a read of `STATUS` returns (`10_state.md` R24). -/
def statusWord (s : State) : Word :=
  0#16 ++ s.cause ++ 0#4 ++ BitVec.ofBool s.drop ++ BitVec.ofBool s.fault ++ BitVec.ofBool s.done
    ++ BitVec.ofBool s.busy

/-- The word a read of `CTRL` returns: `zext_32(IE)` (`10_state.md` R31). -/
def ctrlWord (s : State) : Word := (BitVec.ofBool s.ie).setWidth 32

/-- A host write of `v` to `CTRL`, whether or not the engine is busy (`10_state.md` R31). -/
def writeCtrl (v : Word) (s : State) : State := { s with ie := v.getLsbD 0 }

/-- The word a read of `CAPS` returns: bits 4:0 hold `LOG2_NMAX`, bits 31:5 are 0 (`10_state.md` R37). -/
def capsWord (s : State) : Word := (BitVec.ofNat 5 s.cfg.log2NMax).setWidth 32

/-- The interrupt output (`60_exceptions.md` R177). -/
def irq (s : State) : Bool := s.ie && (s.done || s.fault)

/-- The cause code of a check (`60_exceptions.md` R161). -/
def Check.code : Check → BitVec 8
  | .illegalCmd => 0x01
  | .badLen => 0x02
  | .badIdx => 0x03
  | .twShort => 0x04
  | .misaligned => 0x05
  | .range => 0x06
  | .overlap => 0x07
  | .bus => 0x08

end Sys2Proof.Machine
end

