-- ==== Sys2Proof/Machine/Memory.lean ====
section
/-! DEFINITION. Sparse maps in one canonical form, system memory over them, and multi-byte access
(`20_memory.md` R51–R53). -/

namespace Sys2Proof.Machine

section Sparse

variable {β : Type} [DecidableEq β]

/-- The value at key `a`; an unlisted key has the value `d`. -/
def sparseGet (d : β) : List (Nat × β) → Nat → β
  | [], _ => d
  | (k, v) :: m, a => if k = a then v else sparseGet d m a

/-- List `v` at key `a`, in its place in the rising order. -/
def sparseInsert (a : Nat) (v : β) : List (Nat × β) → List (Nat × β)
  | [] => [(a, v)]
  | (k, w) :: m =>
    if a < k then (a, v) :: (k, w) :: m
    else if a = k then (a, v) :: m
    else (k, w) :: sparseInsert a v m

/-- Write `v` at key `a`: writing what an unlisted key reads as removes the entry. -/
def sparseSet (d : β) (m : List (Nat × β)) (a : Nat) (v : β) : List (Nat × β) :=
  if v = d then m.filter (fun c => c.1 ≠ a) else sparseInsert a v m

/-- The canonical form: keys strictly rising, and no entry equal to what an unlisted key reads as. -/
abbrev sparseWf (d : β) (m : List (Nat × β)) : Prop :=
  m.Pairwise (fun x y => x.1 < y.1) ∧ ∀ c ∈ m, c.2 ≠ d

end Sparse

/-- System memory `[0, 2^32) → byte` (`20_memory.md` R51). -/
abbrev Memory := List Host.Cell

/-- What an unlisted address reads as. DESIGN CHOICE (log 6): the content of memory at power-on is the platform's
(`70_reset_and_hazards.md` R192). -/
def unlistedByte : Byte := 0

/-- The size of the address space (`20_memory.md` R50). -/
def addressSpace : Nat := 2 ^ 32

/-- `mem[a]`. -/
def Memory.read (m : Memory) (a : Nat) : Byte := sparseGet unlistedByte m a

/-- `mem[a] <- b`. -/
def Memory.write (m : Memory) (a : Nat) (b : Byte) : Memory := sparseSet unlistedByte m a b

/-- The canonical form of memory. -/
abbrev Memory.wf (m : Memory) : Prop := sparseWf unlistedByte m

/-- The `n` bytes at `a .. a + n - 1`, lowest address first. -/
def Memory.readBytes (m : Memory) : Nat → Nat → List Byte
  | _, 0 => []
  | a, n + 1 => m.read a :: m.readBytes (a + 1) n

/-- Store bytes at rising addresses from `a`. -/
def Memory.writeBytes (m : Memory) (a : Nat) : List Byte → Memory
  | [] => m
  | b :: bs => (m.write a b).writeBytes (a + 1) bs

/-- The little-endian number of a list of bytes (`20_memory.md` R53). -/
def natOfBytes : List Byte → Nat
  | [] => 0
  | b :: bs => b.toNat + 256 * natOfBytes bs

/-- The `n` little-endian bytes of a number. -/
def bytesOfNat : Nat → Nat → List Byte
  | 0, _ => []
  | n + 1, v => BitVec.ofNat 8 v :: bytesOfNat n (v / 256)

/-- `MemRead(a, n)` (`20_memory.md` R53). -/
def memRead (m : Memory) (a n : Nat) : Nat := natOfBytes (m.readBytes a n)

/-- `MemWrite(a, n, v)` (`20_memory.md` R53). -/
def memWrite (m : Memory) (a n v : Nat) : Memory := m.writeBytes a (bytesOfNat n v)

end Sys2Proof.Machine
end

