-- ==== Sys2Proof/Machine/Operands.lean ====
section
/-! DEFINITION. The operands of a command: element accessors, strides, regions and group sets (`00_scope.md` R10, R11;
`20_memory.md` R52–R59; `41_radix2.md` R120–R123; `42_radix4.md` R140–R146). -/

namespace Sys2Proof.Machine

/-- `im ++ re` as a 64-bit number (`00_scope.md` R11). -/
def c64ToNat (x : C64) : Nat := (x.im ++ x.re).toNat

/-- The element of a 64-bit number: `re = w[31:0]`, `im = w[63:32]` (`00_scope.md` R11). -/
def c64OfNat (w : Nat) : C64 := ⟨(BitVec.ofNat 64 w).extractLsb' 0 32, (BitVec.ofNat 64 w).extractLsb' 32 32⟩

/-- The byte address of element `k` from base `B` (`00_scope.md` R11). -/
def elemAddr (base : Word) (k : Nat) : Nat := base.toNat + 8 * k

/-- `ldC(B, k)` (`00_scope.md` R11). -/
def ldC (m : Memory) (base : Word) (k : Nat) : C64 := c64OfNat (memRead m (elemAddr base k) 8)

/-- `stC(B, k, x)` (`00_scope.md` R11). -/
def stC (m : Memory) (base : Word) (k : Nat) (x : C64) : Memory := memWrite m (elemAddr base k) 8 (c64ToNat x)

/-- `x & ~m` on naturals: `x` with the bits set in `m` cleared (`00_scope.md` R8). -/
def clearBits (x m : Nat) : Nat := x ^^^ (x &&& m)

/-- The iterations of `for k in [a, b) step s` (`00_scope.md` R8). -/
def stepRange (a b s : Nat) : List Nat := (List.range ((b - a + s - 1) / s)).map fun j => a + j * s

/-- `N'`: `N >> 1` for radix-2, `N >> 2` for radix-4 (`60_exceptions.md` R161); `h` of `INIT` (`42_radix4.md` R146). -/
def nPrime : Op → Nat → Nat
  | .r2c, n => n >>> 1
  | .r2a, n => n >>> 1
  | .r4, n => n >>> 2
  | .init, n => n >>> 1

/-- `stride = N' >> idx`, the shift of `00_scope.md` R10: not reduced modulo any width. -/
def stride (op : Op) (n idx : Nat) : Nat := nPrime op n >>> idx

/-- `TWREQ`: `N/2` for radix-2 (`41_radix2.md` R120), `3 * (quarter - stride) + 1` for radix-4 (`42_radix4.md` R140);
`INIT` has no table. -/
def twReq : Op → Nat → Nat → Nat
  | .r2c, n, _ => n >>> 1
  | .r2a, n, _ => n >>> 1
  | .r4, n, idx => 3 * (n >>> 2 - stride .r4 n idx) + 1
  | .init, _, _ => 0

/-- A region (`20_memory.md` R55): its base and its number of 8-byte elements. -/
abbrev Region := Nat × Nat

/-- The byte `a` lies in the region: `B <= a < B + 8*n` (`20_memory.md` R55). -/
def Region.has (r : Region) (a : Nat) : Bool := r.1 ≤ a && a < r.1 + 8 * r.2

/-- The byte ranges `[a, a + n)` and `[b, b + m)` share a byte. -/
def bytesMeet (a n b m : Nat) : Bool := n != 0 && m != 0 && a < b + m && b < a + n

/-- Two regions share a byte; an empty one overlaps nothing (`20_memory.md` R55). -/
def Region.overlaps (r q : Region) : Bool := bytesMeet r.1 (8 * r.2) q.1 (8 * q.2)

/-- `SRCR = region(SRC, N)` (`20_memory.md` R56). -/
def Desc.srcR (d : Desc) : Region := (d.srcB.toNat, d.n.toNat)

/-- `DSTR = region(DST, N)` (`20_memory.md` R56). -/
def Desc.dstR (d : Desc) : Region := (d.dstB.toNat, d.n.toNat)

/-- `TWR = region(TW, TWREQ)` (`20_memory.md` R56). -/
def Desc.twR (d : Desc) : Region := (d.twB.toNat, twReq d.op d.n.toNat d.idx)

/-- The used regions of an operation (`20_memory.md` R56). -/
def Desc.used (d : Desc) : List Region :=
  match d.op with
  | .init => [d.dstR]
  | _ => [d.srcR, d.dstR, d.twR]

/-- The platform predicate `admits(a)` (`20_memory.md` R59), over `[0, 2^32)`. -/
def admits (cfg : Config) (a : Nat) : Bool :=
  a < addressSpace && cfg.admitted.any fun r => r.1 ≤ a && a < r.2

/-- `p` holds of every byte address in `[a, a + n)`. -/
def allBytes (p : Nat → Bool) (a : Nat) : Nat → Bool
  | 0 => true
  | n + 1 => p a && allBytes p (a + 1) n

/-- `N = 2^m` for some `m`. -/
def isPow2 (n : Nat) : Bool := n == 2 ^ n.log2

/-- `G2` in the order of `R2C`'s loops (`41_radix2.md` R121, R122). -/
def groupsR2c (half stride : Nat) : List Group :=
  (stepRange 0 half stride).flatMap fun i => (List.range stride).map fun o => Group.pair i o

/-- The groups of `R2A`: for each `o`, `(o & ~mask, o & mask)` with `mask = stride - 1` (`41_radix2.md` R123). -/
def groupsR2a (half stride : Nat) : List Group :=
  (List.range half).map fun o => Group.pair (clearBits o (stride - 1)) (o &&& (stride - 1))

/-- `G4` in the order of `R4`'s loops (`42_radix4.md` R141, R142). -/
def groupsR4 (quarter stride : Nat) : List Group :=
  (stepRange 0 quarter stride).flatMap fun i => (List.range stride).map fun o => Group.pair i o

/-- `GI = [0, h)` (`42_radix4.md` R146). -/
def groupsInit (h : Nat) : List Group := (List.range h).map Group.index

end Sys2Proof.Machine
end

