-- ==== Sys2Proof/Machine/Ops.lean ====
section
/-! DEFINITION. The shared operations of the machine: the issue checks, taking a fault, acceptance, the issue step, and
reading the register window (`60_exceptions.md` R160–R172, `10_state.md` R20–R38). -/

namespace Sys2Proof.Machine

/-- Append an entry to the model's fault log; no step removes one (`10_state.md` R44). -/
def logFault (f : MFault) (s : State) : State := { s with mfaults := s.mfaults ++ [f] }

/-- FAULT ENTRY (`60_exceptions.md` R170): the one way a failed check is taken. There is no vector and no saved state:
`FAULT` and `CAUSE` are set and the entry is logged. -/
def takeFault (c : Check) (s : State) : State :=
  logFault (.check c.code) { s with fault := true, cause := c.code }

/-- RETURN FROM A FAULT (`60_exceptions.md` R176): `FAULT` and `CAUSE` are cleared together, by a host write to `STATUS` with bit 2
set or at the start of the next issue. There is no state to restore. -/
def clearFault (s : State) : State := { s with fault := false, cause := 0 }

/-- A host write of `v` to `STATUS`, whether or not the engine is busy (`10_state.md` R30). -/
def writeStatus (v : Word) (s : State) : State :=
  let s1 := if v.getLsbD 2 then clearFault s else s
  { s1 with
    done := if v.getLsbD 1 then false else s.done
    drop := if v.getLsbD 3 then false else s.drop }

/-- A host write dropped because the engine is busy (`10_state.md` R38). -/
def dropWrite (s : State) : State := { s with drop := true }

/-- The operation descriptor of a command on the current registers (`10_state.md` R39). -/
def latch (op : Op) (idx : Nat) (s : State) : Desc :=
  { op := op, n := s.len, idx := idx, srcB := s.src, dstB := s.dst, twB := s.tw }

/-- The admitted lengths of an operation (`60_exceptions.md` R163). -/
def lenAdmitted (op : Op) (n nmax : Nat) : Bool :=
  match op with
  | .r2c => isPow2 n && 2 ≤ n && n ≤ nmax
  | .r2a => isPow2 n && 2 ≤ n && n ≤ nmax
  | .r4 => isPow2 n && 4 ≤ n && n ≤ nmax
  | .init => n % 2 == 0 && 2 ≤ n && n ≤ nmax

/-- The operation is one of `R2C`, `R2A`, `R4`: the "applies to" column of `60_exceptions.md` R161. -/
def Op.isStage : Op → Bool
  | .r2c => true
  | .r2a => true
  | .r4 => true
  | .init => false

/-- The bases that are checked for alignment (`60_exceptions.md` R166). -/
def Desc.bases (d : Desc) : List Word :=
  match d.op with
  | .init => [d.dstB]
  | _ => [d.srcB, d.dstB, d.twB]

/-- The checks 2 to 8 of `60_exceptions.md` R161 in priority order, each with its failure condition (R163–R169). The
first check, `ILLEGAL_CMD`, is the decoder's. -/
def issueChecks (cfg : Config) (twlen : Word) (d : Desc) : List (Check × Bool) :=
  let n := d.n.toNat
  let σ := stride d.op n d.idx
  [ (.badLen, !lenAdmitted d.op n (2 ^ cfg.log2NMax)),
    (.badIdx, d.op.isStage && (σ == 0 || nPrime d.op n % σ != 0)),
    (.twShort, d.op.isStage && twlen.toNat < twReq d.op n d.idx),
    (.misaligned, d.bases.any fun b => b.toNat % 8 != 0),
    (.range, d.used.any fun r => r.1 + 8 * r.2 > addressSpace),
    (.overlap, d.op.isStage && (d.dstR.overlaps d.srcR || d.dstR.overlaps d.twR)),
    (.bus, d.used.any fun r => !allBytes (admits cfg) r.1 (8 * r.2)) ]

/-- The first check, in priority order, whose failure condition holds (`60_exceptions.md` R161). -/
def firstFailing (l : List (Check × Bool)) : Option Check := (l.find? fun c => c.2).map fun c => c.1

/-- `firstFailingCheck` of a legal command. -/
def failingCheck (s : State) (d : Desc) : Option Check := firstFailing (issueChecks s.cfg s.twlen d)

/-- The start of every issue (`60_exceptions.md` R160): the word is stored and the last outcome cleared. -/
def beginIssue (w : Word) (s : State) : State :=
  { clearFault s with cmd := w, done := false }

/-- ACCEPTANCE (`60_exceptions.md` R172). -/
def accept (d : Desc) (gs : List Group) (s : State) : State :=
  { s with desc := some d, pending := gs, busy := true }

/-- A host write of a legal command word `w` to `CMD`: dropped while busy (`10_state.md` R38), otherwise the issue step
of `60_exceptions.md` R160. `enum` lists the groups of the operation from `N'` and the stride; it is asked only at acceptance,
where both are bounded by the checks. -/
def command (w : Word) (d : Desc) (enum : Nat → Nat → List Group) (s : State) : State :=
  if s.busy then dropWrite s
  else
    match failingCheck s d with
    | some c => takeFault c (beginIssue w s)
    | none => accept d (enum (nPrime d.op d.n.toNat) (stride d.op d.n.toNat d.idx)) (beginIssue w s)

/-- A host write of an illegal word to `CMD` (`30_encoding.md` R85, `60_exceptions.md` R162). -/
def illegalCommand (w : Word) (s : State) : State :=
  if s.busy then dropWrite s else takeFault .illegalCmd (beginIssue w s)

/-- The register at a byte offset of the window (`10_state.md` R20, R22). -/
def regAt (offset : Nat) : Reg :=
  match offset / 4 with
  | 0 => .cmd
  | 1 => .status
  | 2 => .ctrl
  | 3 => .len
  | 4 => .src
  | 5 => .dst
  | 6 => .tw
  | 7 => .twlen
  | 8 => .caps
  | k => .reserved (Fin.ofNat 7 (k - 9))

/-- The byte offset of a register in the window (`10_state.md` R20, R22; `30_encoding.md` R89). -/
def regOffset : Reg → Nat
  | .cmd => 0x00
  | .status => 0x04
  | .ctrl => 0x08
  | .len => 0x0C
  | .src => 0x10
  | .dst => 0x14
  | .tw => 0x18
  | .twlen => 0x1C
  | .caps => 0x20
  | .reserved k => 0x24 + 4 * k.val

/-- The word a 32-bit read of a register returns (`10_state.md` R20–R37): a reserved offset reads as 0 (R22). -/
def readReg (r : Reg) (s : State) : Word :=
  match r with
  | .cmd => s.cmd
  | .status => statusWord s
  | .ctrl => ctrlWord s
  | .len => s.len
  | .src => s.src
  | .dst => s.dst
  | .tw => s.tw
  | .twlen => s.twlen
  | .caps => capsWord s
  | .reserved _ => 0

end Sys2Proof.Machine
end

