-- ==== Sys2Proof/Machine/Radix2.lean ====
section
/-! DEFINITION. The radix-2 stage operations `R2C` and `R2A`: what the command does at issue, and what one of its
butterfly groups does (`41_radix2.md` R120–R128). -/

namespace Sys2Proof.Machine

/-- The arithmetic of `BF2` (`41_radix2.md` R121): from `a = src[i1]`, `x = src[i1 + stride]` and the twiddle `t`, the
values of `dst[o]` and `dst[o + half]`. Uses the draws `k` to `k + 9`. -/
def bf2 (k : Nat) (a x t : C64) : C64 × C64 :=
  let b := cmul k x t
  (cadd (k + 6) a b, csub (k + 8) a b)

/-- How many binary32 operations `BF2` has. -/
def bf2Draws : Nat := 10

/-- `i1 = (i * 2) | O` (`41_radix2.md` R121). -/
def bf2In (i o : Nat) : Nat := (i * 2) ||| o

/-- `o = i | O` (`41_radix2.md` R121, `42_radix4.md` R141). -/
def bfOut (i o : Nat) : Nat := i ||| o

/-- The two values that `BF2(i, O)` computes from memory (`41_radix2.md` R121). -/
def bf2Values (k : Nat) (d : Desc) (i o : Nat) (m : Memory) : C64 × C64 :=
  let t := ldC m d.twB i
  let i1 := bf2In i o
  let a := ldC m d.srcB i1
  let x := ldC m d.srcB (i1 + stride d.op d.n.toNat d.idx)
  bf2 k a x t

/-- `BF2(i, O)` (`41_radix2.md` R121): all reads, then the two element writes. -/
def performBf2 (d : Desc) (i o : Nat) (s : State) : State :=
  let v := bf2Values s.draws d i o s.mem
  let m1 := stC s.mem d.dstB (bfOut i o) v.1
  let m2 := stC m1 d.dstB (bfOut i o + nPrime d.op d.n.toNat) v.2
  { s with mem := m2, draws := s.draws + bf2Draws }

/-- One group of `R2C` (`41_radix2.md` R122). -/
def groupR2c (d : Desc) (i o : Nat) (s : State) : State := performBf2 d i o s

/-- One group of `R2A` (`41_radix2.md` R123): the same `BF2`. -/
def groupR2a (d : Desc) (i o : Nat) (s : State) : State := performBf2 d i o s

/-- `R2C`: the issue of the radix-2 stage in canonical form (`41_radix2.md` R122, `60_exceptions.md` R160, R172). -/
def execR2c (idx : Nat) (s : State) : Host.Outcome State Fault Refusal :=
  .next (command (encodeWord (.r2c idx)) (latch .r2c idx s) groupsR2c s)

/-- `R2A`: the issue of the radix-2 stage with alternate addressing (`41_radix2.md` R123, `60_exceptions.md` R160,
R172). -/
def execR2a (idx : Nat) (s : State) : Host.Outcome State Fault Refusal :=
  .next (command (encodeWord (.r2a idx)) (latch .r2a idx s) groupsR2a s)

end Sys2Proof.Machine
end

