-- ==== Sys2Proof/Machine/Radix4.lean ====
section
/-! DEFINITION. The radix-4 stage `R4` and the init-combine `INIT`: what the command does at issue, and what one of its
butterfly groups does (`42_radix4.md` R140–R149). -/

namespace Sys2Proof.Machine

/-- The arithmetic of `BF4` (`42_radix4.md` R141): from `a = src[i1]` and the three further inputs with their twiddles,
the values of `dst[o + j * quarter]` for `j = 0..3`. Uses the draws `k` to `k + 33`. -/
def bf4 (k : Nat) (a x1 t1 x2 t2 x3 t3 : C64) : C64 × C64 × C64 × C64 :=
  let b := cmul k x1 t1
  let c := cmul (k + 6) x2 t2
  let d := cmul (k + 12) x3 t3
  let acp := cadd (k + 18) a c
  let acm := csub (k + 20) a c
  let bdp := cadd (k + 22) b d
  let bdm := crotni (csub (k + 24) b d)
  (cadd (k + 26) acp bdp, cadd (k + 28) acm bdm, csub (k + 30) acp bdp, csub (k + 32) acm bdm)

/-- How many binary32 operations with a draw `BF4` has. -/
def bf4Draws : Nat := 34

/-- `i1 = (i * 4) | O` (`42_radix4.md` R141). -/
def bf4In (i o : Nat) : Nat := (i * 4) ||| o

/-- The four values that `BF4(i, O)` computes from memory (`42_radix4.md` R141). -/
def bf4Values (k : Nat) (d : Desc) (i o : Nat) (m : Memory) : C64 × C64 × C64 × C64 :=
  let σ := stride d.op d.n.toNat d.idx
  let t1 := ldC m d.twB i
  let t2 := ldC m d.twB (2 * i)
  let t3 := ldC m d.twB (3 * i)
  let i1 := bf4In i o
  let a := ldC m d.srcB i1
  let x1 := ldC m d.srcB (i1 + σ)
  let x2 := ldC m d.srcB (i1 + 2 * σ)
  let x3 := ldC m d.srcB (i1 + 3 * σ)
  bf4 k a x1 t1 x2 t2 x3 t3

/-- `BF4(i, O)` (`42_radix4.md` R141): all reads, then the four element writes. -/
def performBf4 (d : Desc) (i o : Nat) (s : State) : State :=
  let v := bf4Values s.draws d i o s.mem
  let q := nPrime d.op d.n.toNat
  let m1 := stC s.mem d.dstB (bfOut i o) v.1
  let m2 := stC m1 d.dstB (bfOut i o + q) v.2.1
  let m3 := stC m2 d.dstB (bfOut i o + 2 * q) v.2.2.1
  let m4 := stC m3 d.dstB (bfOut i o + 3 * q) v.2.2.2
  { s with mem := m4, draws := s.draws + bf4Draws }

/-- One group of `R4` (`42_radix4.md` R142). -/
def groupR4 (d : Desc) (i o : Nat) (s : State) : State := performBf4 d i o s

/-- The two values that group `o` of `INIT` computes from memory: the sum and the difference of `dst[o]` and
`dst[o + h]`, with no multiplication (`42_radix4.md` R146). Uses the draws `k` to `k + 3`. -/
def initValues (k : Nat) (d : Desc) (o : Nat) (m : Memory) : C64 × C64 :=
  let a := ldC m d.dstB o
  let b := ldC m d.dstB (o + nPrime d.op d.n.toNat)
  (cadd k a b, csub (k + 2) a b)

/-- How many binary32 operations a group of `INIT` has. -/
def initDraws : Nat := 4

/-- One group of `INIT` (`42_radix4.md` R146): both reads, then both writes, in place. -/
def groupInit (d : Desc) (o : Nat) (s : State) : State :=
  let v := initValues s.draws d o s.mem
  let m1 := stC s.mem d.dstB o v.1
  let m2 := stC m1 d.dstB (o + nPrime d.op d.n.toNat) v.2
  { s with mem := m2, draws := s.draws + initDraws }

/-- `R4`: the issue of the radix-4 stage (`42_radix4.md` R142, `60_exceptions.md` R160, R172). -/
def execR4 (idx : Nat) (s : State) : Host.Outcome State Fault Refusal :=
  .next (command (encodeWord (.r4 idx)) (latch .r4 idx s) groupsR4 s)

/-- `INIT`: the issue of the init-combine (`42_radix4.md` R146, `60_exceptions.md` R160, R172). -/
def execInit (s : State) : Host.Outcome State Fault Refusal :=
  .next (command (encodeWord .init) (latch .init 0 s) (fun h _ => groupsInit h) s)

end Sys2Proof.Machine
end

