-- ==== Sys2Proof/Machine/Engine.lean ====
section
/-! DEFINITION. The engine's own steps and the reset event (`60_exceptions.md` R173–R175, `70_reset_and_hazards.md`
R190–R192). -/

namespace Sys2Proof.Machine

/-- Perform one group of the operation `d`. A group of another operation's shape never stands in `pending`
(`10_state.md` R40); nothing is done for it. -/
def performGroup (d : Desc) (g : Group) (s : State) : State :=
  match d.op, g with
  | .r2c, .pair i o => groupR2c d i o s
  | .r2a, .pair i o => groupR2a d i o s
  | .r4, .pair i o => groupR4 d i o s
  | .init, .index o => groupInit d o s
  | .r2c, .index _ => s
  | .r2a, .index _ => s
  | .r4, .index _ => s
  | .init, .pair _ _ => s

/-- The completion step (`60_exceptions.md` R174). -/
def complete (s : State) : State := { s with busy := false, done := true, desc := none }

/-- The group that the choice `k` selects: every group of `pending` is selected by some `k` (log 2). -/
def chosenGroup (k : Nat) (s : State) : Option Group := s.pending[k % s.pending.length]?

/-- The engine's enabled step: a group step while `pending` is not empty (`60_exceptions.md` R173), else the completion
step (R174). An idle engine has none and holds its registers (R185). -/
def engineStep (k : Nat) (s : State) : State :=
  if s.busy then
    match s.desc, chosenGroup k s with
    | none, _ => s
    | some _, none => complete s
    | some d, some g => performGroup d g { s with pending := s.pending.erase g }
  else s

/-- The bytes that `scramble(desc)` leaves in `DSTR`, from draw `k` on: FREE VALUES (`70_reset_and_hazards.md` R191; log 5). -/
def scrambleBytes (k n : Nat) : List Byte := (List.range n).map fun j => Config.resetDraw (k + j)

/-- `scramble(desc)` (`70_reset_and_hazards.md` R191): every byte of `DSTR` becomes a drawn value. -/
def scramble (d : Desc) (s : State) : State :=
  { s with
    mem := Memory.writeBytes s.mem d.dstB.toNat (scrambleBytes s.draws (8 * d.n.toNat))
    draws := s.draws + 8 * d.n.toNat }

/-- The reset event (`70_reset_and_hazards.md` R190): an operation in progress is abandoned, the engine takes the values
of `10_state.md` R46; `CAPS`, the rest of memory, `mfaults` and the host agent are not changed. -/
def resetEngine (s : State) : State :=
  let s1 := match s.busy, s.desc with
    | true, some d => scramble d s
    | _, _ => s
  { s1 with
    cmd := 0, len := 0, src := 0, dst := 0, tw := 0, twlen := 0, ie := false, busy := false, done := false,
    fault := false, drop := false, cause := 0, desc := none, pending := [] }

end Sys2Proof.Machine
end

