-- ==== Sys2Proof/Machine/Dispatch.lean ====
section
/-! DEFINITION. One arm for each command. -/

namespace Sys2Proof.Machine

-- A host write of the command's word to CMD: `60_exceptions.md` R160, or `10_state.md` R38 while busy.
def exec (i : Instr) (s : State) : Host.Outcome State Fault Refusal :=
  match i with
  | .r2c idx => Sys2Proof.Machine.execR2c idx s
  | .r2a idx => Sys2Proof.Machine.execR2a idx s
  | .r4 idx => Sys2Proof.Machine.execR4 idx s
  | .init => Sys2Proof.Machine.execInit s

end Sys2Proof.Machine
end

