-- ==== Sys2Proof/Machine/HostAgent.lean ====
section
/-! DEFINITION. What a host does to the machine: register accesses, memory accesses and the lines of a host program
(`10_state.md` R20–R38, `30_encoding.md` R89, R90, `60_exceptions.md` R179, R183, `70_reset_and_hazards.md` R197). -/

namespace Sys2Proof.Machine

/-- The host write of a command word to `CMD`: the decoded command runs, an illegal word faults
(`30_encoding.md` R85, `60_exceptions.md` R160). -/
def writeCmd (w : Word) (s : State) : Host.Outcome State Fault Refusal :=
  match decodeWord w with
  | .ok i => exec i s
  | .error _ => .next (illegalCommand w s)

/-- A host write of a register that an operation in progress protects: dropped while busy (`10_state.md` R38). -/
def unlessBusy (s t : State) : Host.Outcome State Fault Refusal :=
  .next (if s.busy then dropWrite s else t)

/-- An aligned 32-bit host write of `v` to a register (`10_state.md` R22–R38). -/
def writeReg (r : Reg) (v : Word) (s : State) : Host.Outcome State Fault Refusal :=
  match r with
  | .cmd => writeCmd v s
  | .status => .next (writeStatus v s)
  | .ctrl => .next (writeCtrl v s)
  | .len => unlessBusy s { s with len := v }
  | .src => unlessBusy s { s with src := v }
  | .dst => unlessBusy s { s with dst := v }
  | .tw => unlessBusy s { s with tw := v }
  | .twlen => unlessBusy s { s with twlen := v }
  | .caps => .next s
  | .reserved _ => .next s

/-- The access touches the 64-byte register window (`10_state.md` R20). -/
def touchesWindow (cfg : Config) (addr width : Nat) : Bool := bytesMeet addr width cfg.coreBase 64

/-- The model fault of a register access, if it is one: not an aligned 32-bit access (`10_state.md` R21), or from a
second host agent (`60_exceptions.md` R183). An access that is both is logged as the first (log 11). -/
def accessFault (host addr width : Nat) (s : State) : Option MFault :=
  if width ≠ 4 ∨ addr % 4 ≠ 0 then some (.mmioAccess addr width)
  else if s.regHost.any (fun h => h != host) then some (.multiHost host)
  else none

/-- A host access to the register window: `act` on the addressed register, or the model fault (`60_exceptions.md` R179).
An access that does not touch the window does not reach the engine (log 12). -/
def regAccess (host addr width : Nat) (act : Reg → State → Host.Outcome State Fault Refusal) (s : State) :
    Host.Outcome State Fault Refusal :=
  if touchesWindow s.cfg addr width then
    match accessFault host addr width s with
    | some f => .next (logFault f s)
    | none => act (regAt (addr - s.cfg.coreBase)) { s with regHost := some host }
  else .next s

/-- The used regions of the running operation; none while idle (`20_memory.md` R56). -/
def busyRegions (s : State) : List Region :=
  match s.busy, s.desc with
  | true, some d => d.used
  | _, _ => []

/-- The byte lies in `DSTR` of the running operation. -/
def inBusyDst (s : State) (a : Nat) : Bool :=
  match s.busy, s.desc with
  | true, some d => d.dstR.has a
  | _, _ => false

/-- The write is the model fault `HAZARD`: it touches a used region of the running operation
(`70_reset_and_hazards.md` R197). -/
def isHazard (s : State) (a n : Nat) : Bool := (busyRegions s).any fun r => bytesMeet a n r.1 (8 * r.2)

/-- A host write of bytes to system memory (`20_memory.md` R50, `70_reset_and_hazards.md` R197). -/
def hostMemWrite (a : Nat) (bs : List Byte) (s : State) : Host.Outcome State Fault Refusal :=
  if a + bs.length > addressSpace then .fault .noSuchAddress
  else if isHazard s a bs.length then .next (logFault (.hazard a bs.length) s)
  else .next { s with mem := Memory.writeBytes s.mem a bs }

/-- The `n` bytes that a host read from `a` returns, drawing from `k` on: a byte of `DSTR` of the running operation is a
FREE VALUE, every other byte is the current one (`70_reset_and_hazards.md` R197; log 5). -/
def hostBytes (s : State) : Nat → Nat → Nat → List Byte
  | _, _, 0 => []
  | k, a, n + 1 =>
    (if inBusyDst s a then Config.busyReadDraw k else Memory.read s.mem a) :: hostBytes s (k + 1) (a + 1) n

/-- A host read of system memory (`20_memory.md` R50, `70_reset_and_hazards.md` R197). -/
def hostMemRead (a n : Nat) (s : State) : Host.Outcome State Fault Refusal :=
  if a + n > addressSpace then .fault .noSuchAddress
  else .next { s with memData := hostBytes s s.draws a n, draws := s.draws + (if s.busy then n else 0) }

/-- A host access of any kind (`20_memory.md` R50). -/
def hostAccess (a : HostAccess) (s : State) : Host.Outcome State Fault Refusal :=
  match a with
  | .regWrite host addr width v => regAccess host addr width (fun r t => writeReg r v t) s
  | .regRead host addr width => regAccess host addr width (fun r t => .next { t with regData := readReg r t }) s
  | .memWrite a bs => hostMemWrite a.toNat bs s
  | .memRead a n => hostMemRead a.toNat n s

/-- The number of the host agent that executes the host program (`60_exceptions.md` R183; log 11). -/
def programHost : Nat := 0

/-- The value of the temporary `hN` (`30_encoding.md` R89). -/
def getH (s : State) (n : Nat) : Word := sparseGet 0 s.h n

/-- The value of the temporary `cN` (`30_encoding.md` R89). -/
def getC (s : State) (n : Nat) : C64 := sparseGet ⟨0, 0⟩ s.c n

/-- `hN <- w`. -/
def setH (n : Nat) (w : Word) (s : State) : State := { s with h := sparseSet 0 s.h n w }

/-- `cN <- x`. -/
def setC (n : Nat) (x : C64) (s : State) : State := { s with c := sparseSet ⟨0, 0⟩ s.c n x }

/-- The number of the line that defines a label; the end of the program where none does (log 13). -/
def labelLine (prog : List HostLine) (l : Nat) : Nat := prog.findIdx fun x => x == .label l

/-- The host goes to the line after the current one. -/
def nextLine (s : State) : State := { s with hpc := s.hpc + 1 }

/-- A host branch: to the label when taken, else fall through (`30_encoding.md` R89). -/
def branch (taken : Bool) (l : Nat) (s : State) : State :=
  if taken then { s with hpc := labelLine s.prog l } else nextLine s

/-- One line of a host program (`30_encoding.md` R89). `fence` and a label only go to the next line: the model's issue
step sees all earlier host memory writes (`20_memory.md` R64, `70_reset_and_hazards.md` R198). -/
def hostLine (line : HostLine) (s : State) : Host.Outcome State Fault Refusal :=
  match line with
  | .wr r v => regAccess programHost (s.cfg.coreBase + regOffset r) 4 (fun r t => writeReg r v t) (nextLine s)
  | .rd r n =>
    regAccess programHost (s.cfg.coreBase + regOffset r) 4
      (fun r t => .next (setH n (readReg r t) { t with regData := readReg r t })) (nextLine s)
  | .stc a x => hostMemWrite a.toNat (bytesOfNat 8 (c64ToNat x)) (nextLine s)
  | .ldc a n =>
    match hostMemRead a.toNat 8 (nextLine s) with
    | .next t => .next (setC n (c64OfNat (natOfBytes t.memData)) t)
    | .fault f => .fault f
    | .refused r => .refused r
  | .label _ => .next (nextLine s)
  | .bnz n m l => .next (branch (getH s n &&& m != 0) l s)
  | .bz n m l => .next (branch (getH s n &&& m == 0) l s)
  | .fence => .next (nextLine s)
  | .halt => .next { s with halted := true }

/-- The host agent executes its next line; with none left, or halted, it does nothing (log 14). -/
def hostStep (s : State) : Host.Outcome State Fault Refusal :=
  if s.halted then .next s
  else
    match s.prog[s.hpc]? with
    | some line => hostLine line s
    | none => .next s

/-- The pseudo-instructions of `30_encoding.md` R90 and their expansions. `fresh` is the label that `wait` uses. -/
def pseudoR2c (k : Nat) : List HostLine := [.wr .cmd (BitVec.ofNat 32 ((k <<< 8) + 0x1))]

/-- `r2a k` (`30_encoding.md` R90). -/
def pseudoR2a (k : Nat) : List HostLine := [.wr .cmd (BitVec.ofNat 32 ((k <<< 8) + 0x2))]

/-- `r4 k` (`30_encoding.md` R90). -/
def pseudoR4 (k : Nat) : List HostLine := [.wr .cmd (BitVec.ofNat 32 ((k <<< 8) + 0x3))]

/-- `init` (`30_encoding.md` R90). -/
def pseudoInit : List HostLine := [.wr .cmd 0x00000004]

/-- `setup n, s, d, t, tl` (`30_encoding.md` R90). -/
def pseudoSetup (n s d t tl : Word) : List HostLine :=
  [.wr .len n, .wr .src s, .wr .dst d, .wr .tw t, .wr .twlen tl]

/-- `wait`, with the fresh label `w` (`30_encoding.md` R90). -/
def pseudoWait (w : Nat) : List HostLine := [.label w, .rd .status 0, .bnz 0 0x1 w]

/-- `ack`: clears DONE, FAULT and DROP (`30_encoding.md` R90). -/
def pseudoAck : List HostLine := [.wr .status 0x0000000E]

/-- `check L`: go to `L` when `FAULT = 1` (`30_encoding.md` R90). -/
def pseudoCheck (l : Nat) : List HostLine := [.rd .status 0, .bnz 0 0x4 l]

end Sys2Proof.Machine
end

