-- ==== Sys2Proof/Machine/Agents.lean ====
section
/-! DEFINITION. Which agent moves, and the stop after a model fault (`00_scope.md` R5, R6, `60_exceptions.md` R178, R179,
`70_reset_and_hazards.md` R202). `step` only calls these. -/

namespace Sys2Proof.Machine

/-- The stop that an entry of the fault log stands for: the model faults of `60_exceptions.md` R179; a failed check is
none. -/
def stopOf : MFault → Option Fault
  | .check _ => none
  | .mmioAccess _ _ => some .mmioAccess
  | .hazard _ _ => some .hazard
  | .multiHost _ => some .multiHost

/-- The model fault that has ended the run, if one has. -/
def modelStop (s : State) : Option Fault := s.mfaults.findSome? stopOf

/-- One input (`00_scope.md` R6): a host line, a host access, an engine step or reset. -/
def handle (e : Event) (s : State) : Host.Outcome State Fault Refusal :=
  match e with
  | .host => hostStep s
  | .access a => hostAccess a s
  | .engine k => .next (engineStep k s)
  | .reset => .next (resetEngine s)

/-- With no scheduled input left, a busy engine moves, so that every accepted operation completes
(`70_reset_and_hazards.md` R202); otherwise the host does (log 2). -/
def unscheduled (s : State) : Host.Outcome State Fault Refusal :=
  if s.busy then .next (engineStep 0 s) else hostStep s

/-- The next input, taken off the list. -/
def proceed (s : State) : Host.Outcome State Fault Refusal :=
  match s.events with
  | [] => unscheduled s
  | e :: es => handle e { s with events := es }

/-- The input that hands the engine the command word `w`: a 32-bit write to `CMD` by the host that owns the window. -/
def commandEvent (s : State) (w : Word) : Event :=
  .access (.regWrite (s.regHost.getD programHost) (s.cfg.coreBase + regOffset .cmd) 4 w)

end Sys2Proof.Machine
end

