-- ==== Sys2Proof/Machine/Step.lean ====
section
/-! DEFINITION. One step of the machine, and how a command word is handed to it. -/

namespace Sys2Proof.Machine

/-- One step (`00_scope.md` R6). After a model fault there is none (`60_exceptions.md` R179). -/
def step (s : State) : Host.Outcome State Fault Refusal :=
  match modelStop s with
  | some f => .fault f
  | none => proceed s

/-- The state with a command word as its next input: the engine fetches nothing, so its next command is the next host
write to `CMD` (`20_memory.md` R70; log 3). -/
def State.withFetchWord (s : State) (nbits w : Nat) : State :=
  { s with events := commandEvent s (tableWord nbits w) :: s.events }

end Sys2Proof.Machine
end

