-- ==== Sys2Proof/Safety.lean ====
section
/-! DEFINITION. What counts as a safe run and a consistent state, in the terms the statements use
(`10_state.md` R25–R40, R44; `70_reset_and_hazards.md` R203). -/

namespace Sys2Proof.Machine

/-- No check and no model fault has been logged: the premise of a claim about a clean run (`10_state.md` R44). -/
abbrev CleanLog (s : State) : Prop := s.mfaults = []

/-- The run has ended (`70_reset_and_hazards.md` R203): the host has halted, the engine is idle, and no model fault is logged. -/
abbrev Final (s : State) : Prop :=
  s.halted = true ∧ s.busy = false ∧ s.pending = [] ∧ modelStop s = none

/-- The command a descriptor was latched from (`10_state.md` R39). -/
def Desc.instr (d : Desc) : Instr :=
  match d.op with
  | .r2c => .r2c d.idx
  | .r2a => .r2a d.idx
  | .r4 => .r4 d.idx
  | .init => .init

/-- The descriptor that the issue of a command would latch (`10_state.md` R39). -/
def commandDesc (i : Instr) (s : State) : Desc :=
  match i with
  | .r2c idx => latch .r2c idx s
  | .r2a idx => latch .r2a idx s
  | .r4 idx => latch .r4 idx s
  | .init => latch .init 0 s

/-- `legal(w)` of `30_encoding.md` R85, in arithmetic on the word's number. -/
abbrev LegalWord (w : Word) : Prop :=
  w.toNat / 2 ^ 16 = 0 ∧ w.toNat / 2 ^ 4 % 2 ^ 4 = 0 ∧ 1 ≤ w.toNat % 2 ^ 4 ∧ w.toNat % 2 ^ 4 ≤ 4
    ∧ (w.toNat % 2 ^ 4 = 4 → w.toNat / 2 ^ 8 % 2 ^ 8 = 0)

/-- The machine can take `e` as its next input: no model fault is logged, the parameters are in their ranges, and `e` is first
in line. -/
abbrev NextInput (s : State) (e : Event) (es : List Event) : Prop :=
  modelStop s = none ∧ s.cfg.wf ∧ s.events = e :: es

/-- Host `h` may access the register window: no other host agent has (`60_exceptions.md` R183). -/
abbrev MayAccess (s : State) (h : Nat) : Prop := s.regHost = none ∨ s.regHost = some h

/-- The step is a reset event (`70_reset_and_hazards.md` R190). -/
def Resets (s : State) : Prop := ∃ es, s.events = .reset :: es

/-- The step is the engine's: its input is next, or nothing is scheduled and the engine is busy (log 2). -/
def EngineMoves (s : State) : Prop := (∃ k es, s.events = .engine k :: es) ∨ s.events = [] ∧ s.busy = true

/-- The step is the host's next line, and that line is `line` (`30_encoding.md` R89): its input is next, or nothing is scheduled and the
engine is idle (log 2). -/
def HostExecutes (s : State) (line : HostLine) : Prop :=
  ((∃ es, s.events = .host :: es) ∨ s.events = [] ∧ s.busy = false) ∧ s.halted = false ∧ s.prog[s.hpc]? = some line

/-- The step is a host write of `v` to the register `r`: an aligned 32-bit write at its offset by a host that may access the window,
as an input or as a `wr` line (`10_state.md` R20, R21, `30_encoding.md` R89). -/
def WritesReg (s : State) (r : Reg) (v : Word) : Prop :=
  (∃ h es, s.events = .access (.regWrite h (s.cfg.coreBase + regOffset r) 4 v) :: es ∧ MayAccess s h)
    ∨ HostExecutes s (.wr r v) ∧ MayAccess s programHost

/-- The step is a host access to the `n` bytes of system memory at `a`, as an input or as an `st.c` or `ld.c` line (`20_memory.md` R50,
`30_encoding.md` R89). -/
def AccessesMemory (s : State) (a : Word) (n : Nat) : Prop :=
  (∃ bs es, s.events = .access (.memWrite a bs) :: es ∧ bs.length = n)
    ∨ (∃ es, s.events = .access (.memRead a n) :: es)
    ∨ n = 8 ∧ ((∃ x, HostExecutes s (.stc a x)) ∨ ∃ k, HostExecutes s (.ldc a k))

/-- The full group set of an operation (`60_exceptions.md` R172). -/
def Desc.groups (d : Desc) : List Group :=
  match d.op with
  | .r2c => groupsR2c (nPrime .r2c d.n.toNat) (stride .r2c d.n.toNat d.idx)
  | .r2a => groupsR2a (nPrime .r2a d.n.toNat) (stride .r2a d.n.toNat d.idx)
  | .r4 => groupsR4 (nPrime .r4 d.n.toNat) (stride .r4 d.n.toNat d.idx)
  | .init => groupsInit (nPrime .init d.n.toNat)

/-- The `STATUS` bits agree with each other: a busy engine shows neither outcome, `DONE` and `FAULT` are never both 1
(`10_state.md` R27), and `CAUSE` is 0 exactly while `FAULT` is 0, a code 1 to 8 otherwise (R29, `60_exceptions.md` R161). -/
abbrev StatusOk (s : State) : Prop :=
  (s.busy = true → s.done = false ∧ s.fault = false) ∧ ¬(s.done = true ∧ s.fault = true)
    ∧ (s.fault = false → s.cause = 0) ∧ (s.fault = true → 1 ≤ s.cause.toNat ∧ s.cause.toNat ≤ 8)

/-- The latched descriptor is what the registers say (`10_state.md` R38, R39), it passed every check, and `pending` is a
set of groups of the operation (R40). -/
abbrev DescOk (s : State) (d : Desc) : Prop :=
  d = latch d.op d.idx s ∧ s.cmd = encodeWord d.instr ∧ d.idx = (idxField s.cmd).toNat ∧ d.instr.wf = true
    ∧ failingCheck s d = none ∧ s.pending.Nodup ∧ ∀ g ∈ s.pending, g ∈ d.groups

/-- `desc` is defined exactly while `BUSY = 1` and `pending` is empty while idle (`10_state.md` R39, R40, R45). -/
abbrev EngineOk (s : State) : Prop :=
  s.busy = s.desc.isSome ∧ (s.busy = false → s.pending = []) ∧ ∀ d ∈ s.desc, DescOk s d

/-- Memory is in its canonical form and lists only addresses of the space (`20_memory.md` R51). -/
abbrev MemoryOk (s : State) : Prop := Memory.wf s.mem ∧ ∀ c ∈ s.mem, c.1 < addressSpace

/-- The host's temporaries are in canonical form. -/
abbrev HostOk (s : State) : Prop := sparseWf (0 : Word) s.h ∧ sparseWf (⟨0, 0⟩ : C64) s.c

/-- The invariant of the machine. -/
abbrev MachineInv (s : State) : Prop := s.cfg.wf ∧ StatusOk s ∧ EngineOk s ∧ MemoryOk s ∧ HostOk s

/-- The failure condition of a check on a descriptor and the registers, in the words of `60_exceptions.md` R163–R169.
`ILLEGAL_CMD` never fails for a decoded command (R162). -/
def CheckFails (c : Check) (s : State) (d : Desc) : Prop :=
  match c with
  | .illegalCmd => False
  | .badLen =>
    match d.op with
    | .r2c | .r2a => ¬ ∃ m, d.n.toNat = 2 ^ m ∧ 1 ≤ m ∧ d.n.toNat ≤ 2 ^ s.cfg.log2NMax
    | .r4 => ¬ ∃ m, d.n.toNat = 2 ^ m ∧ 2 ≤ m ∧ d.n.toNat ≤ 2 ^ s.cfg.log2NMax
    | .init => ¬(d.n.toNat % 2 = 0 ∧ 2 ≤ d.n.toNat ∧ d.n.toNat ≤ 2 ^ s.cfg.log2NMax)
  | .badIdx =>
    d.op ≠ .init ∧ (stride d.op d.n.toNat d.idx = 0 ∨ nPrime d.op d.n.toNat % stride d.op d.n.toNat d.idx ≠ 0)
  | .twShort => d.op ≠ .init ∧ s.twlen.toNat < twReq d.op d.n.toNat d.idx
  | .misaligned => d.dstB.toNat % 8 ≠ 0 ∨ d.op ≠ .init ∧ (d.srcB.toNat % 8 ≠ 0 ∨ d.twB.toNat % 8 ≠ 0)
  | .range =>
    d.dstB.toNat + 8 * d.n.toNat > 2 ^ 32
      ∨ d.op ≠ .init ∧ (d.srcB.toNat + 8 * d.n.toNat > 2 ^ 32
          ∨ d.twB.toNat + 8 * twReq d.op d.n.toNat d.idx > 2 ^ 32)
  | .overlap => d.op ≠ .init ∧ ∃ a, d.dstR.has a = true ∧ (d.srcR.has a = true ∨ d.twR.has a = true)
  | .bus => ∃ r ∈ d.used, ∃ a, r.has a = true ∧ admits s.cfg a = false

/-- What an operation needs of its regions, for the regions it uses: bases that are multiples of 8, inside the address space,
and admitted (`41_radix2.md` R120, `42_radix4.md` R140, `20_memory.md` R57–R59). -/
def RegionUsable (s : State) (r : Region) : Prop :=
  r.1 % 8 = 0 ∧ r.1 + 8 * r.2 ≤ 2 ^ 32 ∧ ∀ a, r.has a = true → admits s.cfg a = true

/-- The conditions under which the checks admit a stage operation with stage index `idx` (`41_radix2.md` R120 with `lo = 1`,
`42_radix4.md` R140 with `lo = 2`). -/
def StageAdmitted (op : Op) (lo idx : Nat) (s : State) : Prop :=
  (∃ m, s.len.toNat = 2 ^ m ∧ lo ≤ m ∧ m ≤ s.cfg.log2NMax ∧ idx + lo ≤ m)
    ∧ twReq op s.len.toNat idx ≤ s.twlen.toNat
    ∧ RegionUsable s (latch op idx s).srcR ∧ RegionUsable s (latch op idx s).dstR
    ∧ RegionUsable s (latch op idx s).twR
    ∧ ∀ a, (latch op idx s).dstR.has a = true →
        (latch op idx s).srcR.has a = false ∧ (latch op idx s).twR.has a = false

/-- The conditions under which the checks admit `INIT` (`42_radix4.md` R146). -/
def InitAdmitted (s : State) : Prop :=
  s.len.toNat % 2 = 0 ∧ 2 ≤ s.len.toNat ∧ s.len.toNat ≤ 2 ^ s.cfg.log2NMax
    ∧ RegionUsable s (latch .init 0 s).dstR

/-- Two lanes agree up to the NaN draws (`40_complex64.md` R102, `41_radix2.md` R124). -/
def SameLane (x y : F32) : Prop := x = y ∨ isQuietNaN x = true ∧ isQuietNaN y = true

/-- Two elements agree lane by lane up to the NaN draws. -/
def SameElem (x y : C64) : Prop := SameLane x.re y.re ∧ SameLane x.im y.im

/-- `r` is the correctly rounded binary32 result of the exact value `e * 2^-(149 + u)`, ties to even (`40_complex64.md` R101): it is
no NaN; it is infinite exactly when the magnitude rounds above the largest finite value; it has the sign of a non-zero `e`;
and if it is finite, no finite pattern lies nearer, and where one lies as near, the fraction of `r` is even. -/
def CorrectlyRounded (u : Nat) (e : Int) (r : F32) : Prop :=
  isNaN r = false ∧ (isInf r = true ↔ (2 ^ 25 - 1) * 2 ^ (253 + u) ≤ 2 * e.natAbs)
    ∧ (e ≠ 0 → f32Sign r = decide (e < 0))
    ∧ ∀ z, isFinite r = true → isFinite z = true →
        (f32Val r * 2 ^ u - e).natAbs ≤ (f32Val z * 2 ^ u - e).natAbs
          ∧ ((f32Val r * 2 ^ u - e).natAbs = (f32Val z * 2 ^ u - e).natAbs →
              f32Val z = f32Val r ∨ r.getLsbD 0 = false)

/-- Right after acceptance of `d` with only engine steps scheduled: the start of an undisturbed operation. -/
abbrev JustAccepted (s : State) (d : Desc) (ks : List Nat) : Prop :=
  MachineInv s ∧ modelStop s = none ∧ s.desc = some d ∧ s.pending = d.groups ∧ s.events = ks.map Event.engine
    ∧ ks.length = d.groups.length + 1

end Sys2Proof.Machine
end

