-- ==== Sys2Proof/Certificates/Slice0/Obligations.lean ====
section
/-! DEFINITION. The statements about the machine, from the numbered rules of spec/.

Where a statement gives a whole next state, the fields `events`, `regHost`, `regData`, `memData` and `draws` in it are the model's own
bookkeeping and no rule's: logs 2, 4, 5, 10 and 11. -/

open Sys2Proof Sys2Proof.Machine

/-! ### Encoding (`30_encoding.md`) -/

/-- The ten worked encodings of `30_encoding.md` R87, as the decoder reads them. -/
def Obligations.WorkedEncodingsDecode : Prop :=
  decodeTableWord 32 0x00000001 = some (.r2c 0) ∧ decodeTableWord 32 0x00000101 = some (.r2c 1)
    ∧ decodeTableWord 32 0x00000202 = some (.r2a 2) ∧ decodeTableWord 32 0x00000003 = some (.r4 0)
    ∧ decodeTableWord 32 0x00000103 = some (.r4 1) ∧ decodeTableWord 32 0x00000004 = some .init
    ∧ decodeTableWord 32 0x00000000 = none ∧ decodeTableWord 32 0x00000104 = none
    ∧ decodeTableWord 32 0x00000011 = none ∧ decodeTableWord 32 0x00010001 = none

/-- Decoding the bytes of any well-formed command gives the command back and leaves the bytes after it
(`30_encoding.md` R86). -/
def Obligations.DecodeOfEncode : Prop :=
  ∀ (i : Instr) (rest : List Byte), i.wf = true → decode (encodeBytes i ++ rest) = .ok (i, rest)

/-- `30_encoding.md` R85, R86: a word decodes exactly when it is legal; its operation is chosen by `OP` and its stage index
is `w[15:8]`; encoding gives the word back; and the encoding is `(k << 8) | OP`, that is `256 * k + OP`. -/
def Obligations.CommandWordRoundTrip : Prop :=
  (∀ w : Word,
      (LegalWord w ↔ ∃ i, decodeWord w = .ok i)
        ∧ (w.toNat % 2 ^ 4 = 1 → LegalWord w → decodeWord w = .ok (.r2c (w.toNat / 2 ^ 8 % 2 ^ 8)))
        ∧ (w.toNat % 2 ^ 4 = 2 → LegalWord w → decodeWord w = .ok (.r2a (w.toNat / 2 ^ 8 % 2 ^ 8)))
        ∧ (w.toNat % 2 ^ 4 = 3 → LegalWord w → decodeWord w = .ok (.r4 (w.toNat / 2 ^ 8 % 2 ^ 8)))
        ∧ (w.toNat % 2 ^ 4 = 4 → LegalWord w → decodeWord w = .ok .init)
        ∧ ∀ i, decodeWord w = .ok i → i.wf = true ∧ encodeWord i = w)
    ∧ (∀ i : Instr, i.wf = true → decodeWord (encodeWord i) = .ok i)
    ∧ (∀ k, k < 256 → (encodeWord (.r2c k)).toNat = 256 * k + 1 ∧ (encodeWord (.r2a k)).toNat = 256 * k + 2
        ∧ (encodeWord (.r4 k)).toNat = 256 * k + 3)
    ∧ encodeWord .init = 0x00000004

/-! ### A step runs the decoded command (`60_exceptions.md` R160, `20_memory.md` R70) -/

/-- When the next input is a 32-bit host write of a legal word to `CMD`, or the host's next line is such a write, the step
is `exec` of the decoded command. Around it the step takes the input off the list, goes to the host's next line, and
notes which host made the access. The last clause is the host's way of handing the machine a word. -/
def Obligations.StepRunsDecodedCommand : Prop :=
  (∀ s es h w i, NextInput s (.access (.regWrite h (s.cfg.coreBase + 0x00) 4 w)) es → MayAccess s h →
      decodeWord w = .ok i → step s = exec i { s with events := es, regHost := some h })
    ∧ (∀ s es w i, NextInput s .host es → MayAccess s 0 → s.halted = false →
        s.prog[s.hpc]? = some (.wr .cmd w) → decodeWord w = .ok i →
        step s = exec i { s with events := es, hpc := s.hpc + 1, regHost := some 0 })
    ∧ ∀ s nbits w i, modelStop s = none → s.cfg.wf → decodeTableWord nbits w = some i →
        step (s.withFetchWord nbits w) = exec i { s with regHost := some (s.regHost.getD 0) }

/-- A host write of an illegal word to `CMD` of an idle engine (`60_exceptions.md` R162, R170): `CMD` holds the word,
`FAULT = 1`, `CAUSE = 0x01`, one log entry, nothing else. -/
def Obligations.IllegalCommandFaults : Prop :=
  ∀ s es h w, NextInput s (.access (.regWrite h (s.cfg.coreBase + 0x00) 4 w)) es → MayAccess s h →
    s.busy = false → ¬ LegalWord w →
    step s = .next { s with events := es, regHost := some h, cmd := w, done := false, fault := true, cause := 0x01
                            mfaults := s.mfaults ++ [.check 0x01] }

/-! ### Issue (`60_exceptions.md` R160–R172) -/

/-- `R2C` is accepted by an idle engine under the conditions of `41_radix2.md` R120 (`60_exceptions.md` R160, R172): the
whole next state. -/
def Obligations.R2cIssueAccepted : Prop :=
  ∀ idx s, idx < 256 → s.busy = false → StageAdmitted .r2c 1 idx s →
    exec (.r2c idx) s = .next
      { s with
        cmd := BitVec.ofNat 32 (256 * idx + 0x1), done := false, fault := false, cause := 0, busy := true
        desc := some { op := .r2c, n := s.len, idx := idx, srcB := s.src, dstB := s.dst, twB := s.tw }
        pending := groupsR2c (s.len.toNat / 2) (s.len.toNat / 2 / 2 ^ idx) }

/-- `R2A` is accepted under the same conditions, with its own enumeration of the groups (`41_radix2.md` R120, R123). -/
def Obligations.R2aIssueAccepted : Prop :=
  ∀ idx s, idx < 256 → s.busy = false → StageAdmitted .r2a 1 idx s →
    exec (.r2a idx) s = .next
      { s with
        cmd := BitVec.ofNat 32 (256 * idx + 0x2), done := false, fault := false, cause := 0, busy := true
        desc := some { op := .r2a, n := s.len, idx := idx, srcB := s.src, dstB := s.dst, twB := s.tw }
        pending := groupsR2a (s.len.toNat / 2) (s.len.toNat / 2 / 2 ^ idx) }

/-- `R4` is accepted by an idle engine under the conditions of `42_radix4.md` R140 (`60_exceptions.md` R160, R172). -/
def Obligations.R4IssueAccepted : Prop :=
  ∀ idx s, idx < 256 → s.busy = false → StageAdmitted .r4 2 idx s →
    exec (.r4 idx) s = .next
      { s with
        cmd := BitVec.ofNat 32 (256 * idx + 0x3), done := false, fault := false, cause := 0, busy := true
        desc := some { op := .r4, n := s.len, idx := idx, srcB := s.src, dstB := s.dst, twB := s.tw }
        pending := groupsR4 (s.len.toNat / 4) (s.len.toNat / 4 / 2 ^ idx) }

/-- `INIT` is accepted by an idle engine for an even `N` with `2 ≤ N ≤ NMAX` and a usable `DSTR`, whatever `SRC`, `TW` and
`TWLEN` hold (`42_radix4.md` R146, `60_exceptions.md` R160, R172). -/
def Obligations.InitIssueAccepted : Prop :=
  ∀ s, s.busy = false → InitAdmitted s →
    exec .init s = .next
      { s with
        cmd := 0x00000004, done := false, fault := false, cause := 0, busy := true
        desc := some { op := .init, n := s.len, idx := 0, srcB := s.src, dstB := s.dst, twB := s.tw }
        pending := groupsInit (s.len.toNat / 2) }

/-- A command whose first failing check, in the priority order of `60_exceptions.md` R161, is `c` takes the fault of `c`
(R160, R170) and does nothing else: the whole next state. The failure conditions are those of R163–R169. -/
def Obligations.FailedIssueTakesFirstFault : Prop :=
  ∀ i s c, s.busy = false → CheckFails c s (commandDesc i s) →
    (∀ c' : Check, c'.code.toNat < c.code.toNat → ¬ CheckFails c' s (commandDesc i s)) →
    exec i s = .next
      { s with
        cmd := encodeWord i, done := false, fault := true, cause := c.code
        mfaults := s.mfaults ++ [.check c.code] }

/-- Every command has exactly one outcome (`60_exceptions.md` R171, R178): dropped while busy, faulted with one log entry, or
accepted; and whichever it is, no operand register, no host state and no byte of memory changes. -/
def Obligations.IssueOutcomesAndFrame : Prop :=
  ∀ i s, ∃ t, exec i s = .next t
    ∧ ((s.busy = true ∧ t = { s with drop := true })
        ∨ (s.busy = false ∧ t.busy = false ∧ t.fault = true ∧ t.done = false ∧ t.desc = s.desc
            ∧ t.pending = s.pending ∧ t.drop = s.drop ∧ t.cmd = encodeWord i
            ∧ t.mfaults = s.mfaults ++ [.check t.cause])
        ∨ (s.busy = false ∧ t.busy = true ∧ t.fault = false ∧ t.done = false ∧ t.cause = 0
            ∧ t.desc = some (commandDesc i s) ∧ t.pending = (commandDesc i s).groups ∧ t.drop = s.drop
            ∧ t.cmd = encodeWord i ∧ t.mfaults = s.mfaults))
    ∧ t.cfg = s.cfg ∧ t.len = s.len ∧ t.src = s.src ∧ t.dst = s.dst ∧ t.tw = s.tw ∧ t.twlen = s.twlen ∧ t.ie = s.ie
    ∧ t.prog = s.prog ∧ t.hpc = s.hpc ∧ t.halted = s.halted ∧ t.h = s.h ∧ t.c = s.c ∧ t.regHost = s.regHost
    ∧ t.regData = s.regData ∧ t.memData = s.memData ∧ t.events = s.events ∧ t.draws = s.draws
    ∧ ∀ a, Memory.read t.mem a = Memory.read s.mem a

/-- The `BAD_IDX` check of an admitted length fails exactly when `2^idx > N'` (`60_exceptions.md` R164): `idx > m - 1` for
radix-2 and `idx > m - 2` for radix-4. The shift is not reduced modulo a word width. -/
def Obligations.BadIdxIsShiftPastN : Prop :=
  (∀ s d m, d.n.toNat = 2 ^ m → 1 ≤ m → (d.op = .r2c ∨ d.op = .r2a) →
      (CheckFails .badIdx s d ↔ m < d.idx + 1))
    ∧ (∀ s d m, d.n.toNat = 2 ^ m → 2 ≤ m → d.op = .r4 → (CheckFails .badIdx s d ↔ m < d.idx + 2))
    ∧ ∀ s d, d.op = .r2c → d.n = 8 → d.idx = 32 → CheckFails .badIdx s d

/-! ### The register window (`10_state.md` R20–R38) -/

/-- While the engine is busy, a host write to `CMD`, `LEN`, `SRC`, `DST`, `TW` or `TWLEN` changes nothing but `DROP`; writes to
`STATUS` and `CTRL` take effect; writes to `CAPS` and to the reserved offsets do nothing (`10_state.md` R38). -/
def Obligations.BusyWritesDropped : Prop :=
  ∀ s es h off v, NextInput s (.access (.regWrite h (s.cfg.coreBase + off) 4 v)) es → MayAccess s h → s.busy = true →
    (off ∈ [0x00, 0x0C, 0x10, 0x14, 0x18, 0x1C] →
        step s = .next { s with events := es, regHost := some h, drop := true })
      ∧ (off = 0x04 → step s = .next { s with
            events := es, regHost := some h, done := s.done && !v.getLsbD 1, fault := s.fault && !v.getLsbD 2
            cause := if v.getLsbD 2 then 0 else s.cause, drop := s.drop && !v.getLsbD 3 })
      ∧ (off = 0x08 → step s = .next { s with events := es, regHost := some h, ie := v.getLsbD 0 })
      ∧ (off ∈ [0x20, 0x24, 0x28, 0x2C, 0x30, 0x34, 0x38, 0x3C] →
          step s = .next { s with events := es, regHost := some h })

/-- A host write to `CTRL` or, while idle, to an operand register (`10_state.md` R31–R36): the register takes the value, any
value, and nothing else changes. A write to `CAPS` or to one of the seven reserved offsets has no effect and does not set
`DROP` (R22, R37). -/
def Obligations.RegisterWrites : Prop :=
  ∀ s es h off v, NextInput s (.access (.regWrite h (s.cfg.coreBase + off) 4 v)) es → MayAccess s h →
    (off = 0x08 → step s = .next { s with events := es, regHost := some h, ie := v.getLsbD 0 })
      ∧ (s.busy = false →
          (off = 0x0C → step s = .next { s with events := es, regHost := some h, len := v })
          ∧ (off = 0x10 → step s = .next { s with events := es, regHost := some h, src := v })
          ∧ (off = 0x14 → step s = .next { s with events := es, regHost := some h, dst := v })
          ∧ (off = 0x18 → step s = .next { s with events := es, regHost := some h, tw := v })
          ∧ (off = 0x1C → step s = .next { s with events := es, regHost := some h, twlen := v }))
      ∧ (off ∈ [0x20, 0x24, 0x28, 0x2C, 0x30, 0x34, 0x38, 0x3C] →
          step s = .next { s with events := es, regHost := some h })

/-- A host write of `v` to `STATUS`, busy or not (`10_state.md` R30): bits 1, 2 and 3 clear `DONE`, `FAULT` with `CAUSE`, and
`DROP`; every other bit of `v` is ignored and nothing else changes. -/
def Obligations.StatusWriteClears : Prop :=
  ∀ s es h v, NextInput s (.access (.regWrite h (s.cfg.coreBase + 0x04) 4 v)) es → MayAccess s h →
    step s = .next { s with
      events := es, regHost := some h
      done := if v.getLsbD 1 then false else s.done
      fault := if v.getLsbD 2 then false else s.fault
      cause := if v.getLsbD 2 then 0x00 else s.cause
      drop := if v.getLsbD 3 then false else s.drop }

/-- What a 32-bit host read at each offset of the window returns, and that it changes nothing else (`10_state.md` R20–R37). The
result lands in the model's own field `regData`. `statusWord`, `ctrlWord` and `capsWord` are pinned by
`RegisterWordFields`. -/
def Obligations.RegisterReads : Prop :=
  ∀ s es h off v, NextInput s (.access (.regRead h (s.cfg.coreBase + off) 4)) es → MayAccess s h →
    (off, v) ∈ [(0x00, s.cmd), (0x04, statusWord s), (0x08, ctrlWord s), (0x0C, s.len), (0x10, s.src), (0x14, s.dst),
      (0x18, s.tw), (0x1C, s.twlen), (0x20, capsWord s), (0x24, 0), (0x28, 0), (0x2C, 0), (0x30, 0), (0x34, 0),
      (0x38, 0), (0x3C, 0)] →
    step s = .next { s with events := es, regHost := some h, regData := v }

/-- The words of `STATUS`, `CTRL` and `CAPS` as numbers: `BUSY`, `DONE`, `FAULT`, `DROP` in bits 0 to 3 and `CAUSE` in bits 15:8
of `STATUS` (`10_state.md` R24), `IE` in bit 0 of `CTRL` (R31), `LOG2_NMAX` in bits 4:0 of `CAPS` (R37), every other bit 0. -/
def Obligations.RegisterWordFields : Prop :=
  (∀ s, (statusWord s).toNat = s.busy.toNat + 2 * s.done.toNat + 4 * s.fault.toNat + 8 * s.drop.toNat
      + 256 * s.cause.toNat)
    ∧ (∀ s, (ctrlWord s).toNat = s.ie.toNat) ∧ ∀ s, s.cfg.wf → (capsWord s).toNat = s.cfg.log2NMax

/-- A host access that touches the register window and is not an aligned 32-bit access is the model fault `MMIO_ACCESS`
(`10_state.md` R21, `60_exceptions.md` R179): it is logged, no register changes, and the state after it has no further
step. The detail of the log entry is the model's choice (log 8). -/
def Obligations.BadAccessIsModelFault : Prop :=
  ∀ s es h addr width v acc, acc = .regWrite h addr width v ∨ acc = .regRead h addr width →
    NextInput s (.access acc) es → (width ≠ 4 ∨ addr % 4 ≠ 0) → 0 < width → addr < s.cfg.coreBase + 64 →
    s.cfg.coreBase < addr + width →
    step s = .next { s with events := es, mfaults := s.mfaults ++ [.mmioAccess addr width] }
      ∧ step { s with events := es, mfaults := s.mfaults ++ [.mmioAccess addr width] } = .fault .mmioAccess

/-- An aligned 32-bit access to the register window by a second host agent is the model fault `MULTI_HOST`
(`60_exceptions.md` R179, R183). The detail of the log entry is the model's choice (log 8). -/
def Obligations.SecondHostIsModelFault : Prop :=
  ∀ s es h h' addr v acc, acc = .regWrite h addr 4 v ∨ acc = .regRead h addr 4 → NextInput s (.access acc) es →
    s.regHost = some h' → h' ≠ h → addr % 4 = 0 → s.cfg.coreBase ≤ addr → addr < s.cfg.coreBase + 64 →
    step s = .next { s with events := es, mfaults := s.mfaults ++ [.multiHost h] }
      ∧ step { s with events := es, mfaults := s.mfaults ++ [.multiHost h] } = .fault .multiHost

/-- After a model fault the machine has no further step. Failed checks never stop it: where the log holds nothing else, every step
answers a next state, but for a host memory access beyond `2^32`, which stops as log 9 says (`60_exceptions.md` R179,
`70_reset_and_hazards.md` R203). No step is refused. -/
def Obligations.OnlyModelFaultsEndTheRun : Prop :=
  (∀ s f, f ∈ s.mfaults → (∀ code, f ≠ .check code) →
      step s = .fault .mmioAccess ∨ step s = .fault .hazard ∨ step s = .fault .multiHost)
    ∧ ∀ s, (∀ e ∈ s.mfaults, ∃ code, e = .check code) →
        (∃ t, step s = .next t)
          ∨ step s = .fault .noSuchAddress ∧ ∃ a n, AccessesMemory s a n ∧ 2 ^ 32 < a.toNat + n

/-! ### Groups and indices (`41_radix2.md` R121–R126, `42_radix4.md` R141–R147) -/

/-- The group sets `G2`, `G4` and `GI` (`41_radix2.md` R121, `42_radix4.md` R141, R146): membership, no repeats, and size, for a
stride that divides `N'`. -/
def Obligations.GroupSetsAreG2G4GI : Prop :=
  (∀ half σ, 0 < σ → σ ∣ half →
      (∀ i o, .pair i o ∈ groupsR2c half σ ↔ i < half ∧ σ ∣ i ∧ o < σ) ∧ (∀ o, .index o ∉ groupsR2c half σ)
        ∧ (groupsR2c half σ).Nodup ∧ (groupsR2c half σ).length = half)
    ∧ (∀ quarter σ, 0 < σ → σ ∣ quarter →
        (∀ i o, .pair i o ∈ groupsR4 quarter σ ↔ i < quarter ∧ σ ∣ i ∧ o < σ) ∧ (∀ o, .index o ∉ groupsR4 quarter σ)
          ∧ (groupsR4 quarter σ).Nodup ∧ (groupsR4 quarter σ).length = quarter)
    ∧ ∀ h, (∀ o, .index o ∈ groupsInit h ↔ o < h) ∧ (∀ i o, .pair i o ∉ groupsInit h) ∧ (groupsInit h).Nodup
        ∧ (groupsInit h).length = h

/-- `o ↦ (o & ~mask, o & mask)` is a bijection from `[0, half)` onto `G2` with inverse `(i, O) ↦ i | O`, so `R2A` performs
exactly the groups of `R2C`, each once (`41_radix2.md` R124). -/
def Obligations.R2aGroupsAreR2cGroups : Prop :=
  ∀ a b, b ≤ a →
    (groupsR2a (2 ^ a) (2 ^ b)).Perm (groupsR2c (2 ^ a) (2 ^ b))
      ∧ (∀ o, o < 2 ^ a → clearBits o (2 ^ b - 1) ||| (o &&& (2 ^ b - 1)) = o
          ∧ .pair (clearBits o (2 ^ b - 1)) (o &&& (2 ^ b - 1)) ∈ groupsR2c (2 ^ a) (2 ^ b))
      ∧ ∀ i o, .pair i o ∈ groupsR2c (2 ^ a) (2 ^ b) →
          (i ||| o) < 2 ^ a ∧ clearBits (i ||| o) (2 ^ b - 1) = i ∧ (i ||| o) &&& (2 ^ b - 1) = o

/-- The source indices and the destination indices that a group of a radix-2 stage uses (`41_radix2.md` R121). -/
def radix2Reads (σ : Nat) : Group → List Nat
  | .pair i o => [bf2In i o, bf2In i o + σ]
  | .index _ => []

/-- The destination indices that a group of a radix-2 stage writes (`41_radix2.md` R121). -/
def radix2Writes (half : Nat) : Group → List Nat
  | .pair i o => [bfOut i o, bfOut i o + half]
  | .index _ => []

/-- The source indices that a group of a radix-4 stage reads (`42_radix4.md` R141). -/
def radix4Reads (σ : Nat) : Group → List Nat
  | .pair i o => [bf4In i o, bf4In i o + σ, bf4In i o + 2 * σ, bf4In i o + 3 * σ]
  | .index _ => []

/-- The destination indices that a group of a radix-4 stage writes (`42_radix4.md` R141). -/
def radix4Writes (quarter : Nat) : Group → List Nat
  | .pair i o => [bfOut i o, bfOut i o + quarter, bfOut i o + 2 * quarter, bfOut i o + 3 * quarter]
  | .index _ => []

/-- The elements that a group of `INIT` reads and writes (`42_radix4.md` R146, R147). -/
def initElements (h : Nat) : Group → List Nat
  | .index o => [o, o + h]
  | .pair _ _ => []

/-- `41_radix2.md` R125, for `half = 2^a` and `stride = 2^b`: the bitwise ORs are sums; the two inputs of the block that starts at `i`
cover `[2i, 2i + stride)` and `[2i + stride, 2i + 2 * stride)`; over the groups the outputs cover `[0, half)` and `[half, N)`, and
inputs and outputs each cover `[0, N)`, every index exactly once. Last, the rule's remark on N = 12, `idx = 1`. -/
def Obligations.Radix2IndexFacts : Prop :=
  (∀ a b, b ≤ a →
      (∀ i o, .pair i o ∈ groupsR2c (2 ^ a) (2 ^ b) → bf2In i o = 2 * i + o ∧ bfOut i o = i + o)
        ∧ (∀ i, i < 2 ^ a → 2 ^ b ∣ i →
            (List.range (2 ^ b)).map (bf2In i) = List.range' (2 * i) (2 ^ b)
              ∧ (List.range (2 ^ b)).map (fun o => bf2In i o + 2 ^ b) = List.range' (2 * i + 2 ^ b) (2 ^ b))
        ∧ ((groupsR2c (2 ^ a) (2 ^ b)).flatMap (radix2Reads (2 ^ b))).Perm (List.range (2 * 2 ^ a))
        ∧ ((groupsR2c (2 ^ a) (2 ^ b)).flatMap (fun g => (radix2Writes (2 ^ a) g).take 1)).Perm (List.range (2 ^ a))
        ∧ ((groupsR2c (2 ^ a) (2 ^ b)).flatMap (fun g => (radix2Writes (2 ^ a) g).drop 1)).Perm
            (List.range' (2 ^ a) (2 ^ a))
        ∧ ((groupsR2c (2 ^ a) (2 ^ b)).flatMap (radix2Writes (2 ^ a))).Perm (List.range (2 * 2 ^ a)))
    ∧ .pair 3 0 ∈ groupsR2c 6 3 ∧ .pair 3 2 ∈ groupsR2c 6 3 ∧ bf2In 3 0 = 6 ∧ bf2In 3 2 = 6
    ∧ ∀ g ∈ groupsR2c 6 3, 8 ∉ radix2Reads 3 g

/-- `42_radix4.md` R143, for `quarter = 2^a` and `stride = 2^b`: the bitwise ORs are sums; the four inputs of the block that starts
at `i` cover `[4i, 4i + 4 * stride)`; over the groups the four inputs and the four outputs each cover `[0, N)`, every index
exactly once. -/
def Obligations.Radix4IndexFacts : Prop :=
  ∀ a b, b ≤ a →
    (∀ i o, .pair i o ∈ groupsR4 (2 ^ a) (2 ^ b) → bf4In i o = 4 * i + o ∧ bfOut i o = i + o)
      ∧ (∀ i, i < 2 ^ a → 2 ^ b ∣ i →
          ((List.range (2 ^ b)).flatMap fun o => radix4Reads (2 ^ b) (.pair i o)).Perm (List.range' (4 * i) (4 * 2 ^ b)))
      ∧ ((groupsR4 (2 ^ a) (2 ^ b)).flatMap (radix4Reads (2 ^ b))).Perm (List.range (4 * 2 ^ a))
      ∧ ((groupsR4 (2 ^ a) (2 ^ b)).flatMap (radix4Writes (2 ^ a))).Perm (List.range (4 * 2 ^ a))

/-- `42_radix4.md` R147: for every even `N` the pairs `{o, o + h}` of the groups of `INIT` are disjoint and together cover
`[0, N)`: each element belongs to exactly one group. -/
def Obligations.InitPairsPartition : Prop :=
  ∀ h, ((groupsInit h).flatMap (initElements h)).Perm (List.range (2 * h))

/-- Twiddle reads (`41_radix2.md` R126, `42_radix4.md` R144): nothing at or beyond `TWREQ` is read. For radix-2 the largest index read
is `half - stride`, and it is read; only at stride 1 is that `TWREQ - 1`. For radix-4 the largest is `TWREQ - 1`, it is read, and
`TWREQ ≤ 3N/4 - 2`. -/
def Obligations.TwiddleReadsBounded : Prop :=
  (∀ n idx half σ, half = n / 2 → σ = half / 2 ^ idx → 0 < σ → σ ∣ half →
      (∀ i o, .pair i o ∈ groupsR2c half σ → i ≤ half - σ ∧ i < twReq .r2c n idx)
        ∧ ∃ o, .pair (half - σ) o ∈ groupsR2c half σ)
    ∧ ∀ n idx quarter σ, quarter = n / 4 → σ = quarter / 2 ^ idx → 0 < σ → σ ∣ quarter →
        (∀ i o, .pair i o ∈ groupsR4 quarter σ → 3 * i ≤ twReq .r4 n idx - 1)
          ∧ (∃ i o, .pair i o ∈ groupsR4 quarter σ ∧ 3 * i = twReq .r4 n idx - 1)
          ∧ 4 * (twReq .r4 n idx + 2) ≤ 3 * n

/-! ### Group steps and completion (`60_exceptions.md` R173, R174) -/

/-- The bytes `[e, e + 8)` of none of the elements `ks` of the buffer at `base` hold `a`. -/
def outsideElems (base : Word) (ks : List Nat) (a : Nat) : Prop :=
  ∀ k ∈ ks, a < elemAddr base k ∨ elemAddr base k + 8 ≤ a

/-- A group step of `R2C` or `R2A` (`41_radix2.md` R121, `60_exceptions.md` R173): the two elements it writes, from the inputs it
reads before writing; every other byte of memory, every register and everything else stay. The draw numbers are the model's
(log 4): the statement holds for every value of `draws`. -/
def Obligations.Radix2GroupStep : Prop :=
  ∀ s es k d i o, MachineInv s → NextInput s (.engine k) es → s.desc = some d → (d.op = .r2c ∨ d.op = .r2a) →
    chosenGroup k s = some (.pair i o) →
    ∃ m, step s = .next
        { s with events := es, pending := s.pending.erase (.pair i o), mem := m, draws := s.draws + 10 }
      ∧ (let half := d.n.toNat / 2
         let σ := half / 2 ^ d.idx
         let t := ldC s.mem d.twB i
         let i1 := (i * 2) ||| o
         let out := i ||| o
         let a := ldC s.mem d.srcB i1
         let b := cmul s.draws (ldC s.mem d.srcB (i1 + σ)) t
         ldC m d.dstB out = cadd (s.draws + 6) a b
           ∧ ldC m d.dstB (out + half) = csub (s.draws + 8) a b
           ∧ ∀ x, outsideElems d.dstB [out, out + half] x → Memory.read m x = Memory.read s.mem x)

/-- A group step of `R4` (`42_radix4.md` R141, `60_exceptions.md` R173): the four elements it writes and its frame. -/
def Obligations.Radix4GroupStep : Prop :=
  ∀ s es k d i o, MachineInv s → NextInput s (.engine k) es → s.desc = some d → d.op = .r4 →
    chosenGroup k s = some (.pair i o) →
    ∃ m, step s = .next
        { s with events := es, pending := s.pending.erase (.pair i o), mem := m, draws := s.draws + 34 }
      ∧ (let q := d.n.toNat / 4
         let σ := q / 2 ^ d.idx
         let n := s.draws
         let i1 := (i * 4) ||| o
         let out := i ||| o
         let a := ldC s.mem d.srcB i1
         let b := cmul n (ldC s.mem d.srcB (i1 + σ)) (ldC s.mem d.twB i)
         let c := cmul (n + 6) (ldC s.mem d.srcB (i1 + 2 * σ)) (ldC s.mem d.twB (2 * i))
         let e := cmul (n + 12) (ldC s.mem d.srcB (i1 + 3 * σ)) (ldC s.mem d.twB (3 * i))
         let acp := cadd (n + 18) a c
         let acm := csub (n + 20) a c
         let bdp := cadd (n + 22) b e
         let bdm := crotni (csub (n + 24) b e)
         ldC m d.dstB out = cadd (n + 26) acp bdp
           ∧ ldC m d.dstB (out + q) = cadd (n + 28) acm bdm
           ∧ ldC m d.dstB (out + 2 * q) = csub (n + 30) acp bdp
           ∧ ldC m d.dstB (out + 3 * q) = csub (n + 32) acm bdm
           ∧ ∀ x, outsideElems d.dstB [out, out + q, out + 2 * q, out + 3 * q] x →
               Memory.read m x = Memory.read s.mem x)

/-- A group step of `INIT` (`42_radix4.md` R146, `60_exceptions.md` R173): in place, both reads before both writes, with no
multiplication. -/
def Obligations.InitGroupStep : Prop :=
  ∀ s es k d o, MachineInv s → NextInput s (.engine k) es → s.desc = some d → d.op = .init →
    chosenGroup k s = some (.index o) →
    ∃ m, step s = .next
        { s with events := es, pending := s.pending.erase (.index o), mem := m, draws := s.draws + 4 }
      ∧ (let h := d.n.toNat / 2
         let a := ldC s.mem d.dstB o
         let b := ldC s.mem d.dstB (o + h)
         ldC m d.dstB o = cadd s.draws a b
           ∧ ldC m d.dstB (o + h) = csub (s.draws + 2) a b
           ∧ ∀ x, outsideElems d.dstB [o, o + h] x → Memory.read m x = Memory.read s.mem x)

/-- The completion step (`60_exceptions.md` R174): enabled when `BUSY = 1` and `pending` is empty; the whole next state. -/
def Obligations.CompletionStep : Prop :=
  ∀ s es k, MachineInv s → NextInput s (.engine k) es → s.busy = true → s.pending = [] →
    step s = .next { s with events := es, busy := false, done := true, desc := none }

/-- An engine step writes only inside `DSTR` (`20_memory.md` R60, R61) and changes no register: for every choice of group, and
idle or busy, it answers a next state that differs at most in `pending`, memory, the draw counter and, at completion, `BUSY`,
`DONE` and `desc`. -/
def Obligations.EngineWritesOnlyDestination : Prop :=
  ∀ s es k, MachineInv s → NextInput s (.engine k) es →
    ∃ t, step s = .next t
      ∧ t = { s with events := es, pending := t.pending, mem := t.mem, draws := t.draws, busy := t.busy
                     done := t.done, desc := t.desc }
      ∧ (s.busy = false → t = { s with events := es })
      ∧ ∀ d a, s.desc = some d → d.dstR.has a = false → Memory.read t.mem a = Memory.read s.mem a

/-! ### Whole operations -/

/-- An accepted `R2C` or `R2A`, under every order of its groups (`41_radix2.md` R122, R123, `60_exceptions.md` R173, R174): the engine
ends idle and `DONE`, every element of the destination holds the butterfly of the inputs in memory at issue, and no other byte
changes. The draw numbers `k` are free. -/
def Obligations.Radix2WholeStage : Prop :=
  ∀ s d ks, JustAccepted s d ks → (d.op = .r2c ∨ d.op = .r2a) →
    ∃ t, Host.Core.run Sys2Proof.core ks.length s = .next t ∧ t.busy = false ∧ t.done = true
      ∧ (∀ a, d.dstR.has a = false → Memory.read t.mem a = Memory.read s.mem a)
      ∧ ∀ half σ i o, half = d.n.toNat / 2 → σ = half / 2 ^ d.idx → i < half → σ ∣ i → o < σ →
          ∃ k, let a := ldC s.mem d.srcB (2 * i + o)
               let b := cmul k (ldC s.mem d.srcB (2 * i + o + σ)) (ldC s.mem d.twB i)
               ldC t.mem d.dstB (i + o) = cadd (k + 6) a b ∧ ldC t.mem d.dstB (i + o + half) = csub (k + 8) a b

/-- An accepted `R4`, under every order of its groups (`42_radix4.md` R142, `60_exceptions.md` R173, R174). -/
def Obligations.Radix4WholeStage : Prop :=
  ∀ s d ks, JustAccepted s d ks → d.op = .r4 →
    ∃ t, Host.Core.run Sys2Proof.core ks.length s = .next t ∧ t.busy = false ∧ t.done = true
      ∧ (∀ a, d.dstR.has a = false → Memory.read t.mem a = Memory.read s.mem a)
      ∧ ∀ q σ i o, q = d.n.toNat / 4 → σ = q / 2 ^ d.idx → i < q → σ ∣ i → o < σ →
          ∃ k, let a := ldC s.mem d.srcB (4 * i + o)
               let b := cmul k (ldC s.mem d.srcB (4 * i + o + σ)) (ldC s.mem d.twB i)
               let c := cmul (k + 6) (ldC s.mem d.srcB (4 * i + o + 2 * σ)) (ldC s.mem d.twB (2 * i))
               let e := cmul (k + 12) (ldC s.mem d.srcB (4 * i + o + 3 * σ)) (ldC s.mem d.twB (3 * i))
               let acp := cadd (k + 18) a c
               let acm := csub (k + 20) a c
               let bdp := cadd (k + 22) b e
               let bdm := crotni (csub (k + 24) b e)
               ldC t.mem d.dstB (i + o) = cadd (k + 26) acp bdp
                 ∧ ldC t.mem d.dstB (i + o + q) = cadd (k + 28) acm bdm
                 ∧ ldC t.mem d.dstB (i + o + 2 * q) = csub (k + 30) acp bdp
                 ∧ ldC t.mem d.dstB (i + o + 3 * q) = csub (k + 32) acm bdm

/-- An accepted `INIT`, in place, under every order of its groups (`42_radix4.md` R146, R147, `60_exceptions.md` R173, R174). -/
def Obligations.InitWholeStage : Prop :=
  ∀ s d ks, JustAccepted s d ks → d.op = .init →
    ∃ t, Host.Core.run Sys2Proof.core ks.length s = .next t ∧ t.busy = false ∧ t.done = true
      ∧ (∀ a, d.dstR.has a = false → Memory.read t.mem a = Memory.read s.mem a)
      ∧ ∀ h o, h = d.n.toNat / 2 → o < h →
          ∃ k, let a := ldC s.mem d.dstB o
               let b := ldC s.mem d.dstB (o + h)
               ldC t.mem d.dstB o = cadd k a b ∧ ldC t.mem d.dstB (o + h) = csub (k + 2) a b

/-- An accepted operation ends after one step per pending group and the completion step (`70_reset_and_hazards.md` R202), whether
the engine's steps are scheduled with any choices or nothing is scheduled; then the engine is idle with `DONE = 1`, and no
register, log entry or host state has changed. -/
def Obligations.OperationCompletes : Prop :=
  ∀ (s : State) (ks : List Nat), MachineInv s → modelStop s = none → s.busy = true →
    (s.events = [] ∨ s.events = ks.map Event.engine ∧ ks.length = s.pending.length + 1) →
    ∃ m n, Host.Core.run Sys2Proof.core (s.pending.length + 1) s = .next
      { s with events := [], busy := false, done := true, desc := none, pending := [], mem := m, draws := n }

/-- `R2A` computes what `R2C` computes (`41_radix2.md` R124): from the same memory and operands, under any two orders of the
groups, the two leave every destination lane bit-identical or a NaN in both, and every other byte the same. -/
def Obligations.R2aMatchesR2c : Prop :=
  ∀ s₁ s₂ d ks₁ ks₂, d.op = .r2c → JustAccepted s₁ d ks₁ → JustAccepted s₂ { d with op := .r2a } ks₂ →
    s₁.mem = s₂.mem →
    ∃ t₁ t₂, Host.Core.run Sys2Proof.core ks₁.length s₁ = .next t₁
      ∧ Host.Core.run Sys2Proof.core ks₂.length s₂ = .next t₂
      ∧ (∀ k, k < d.n.toNat → SameElem (ldC t₁.mem d.dstB k) (ldC t₂.mem d.dstB k))
      ∧ ∀ a, d.dstR.has a = false → Memory.read t₁.mem a = Memory.read t₂.mem a

/-- The result of an operation depends only on the elements it reads, `N` and `idx`, and the NaN draws (`41_radix2.md` R127,
`20_memory.md` R66, `42_radix4.md` R147): two runs of one operation, at any bases, with any former destination and under any two
orders of the groups, that read equal elements agree on every destination lane up to NaN draws. -/
def Obligations.ResultDependsOnlyOnInputs : Prop :=
  ∀ s₁ s₂ d₁ d₂ ks₁ ks₂, JustAccepted s₁ d₁ ks₁ → JustAccepted s₂ d₂ ks₂ →
    d₁.op = d₂.op → d₁.n = d₂.n → d₁.idx = d₂.idx →
    (d₁.op = .init → ∀ k, k < d₁.n.toNat → ldC s₁.mem d₁.dstB k = ldC s₂.mem d₂.dstB k) →
    (d₁.op ≠ .init → (∀ k, k < d₁.n.toNat → ldC s₁.mem d₁.srcB k = ldC s₂.mem d₂.srcB k)
      ∧ ∀ k, k < twReq d₁.op d₁.n.toNat d₁.idx → ldC s₁.mem d₁.twB k = ldC s₂.mem d₂.twB k) →
    ∃ t₁ t₂, Host.Core.run Sys2Proof.core ks₁.length s₁ = .next t₁
      ∧ Host.Core.run Sys2Proof.core ks₂.length s₂ = .next t₂
      ∧ ∀ k, k < d₁.n.toNat → SameElem (ldC t₁.mem d₁.dstB k) (ldC t₂.mem d₂.dstB k)

/-! ### Host memory accesses (`20_memory.md` R50–R53, `70_reset_and_hazards.md` R197) -/

/-- A host write to memory that touches no used region of a running operation stores its bytes and changes nothing else
(`70_reset_and_hazards.md` R197). -/
def Obligations.HostWriteStores : Prop :=
  ∀ s es (a : Word) bs, NextInput s (.access (.memWrite a bs)) es → a.toNat + bs.length ≤ 2 ^ 32 →
    (∀ d r x, s.busy = true → s.desc = some d → r ∈ d.used → a.toNat ≤ x → x < a.toNat + bs.length →
      r.has x = false) →
    ∃ m, step s = .next { s with events := es, mem := m }
      ∧ (∀ j (hj : j < bs.length), Memory.read m (a.toNat + j) = bs[j])
      ∧ ∀ x, x < a.toNat ∨ a.toNat + bs.length ≤ x → Memory.read m x = Memory.read s.mem x

/-- A host write to a byte of a used region of the running operation is the model fault `HAZARD`
(`70_reset_and_hazards.md` R197, `60_exceptions.md` R179): it is logged, nothing is stored, and there is no further step. That
nothing is stored, and the detail of the entry, are the model's choices (log 7, log 8). -/
def Obligations.HostWriteHazard : Prop :=
  ∀ s es (a : Word) bs d r x, NextInput s (.access (.memWrite a bs)) es → a.toNat + bs.length ≤ 2 ^ 32 →
    s.busy = true → s.desc = some d → r ∈ d.used → r.has x = true → a.toNat ≤ x → x < a.toNat + bs.length →
    step s = .next { s with events := es, mfaults := s.mfaults ++ [.hazard a.toNat bs.length] }
      ∧ step { s with events := es, mfaults := s.mfaults ++ [.hazard a.toNat bs.length] } = .fault .hazard

/-- A host read of memory (`70_reset_and_hazards.md` R197): it answers a next state that changes only the model's record of what
was read (and the draw counter), and every byte outside `DSTR` of a running operation is the current one. About a byte of
`DSTR` while busy it says nothing. -/
def Obligations.HostReadReturnsCurrent : Prop :=
  ∀ s es (a : Word) n, NextInput s (.access (.memRead a n)) es → a.toNat + n ≤ 2 ^ 32 →
    ∃ bs k, step s = .next { s with events := es, memData := bs, draws := k } ∧ bs.length = n
      ∧ (s.busy = false → k = s.draws)
      ∧ ∀ j (hj : j < bs.length),
          (∀ d, s.busy = true → s.desc = some d → d.dstR.has (a.toNat + j) = false) →
          bs[j] = Memory.read s.mem (a.toNat + j)

/-- A host access to memory that leaves `[0, 2^32)` stops the machine: there is no such byte (`20_memory.md` R51). The stop is the
model's (log 9). -/
def Obligations.HostAccessBeyondMemoryStops : Prop :=
  (∀ s es (a : Word) bs, NextInput s (.access (.memWrite a bs)) es → 2 ^ 32 < a.toNat + bs.length →
      step s = .fault .noSuchAddress)
    ∧ ∀ s es (a : Word) n, NextInput s (.access (.memRead a n)) es → 2 ^ 32 < a.toNat + n →
        step s = .fault .noSuchAddress

/-- The host's element lines (`30_encoding.md` R89), busy or idle. `st.c A, (re, im)` is the 8-byte memory write at `A` of the four
bytes of `re` and then the four of `im`, each little-endian (`20_memory.md` R52, R53), made from the next line: so while busy it is
the model fault `HAZARD` where `HostWriteHazard` says so, and stores where `HostWriteStores` does. `ld.c A -> cN` is the 8-byte memory
read at `A`, whose bytes `HostReadReturnsCurrent` gives: they go into `cN`, and no other temporary changes; beyond `2^32` it stops
(log 9). Last, on an idle engine a stored element comes back. -/
def Obligations.StoreElementThenLoad : Prop :=
  (∀ s es (a : Word) x, NextInput s .host es → s.halted = false → s.prog[s.hpc]? = some (.stc a x) →
      step s = step { s with
        events := .access (.memWrite a ((List.range 4).map (fun j => x.re.extractLsb' (8 * j) 8)
            ++ (List.range 4).map (fun j => x.im.extractLsb' (8 * j) 8))) :: es
        hpc := s.hpc + 1 })
    ∧ (∀ s es (a : Word) n, NextInput s .host es → s.halted = false → s.prog[s.hpc]? = some (.ldc a n) →
        (2 ^ 32 < a.toNat + 8 → step s = .fault .noSuchAddress)
          ∧ (a.toNat + 8 ≤ 2 ^ 32 →
              ∃ t u, step { s with events := .access (.memRead a 8) :: es, hpc := s.hpc + 1 } = .next t
                ∧ step s = .next u ∧ u = { t with c := u.c } ∧ (∀ k, k ≠ n → getC u k = getC s k)
                ∧ ∀ j, j < 4 → t.memData[j]? = some ((getC u n).re.extractLsb' (8 * j) 8)
                    ∧ t.memData[4 + j]? = some ((getC u n).im.extractLsb' (8 * j) 8)))
    ∧ ∀ s es (a : Word) x n, NextInput s .host (.host :: es) → s.busy = false → s.halted = false →
        s.prog[s.hpc]? = some (.stc a x) → s.prog[s.hpc + 1]? = some (.ldc a n) → a.toNat + 8 ≤ 2 ^ 32 →
        ∃ t u, step s = .next t ∧ step t = .next u ∧ getC u n = x ∧ u.hpc = s.hpc + 2 ∧ u.mem = t.mem
          ∧ (∀ j, j < 4 → Memory.read t.mem (a.toNat + j) = x.re.extractLsb' (8 * j) 8)
          ∧ (∀ j, j < 4 → Memory.read t.mem (a.toNat + 4 + j) = x.im.extractLsb' (8 * j) 8)
          ∧ ∀ b, b < a.toNat ∨ a.toNat + 8 ≤ b → Memory.read t.mem b = Memory.read s.mem b

/-- The host's control lines (`30_encoding.md` R89): labels and `fence` go to the next line, the branches go to their label or
fall through, `halt` ends the program; nothing else changes. Three clauses are the model's and not R89's: that the first of
several lines that define a label counts (log 13), that a branch to a label that no line defines goes to the end of the program
(log 13), and that `fence` changes nothing (log 17, deduced from R64 and R198). -/
def Obligations.HostControlLines : Prop :=
  ∀ s es line, NextInput s .host es → s.halted = false → s.prog[s.hpc]? = some line →
    (∀ l, line = .label l ∨ line = .fence → step s = .next { s with events := es, hpc := s.hpc + 1 })
      ∧ (∀ n m l j, line = .bnz n m l → s.prog[j]? = some (.label l) → (∀ i, i < j → s.prog[i]? ≠ some (.label l)) →
          step s = .next { s with events := es, hpc := if getH s n &&& m ≠ 0 then j else s.hpc + 1 })
      ∧ (∀ n m l j, line = .bz n m l → s.prog[j]? = some (.label l) → (∀ i, i < j → s.prog[i]? ≠ some (.label l)) →
          step s = .next { s with events := es, hpc := if getH s n &&& m = 0 then j else s.hpc + 1 })
      ∧ (∀ n m l, line = .bnz n m l → HostLine.label l ∉ s.prog →
          step s = .next { s with events := es, hpc := if getH s n &&& m ≠ 0 then s.prog.length else s.hpc + 1 })
      ∧ (∀ n m l, line = .bz n m l → HostLine.label l ∉ s.prog →
          step s = .next { s with events := es, hpc := if getH s n &&& m = 0 then s.prog.length else s.hpc + 1 })
      ∧ (line = .halt → step s = .next { s with events := es, halted := true })

/-- The host's register lines (`30_encoding.md` R89): `wr REG, v` is the 32-bit write of `v` at `CORE_BASE + offset(REG)`, made from
the next line; `rd REG -> hN` puts the word of `REG` into `hN` and changes no other temporary and no register. -/
def Obligations.HostRegisterLines : Prop :=
  ∀ s es, NextInput s .host es → s.halted = false →
    (∀ r v, s.prog[s.hpc]? = some (.wr r v) →
        step s = step { s with
          events := .access (.regWrite 0 (s.cfg.coreBase + regOffset r) 4 v) :: es, hpc := s.hpc + 1 })
      ∧ ∀ r n, MayAccess s 0 → s.prog[s.hpc]? = some (.rd r n) →
          ∃ t, step s = .next t
            ∧ t = { s with events := es, hpc := s.hpc + 1, regHost := some 0, regData := readReg r s, h := t.h }
            ∧ getH t n = readReg r s ∧ ∀ k, k ≠ n → getH t k = getH s k

/-- The pseudo-instructions that issue a command write its encoded word (`30_encoding.md` R90): their sums are the bitwise ORs of
R86. -/
def Obligations.PseudoInstructionWords : Prop :=
  ∀ k, k < 256 → pseudoR2c k = [.wr .cmd (encodeWord (.r2c k))] ∧ pseudoR2a k = [.wr .cmd (encodeWord (.r2a k))]
    ∧ pseudoR4 k = [.wr .cmd (encodeWord (.r4 k))] ∧ pseudoInit = [.wr .cmd (encodeWord .init)]

/-! ### Reset and interrupt (`70_reset_and_hazards.md` R190–R192, `60_exceptions.md` R177) -/

/-- The reset event (`70_reset_and_hazards.md` R190, R191): from every state that can take it the engine's registers become 0,
`desc` none and `pending` empty; the parameters, `mfaults` and the host are not changed; memory is not changed while idle,
and outside `DSTR` of an abandoned operation no byte changes, `SRCR` and `TWR` among them. -/
def Obligations.ResetEvent : Prop :=
  ∀ s es, MachineInv s → NextInput s .reset es →
    ∃ m n, step s = .next
        { s with
          events := es, cmd := 0, len := 0, src := 0, dst := 0, tw := 0, twlen := 0, ie := false, busy := false
          done := false, fault := false, drop := false, cause := 0, desc := none, pending := [], mem := m, draws := n }
      ∧ (s.busy = false → m = s.mem)
      ∧ ∀ d, s.desc = some d →
          (∀ a, d.dstR.has a = false → Memory.read m a = Memory.read s.mem a)
            ∧ (d.op ≠ .init → ∀ a, d.srcR.has a = true ∨ d.twR.has a = true →
                Memory.read m a = Memory.read s.mem a)

/-- The registers at power-on (`10_state.md` R46), and that an idle machine holds its state (`60_exceptions.md` R185): with no model
fault, an idle engine, nothing scheduled, and a host that has halted or has no line left, a step changes nothing (the model's
choice, log 14). The power-on state is such a state. -/
def Obligations.PowerOnState : Prop :=
  (let s := State.reset
   s.cmd = 0 ∧ s.len = 0 ∧ s.src = 0 ∧ s.dst = 0 ∧ s.tw = 0 ∧ s.twlen = 0 ∧ s.ie = false ∧ s.busy = false
     ∧ s.done = false ∧ s.fault = false ∧ s.drop = false ∧ s.cause = 0 ∧ s.desc = none ∧ s.pending = []
     ∧ s.mfaults = [] ∧ (capsWord s).toNat = s.cfg.log2NMax ∧ statusWord s = 0)
    ∧ (∀ s, modelStop s = none → s.busy = false → s.events = [] → (s.halted = true ∨ s.prog[s.hpc]? = none) →
        step s = .next s)
    ∧ step State.reset = .next State.reset

/-- The interrupt output (`60_exceptions.md` R177): it is asserted exactly while `IE` and (`DONE` or `FAULT`); completion and a
failed issue raise it under `IE`, `DROP` does not, and reset, clearing `IE`, clearing both `DONE` and `FAULT`, or the start of
an issue deassert it. -/
def Obligations.InterruptOutput : Prop :=
  (∀ s, irq s = true ↔ s.ie = true ∧ (s.done = true ∨ s.fault = true))
    ∧ (∀ s, irq (complete s) = s.ie) ∧ (∀ s c, irq (takeFault c s) = s.ie) ∧ (∀ s, irq (dropWrite s) = irq s)
    ∧ (∀ s, irq (resetEngine s) = false) ∧ (∀ s v, v.getLsbD 0 = false → irq (writeCtrl v s) = false)
    ∧ (∀ s v, v.getLsbD 1 = true → v.getLsbD 2 = true → irq (writeStatus v s) = false)
    ∧ ∀ s w, irq (beginIssue w s) = false

/-! ### The datapath (`40_complex64.md`) -/

/-- `fadd` and `fsub` of finite operands are correctly rounded, ties to even, and an exact zero result is `+0` but for
`(-0) + (-0)` and `(-0) - (+0)`, which are `-0` (`40_complex64.md` R101). Values are in units of `2^-149`. -/
def Obligations.AddSubCorrectlyRounded : Prop :=
  ∀ k x y, isFinite x = true → isFinite y = true →
    CorrectlyRounded 0 (f32Val x + f32Val y) (fadd k x y) ∧ CorrectlyRounded 0 (f32Val x - f32Val y) (fsub k x y)
      ∧ (f32Val x + f32Val y = 0 → fadd k x y = if x = 0x80000000 ∧ y = 0x80000000 then 0x80000000 else 0)
      ∧ (f32Val x - f32Val y = 0 → fsub k x y = if x = 0x80000000 ∧ y = 0 then 0x80000000 else 0)

/-- `fmul` of finite operands is correctly rounded, ties to even, and its sign is the XOR of the operand signs, for zero results
too (`40_complex64.md` R101). The exact product is in units of `2^-298`. -/
def Obligations.MulCorrectlyRounded : Prop :=
  ∀ k x y, isFinite x = true → isFinite y = true →
    CorrectlyRounded 149 (f32Val x * f32Val y) (fmul k x y)
      ∧ f32Sign (fmul k x y) = (f32Sign x != f32Sign y)

/-- Infinities and NaNs (`40_complex64.md` R101, R102): the invalid operations and the operations on a NaN give a quiet NaN, every
quiet NaN pattern is the result of some draw and nothing else is, and the other operations on infinities are exact. -/
def Obligations.SpecialValues : Prop :=
  (∀ k x y, isNaN x = true ∨ isNaN y = true →
      isQuietNaN (fadd k x y) = true ∧ isQuietNaN (fsub k x y) = true ∧ isQuietNaN (fmul k x y) = true)
    ∧ (∀ k x y, isInf x = true → isInf y = true → f32Sign x = f32Sign y →
        fadd k x y = x ∧ isQuietNaN (fsub k x y) = true)
    ∧ (∀ k x y, isInf x = true → isInf y = true → f32Sign x ≠ f32Sign y →
        fsub k x y = x ∧ isQuietNaN (fadd k x y) = true)
    ∧ (∀ k x y, isInf x = true → isFinite y = true →
        fadd k x y = x ∧ fadd k y x = x ∧ fsub k x y = x ∧ fsub k y x = fneg x)
    ∧ (∀ k x y, isInf x = true → isZero y = true →
        isQuietNaN (fmul k x y) = true ∧ isQuietNaN (fmul k y x) = true)
    ∧ (∀ k x y, isInf x = true → isNaN y = false → isZero y = false →
        isInf (fmul k x y) = true ∧ f32Sign (fmul k x y) = (f32Sign x != f32Sign y)
          ∧ fmul k y x = fmul k x y)
    ∧ (∀ d, isQuietNaN (quietNaN d) = true) ∧ ∀ z, isQuietNaN z = true → ∃ d, quietNaN d = z

/-- `fneg` inverts bit 31 and keeps bits 30:0 of every pattern, NaNs too (`40_complex64.md` R103); `crotni` copies `im` and negates
`re` (R110), and is not `cmul` by `(+0, -1)`: the corner cases of R110. -/
def Obligations.NegateAndRotate : Prop :=
  (∀ x : F32, (fneg x).getLsbD 31 = !x.getLsbD 31 ∧ ∀ j, j < 31 → (fneg x).getLsbD j = x.getLsbD j)
    ∧ (∀ x : C64, (crotni x).re = x.im ∧ (crotni x).im.getLsbD 31 = !x.re.getLsbD 31
        ∧ ∀ j, j < 31 → (crotni x).im.getLsbD j = x.re.getLsbD j)
    ∧ crotni ⟨0x00000000, 0x00000000⟩ = ⟨0x00000000, 0x80000000⟩
    ∧ crotni ⟨0x80000000, 0x00000000⟩ = ⟨0x00000000, 0x00000000⟩
    ∧ crotni ⟨0x3F800000, 0x40000000⟩ = ⟨0x40000000, 0xBF800000⟩
    ∧ crotni ⟨0x3F800000, 0x80000000⟩ = ⟨0x80000000, 0xBF800000⟩
    ∧ (∀ k, cmul k ⟨0x3F800000, 0x80000000⟩ ⟨0x00000000, 0xBF800000⟩ = ⟨0x00000000, 0xBF800000⟩)
    ∧ crotni ⟨0x7F800000, 0x3F800000⟩ = ⟨0x3F800000, 0xFF800000⟩
    ∧ ∀ k, isQuietNaN (cmul k ⟨0x7F800000, 0x3F800000⟩ ⟨0x00000000, 0xBF800000⟩).re = true
        ∧ (cmul k ⟨0x7F800000, 0x3F800000⟩ ⟨0x00000000, 0xBF800000⟩).im = 0xFF800000

/-- The fourteen vectors of `40_complex64.md` R112, for every draw. -/
def Obligations.DatapathVectors : Prop :=
  ∀ k,
    fadd k 0x3F800000 0x33800000 = 0x3F800000 ∧ fadd k 0x3F800000 0x34400000 = 0x3F800002
      ∧ fadd k 0x7F7FFFFF 0x7F7FFFFF = 0x7F800000 ∧ fmul k 0x1A000000 0x1A000000 = 0x00000000
      ∧ fmul k 0x1A400000 0x1A400000 = 0x00000001 ∧ fsub k 0x3F800000 0x3F800000 = 0x00000000
      ∧ fadd k 0x80000000 0x80000000 = 0x80000000 ∧ isQuietNaN (fsub k 0x7F800000 0x7F800000) = true
      ∧ cmul k ⟨0x3F80082C, 0x3F800B79⟩ ⟨0x3F8000ED, 0x3F800EE6⟩ = ⟨0xBA0A3800, 0x400011BC⟩
      ∧ cmul k ⟨0x80000000, 0x80000000⟩ ⟨0x3F800000, 0x00000000⟩ = ⟨0x00000000, 0x80000000⟩
      ∧ (cmul k ⟨0x7F800000, 0x00000000⟩ ⟨0x3F800000, 0x00000000⟩).re = 0x7F800000
      ∧ isQuietNaN (cmul k ⟨0x7F800000, 0x00000000⟩ ⟨0x3F800000, 0x00000000⟩).im = true
      ∧ crotni ⟨0x00000000, 0x00000000⟩ = ⟨0x00000000, 0x80000000⟩
      ∧ crotni ⟨0x7F800000, 0x3F800000⟩ = ⟨0x3F800000, 0xFF800000⟩
      ∧ crotni ⟨0x7FA00000, 0x7F800001⟩ = ⟨0x7F800001, 0xFFA00000⟩

/-! ### Invariants and whole-machine rules -/

/-- Every step keeps the invariant of the machine: `STATUS` consistent (`10_state.md` R25–R29), `desc` what the registers say and
admitted by the checks (R38, R39), `pending` a set of the operation's groups (R40), memory and the host's temporaries in
canonical form, the parameters in their ranges. -/
def Obligations.StepKeepsInv : Prop := ∀ s t, MachineInv s → step s = .next t → MachineInv t

/-- The power-on state satisfies the invariant. -/
def Obligations.ResetStateInv : Prop := MachineInv State.reset

/-- No step changes a parameter, so `CAPS` never changes (`10_state.md` R37), and no step removes an entry of `mfaults` (R44). -/
def Obligations.StepKeepsConfigAndLog : Prop :=
  ∀ s t, step s = .next t → t.cfg = s.cfg ∧ capsWord t = capsWord s ∧ ∃ l, t.mfaults = s.mfaults ++ l

/-- The only ways a `STATUS` field is set or cleared (`10_state.md` R25–R29, `60_exceptions.md` R175). In every state: `BUSY` rises only at an
accepted issue and falls only at completion or reset; `DONE` rises only at completion; `FAULT` rises only at a failed issue,
which is logged with the code in `CAUSE`; `DROP` rises only while busy. With the parameters in their ranges, by the event: `BUSY`
rises only at a host write of the command's word to `CMD`; `DONE` rises only at an engine step and is cleared only by a
write to `STATUS` with bit 1, an issue, or reset; `FAULT` rises only at a host write to `CMD` and is cleared only by a write to `STATUS`
with bit 2, an issue, or reset; `DROP` rises only at a host write to one of the six registers of R38 and is cleared only by a
write to `STATUS` with bit 3 or reset; `CAUSE` changes only at an issue, which leaves it 0 or `FAULT` set, at a write to `STATUS`
with bit 2, or at reset, which leave it 0. -/
def Obligations.StatusRisesOnlyAsRuled : Prop :=
  ∀ s t, step s = .next t →
    (s.busy = false → t.busy = true →
        ∃ i, t.desc = some (commandDesc i s) ∧ t.cmd = encodeWord i ∧ failingCheck s (commandDesc i s) = none
          ∧ t.mem = s.mem)
      ∧ (s.busy = true → t.busy = false → (∃ es, s.events = .reset :: es) ∨ s.pending = [] ∧ t.done = true)
      ∧ (s.done = false → t.done = true → s.busy = true ∧ s.pending = [] ∧ t.busy = false)
      ∧ (s.fault = false → t.fault = true → s.busy = false ∧ t.mfaults = s.mfaults ++ [.check t.cause])
      ∧ (s.drop = false → t.drop = true → s.busy = true)
      ∧ (s.cfg.wf →
          (s.busy = false → t.busy = true → WritesReg s .cmd t.cmd)
            ∧ (s.busy = true → t.busy = false → Resets s ∨ EngineMoves s)
            ∧ (s.done = false → t.done = true → EngineMoves s)
            ∧ (s.done = true → t.done = false →
                Resets s ∨ (s.busy = false ∧ WritesReg s .cmd t.cmd) ∨ ∃ v, WritesReg s .status v ∧ v.getLsbD 1 = true)
            ∧ (s.fault = false → t.fault = true → WritesReg s .cmd t.cmd)
            ∧ (s.fault = true → t.fault = false →
                Resets s ∨ (s.busy = false ∧ WritesReg s .cmd t.cmd) ∨ ∃ v, WritesReg s .status v ∧ v.getLsbD 2 = true)
            ∧ (s.drop = false → t.drop = true →
                ∃ r ∈ [Reg.cmd, .len, .src, .dst, .tw, .twlen], ∃ v, WritesReg s r v)
            ∧ (s.drop = true → t.drop = false → Resets s ∨ ∃ v, WritesReg s .status v ∧ v.getLsbD 3 = true)
            ∧ (t.cause ≠ s.cause →
                (Resets s ∧ t.cause = 0) ∨ (s.busy = false ∧ WritesReg s .cmd t.cmd ∧ (t.cause = 0 ∨ t.fault = true))
                  ∨ ∃ v, WritesReg s .status v ∧ v.getLsbD 2 = true ∧ t.cause = 0))

/-- While an operation runs no step of any agent changes a byte that it reads (`20_memory.md` R66, `70_reset_and_hazards.md` R201): not
the engine, not a host, not reset. The steps include the host write that is the model fault `HAZARD` (R197): that it stores
nothing is no rule's but the model's choice (log 7, unsafe), so of such a write this statement says nothing about hardware. -/
def Obligations.InputsStableWhileBusy : Prop :=
  ∀ s t d a, MachineInv s → s.busy = true → s.desc = some d → d.op ≠ .init → d.srcR.has a = true ∨ d.twR.has a = true →
    step s = .next t → Memory.read t.mem a = Memory.read s.mem a

/-- While the engine is idle only a host writes memory (`20_memory.md` R51, `70_reset_and_hazards.md` R192): a step that changes a byte
is a host memory write of that byte. -/
def Obligations.IdleMemoryChangedOnlyByHost : Prop :=
  ∀ s t a, s.busy = false → step s = .next t → Memory.read t.mem a ≠ Memory.read s.mem a →
    (∃ (b : Word) (bs : List Byte) (es : List Event), s.events = .access (.memWrite b bs) :: es ∧ b.toNat ≤ a
        ∧ a < b.toNat + bs.length)
      ∨ ∃ (b : Word) (x : C64), (s.events = [] ∨ ∃ es, s.events = .host :: es) ∧ s.halted = false
          ∧ s.prog[s.hpc]? = some (.stc b x) ∧ b.toNat ≤ a ∧ a < b.toNat + 8

/-- Memory stays in its canonical form under every step, from every canonical memory: equal memories stay equal data. -/
def Obligations.StepKeepsMemoryCanonical : Prop :=
  ∀ s t, Memory.wf s.mem → step s = .next t → Memory.wf t.mem
end

