-- ==== Sys2Proof/Laws/Decode.lean ====
section
/-! SUPPORT. The fields of a command word and the words of the commands, as numbers (`30_encoding.md` R80, R86). -/

namespace Sys2Proof

@[simp] theorem opField_toNat (w : Word) : (opField w).toNat = w.toNat % 2 ^ 4 := by
  simp [opField]

@[simp] theorem rsv0Field_toNat (w : Word) : (rsv0Field w).toNat = w.toNat / 2 ^ 4 % 2 ^ 4 := by
  simp [rsv0Field, Nat.shiftRight_eq_div_pow]

@[simp] theorem idxField_toNat (w : Word) : (idxField w).toNat = w.toNat / 2 ^ 8 % 2 ^ 8 := by
  simp [idxField, Nat.shiftRight_eq_div_pow]

@[simp] theorem rsv1Field_toNat (w : Word) : (rsv1Field w).toNat = w.toNat / 2 ^ 16 := by
  have := w.isLt
  simp only [rsv1Field, BitVec.extractLsb'_toNat, Nat.shiftRight_eq_div_pow]
  omega

/-- `(k << 8) | op` is `256 * k + op`. -/
theorem shift_or (k : Nat) {op : Nat} (h : op < 256) : (k <<< 8) ||| op = 256 * k + op := by
  rw [← Nat.shiftLeft_add_eq_or_of_lt h, Nat.shiftLeft_eq]
  omega

theorem encodeWord_r2c_toNat {k : Nat} (h : k < 256) : (encodeWord (.r2c k)).toNat = 256 * k + 1 := by
  simp only [encodeWord, BitVec.toNat_ofNat]
  rw [shift_or k (by omega)]
  omega

theorem encodeWord_r2a_toNat {k : Nat} (h : k < 256) : (encodeWord (.r2a k)).toNat = 256 * k + 2 := by
  simp only [encodeWord, BitVec.toNat_ofNat]
  rw [shift_or k (by omega)]
  omega

theorem encodeWord_r4_toNat {k : Nat} (h : k < 256) : (encodeWord (.r4 k)).toNat = 256 * k + 3 := by
  simp only [encodeWord, BitVec.toNat_ofNat]
  rw [shift_or k (by omega)]
  omega

theorem encodeWord_init_toNat : (encodeWord .init).toNat = 4 := rfl

/-- `legal(w)` in arithmetic on the word's number (`30_encoding.md` R85). -/
theorem legal_iff (w : Word) :
    legal w = true ↔ w.toNat / 2 ^ 16 = 0 ∧ w.toNat / 2 ^ 4 % 2 ^ 4 = 0
      ∧ (w.toNat % 2 ^ 4 = 1 ∨ w.toNat % 2 ^ 4 = 2 ∨ w.toNat % 2 ^ 4 = 3 ∨ w.toNat % 2 ^ 4 = 4)
      ∧ (w.toNat % 2 ^ 4 ≠ 4 ∨ w.toNat / 2 ^ 8 % 2 ^ 8 = 0) := by
  have e0 : rsv1Field w = 0 ↔ w.toNat / 2 ^ 16 = 0 := by rw [← BitVec.toNat_inj, rsv1Field_toNat]; rfl
  have e1 : rsv0Field w = 0 ↔ w.toNat / 2 ^ 4 % 2 ^ 4 = 0 := by rw [← BitVec.toNat_inj, rsv0Field_toNat]; rfl
  have e2 : idxField w = 0 ↔ w.toNat / 2 ^ 8 % 2 ^ 8 = 0 := by rw [← BitVec.toNat_inj, idxField_toNat]; rfl
  have op (k : BitVec 4) : opField w = k ↔ w.toNat % 2 ^ 4 = k.toNat := by rw [← BitVec.toNat_inj, opField_toNat]
  simp only [legal, Bool.and_eq_true, Bool.or_eq_true, beq_iff_eq, bne_iff_ne, ne_eq, e0, e1, e2, op]
  simp only [show (1 : BitVec 4).toNat = 1 from rfl, show (2 : BitVec 4).toNat = 2 from rfl,
    show (3 : BitVec 4).toNat = 3 from rfl, show (4 : BitVec 4).toNat = 4 from rfl]
  tauto

end Sys2Proof
end

