-- ==== Sys2Proof/Laws/Memory.lean ====
section
/-! SUPPORT. The laws of sparse maps and of system memory: what a read gives after a write, and that every operation keeps
the canonical form. -/

namespace Sys2Proof.Machine

section Sparse

variable {β : Type} [DecidableEq β] {d : β} {m : List (Nat × β)} {a b : Nat} {v : β}

omit [DecidableEq β] in
@[simp] theorem sparseGet_nil : sparseGet d [] a = d := rfl

omit [DecidableEq β] in
theorem sparseGet_filter_self : sparseGet d (m.filter fun c => c.1 ≠ a) a = d := by
  induction m with
  | nil => rfl
  | cons c m ih =>
    by_cases h : c.1 = a
    · simpa [List.filter_cons, h] using ih
    · simpa [List.filter_cons, h, sparseGet] using ih

omit [DecidableEq β] in
theorem sparseGet_filter_other (h : b ≠ a) : sparseGet d (m.filter fun c => c.1 ≠ a) b = sparseGet d m b := by
  induction m with
  | nil => rfl
  | cons c m ih =>
    by_cases hc : c.1 = a
    · have hb : c.1 ≠ b := by omega
      simpa [List.filter_cons, hc, sparseGet, show a ≠ b from Ne.symm h] using ih
    · by_cases hb : c.1 = b
      · simp [hb, sparseGet, h]
      · simpa [List.filter_cons, hc, sparseGet, hb] using ih

omit [DecidableEq β] in
theorem sparseGet_insert : sparseGet d (sparseInsert a v m) b = if b = a then v else sparseGet d m b := by
  induction m with
  | nil => simp [sparseInsert, sparseGet, eq_comm]
  | cons c m ih =>
    obtain ⟨k, w⟩ := c
    simp only [sparseInsert]
    split
    · simp [sparseGet, eq_comm]
    · split
      · subst k
        simp only [sparseGet]
        by_cases h : b = a
        · simp [h]
        · simp [h, Ne.symm h]
      · simp only [sparseGet, ih]
        by_cases h : k = b
        · have : b ≠ a := by omega
          simp [h, this]
        · simp [h]

/-- Reading after a write: the written value at the key, the old value everywhere else. -/
@[simp] theorem sparseGet_set : sparseGet d (sparseSet d m a v) b = if b = a then v else sparseGet d m b := by
  unfold sparseSet
  split
  · rename_i h
    by_cases hb : b = a
    · subst hb
      rw [if_pos rfl, sparseGet_filter_self, h]
    · rw [if_neg hb, sparseGet_filter_other hb]
  · exact sparseGet_insert

omit [DecidableEq β] in
theorem mem_sparseInsert {c : Nat × β} (h : c ∈ sparseInsert a v m) : c = (a, v) ∨ c ∈ m := by
  induction m with
  | nil => simpa [sparseInsert] using h
  | cons x m ih =>
    obtain ⟨k, w⟩ := x
    simp only [sparseInsert] at h
    split at h
    · simpa using h
    · split at h
      · rcases List.mem_cons.1 h with rfl | h
        · exact .inl rfl
        · exact .inr (List.mem_cons_of_mem _ h)
      · rcases List.mem_cons.1 h with rfl | h
        · exact .inr List.mem_cons_self
        · exact (ih h).imp_right (List.mem_cons_of_mem _)

/-- An entry after a write is the written one or an old one. -/
theorem mem_sparseSet {c : Nat × β} (h : c ∈ sparseSet d m a v) : c = (a, v) ∨ c ∈ m := by
  unfold sparseSet at h
  split at h
  · exact .inr (List.mem_of_mem_filter h)
  · exact mem_sparseInsert h

omit [DecidableEq β] in
theorem sparseInsert_sorted (h : m.Pairwise fun x y => x.1 < y.1) :
    (sparseInsert a v m).Pairwise fun x y => x.1 < y.1 := by
  induction m with
  | nil => simp [sparseInsert]
  | cons x m ih =>
    obtain ⟨k, w⟩ := x
    obtain ⟨hx, hm⟩ := List.pairwise_cons.1 h
    simp only [sparseInsert]
    split
    · rename_i hak
      refine List.pairwise_cons.2 ⟨fun y hy => ?_, h⟩
      rcases List.mem_cons.1 hy with rfl | hy
      · exact hak
      · exact Nat.lt_trans hak (hx y hy)
    · split
      · rename_i hak
        subst hak
        exact List.pairwise_cons.2 ⟨hx, hm⟩
      · rename_i h1 h2
        refine List.pairwise_cons.2 ⟨fun y hy => ?_, ih hm⟩
        rcases mem_sparseInsert hy with rfl | hy
        · show k < a
          omega
        · exact hx y hy

/-- A write keeps the canonical form. -/
theorem sparseSet_wf (h : sparseWf d m) : sparseWf d (sparseSet d m a v) := by
  obtain ⟨hs, hd⟩ := h
  unfold sparseSet
  split
  · exact ⟨hs.filter _, fun c hc => hd c (List.mem_of_mem_filter hc)⟩
  · rename_i hv
    refine ⟨sparseInsert_sorted hs, fun c hc => ?_⟩
    rcases mem_sparseInsert hc with rfl | hc
    · exact hv
    · exact hd c hc

omit [DecidableEq β] in
theorem sparseGet_of_lt (h : ∀ c ∈ m, a < c.1) : sparseGet d m a = d := by
  induction m with
  | nil => rfl
  | cons c m ih =>
    have := h c List.mem_cons_self
    simp only [sparseGet]
    rw [if_neg (by omega)]
    exact ih fun x hx => h x (List.mem_cons_of_mem _ hx)

omit [DecidableEq β] in
/-- Two canonical maps that read the same everywhere are the same data. -/
theorem sparse_ext {m' : List (Nat × β)} (h : sparseWf d m) (h' : sparseWf d m')
    (hr : ∀ a, sparseGet d m a = sparseGet d m' a) : m = m' := by
  induction m generalizing m' with
  | nil =>
    cases m' with
    | nil => rfl
    | cons c m' =>
      have := hr c.1
      simp only [sparseGet, if_true] at this
      exact absurd this.symm (h'.2 c List.mem_cons_self)
  | cons c m ih =>
    cases m' with
    | nil =>
      have := hr c.1
      simp only [sparseGet, if_true] at this
      exact absurd this (h.2 c List.mem_cons_self)
    | cons c' m' =>
      obtain ⟨k, w⟩ := c
      obtain ⟨k', w'⟩ := c'
      obtain ⟨⟨hk, hm⟩, hd⟩ := And.imp_left List.pairwise_cons.1 h
      obtain ⟨⟨hk', hm'⟩, hd'⟩ := And.imp_left List.pairwise_cons.1 h'
      have hkk : k = k' := by
        rcases Nat.lt_trichotomy k k' with hlt | heq | hlt
        · have h1 := hr k
          rw [sparseGet_of_lt (m := (k', w') :: m') (fun x hx => ?_)] at h1
          · simp only [sparseGet, if_true] at h1
            exact absurd h1 (hd (k, w) List.mem_cons_self)
          · rcases List.mem_cons.1 hx with rfl | hx
            · exact hlt
            · exact Nat.lt_trans hlt (hk' x hx)
        · exact heq
        · have h1 := hr k'
          rw [sparseGet_of_lt (m := (k, w) :: m) (fun x hx => ?_)] at h1
          · simp only [sparseGet, if_true] at h1
            exact absurd h1.symm (hd' (k', w') List.mem_cons_self)
          · rcases List.mem_cons.1 hx with rfl | hx
            · exact hlt
            · exact Nat.lt_trans hlt (hk x hx)
      subst hkk
      have hw : w = w' := by simpa [sparseGet] using hr k
      subst hw
      congr 1
      refine ih ⟨hm, fun c hc => hd c (List.mem_cons_of_mem _ hc)⟩
        ⟨hm', fun c hc => hd' c (List.mem_cons_of_mem _ hc)⟩ fun a => ?_
      by_cases ha : k = a
      · subst ha
        rw [sparseGet_of_lt (fun x hx => hk x hx), sparseGet_of_lt (fun x hx => hk' x hx)]
      · simpa [sparseGet, ha] using hr a

end Sparse

namespace Memory

variable {m : Memory} {a b : Nat}

/-- Reading a byte after a write. -/
@[simp] theorem read_write {x : Byte} : (m.write a x).read b = if b = a then x else m.read b := sparseGet_set

theorem write_wf {x : Byte} (h : m.wf) : (m.write a x).wf := sparseSet_wf h

/-- Reading a byte after a store of several. -/
theorem read_writeBytes (bs : List Byte) :
    (m.writeBytes a bs).read b = if a ≤ b ∧ b < a + bs.length then bs.getD (b - a) 0 else m.read b := by
  induction bs generalizing m a with
  | nil =>
    rw [if_neg (by simp)]
    rfl
  | cons x bs ih =>
    rw [writeBytes, ih, read_write]
    rcases Nat.lt_trichotomy b a with h | h | h
    · rw [if_neg (by omega), if_neg (by omega), if_neg (by omega)]
    · subst h
      rw [if_neg (by omega), if_pos rfl, if_pos (by simp), Nat.sub_self]
      rfl
    · obtain ⟨n, rfl⟩ : ∃ n, b = a + 1 + n := ⟨b - a - 1, by omega⟩
      by_cases hb : n < bs.length
      · rw [if_pos (by omega), if_pos (by simp; omega), show a + 1 + n - (a + 1) = n by omega,
          show a + 1 + n - a = n + 1 by omega]
        simp
      · rw [if_neg (by omega), if_neg (by omega), if_neg (by simp only [List.length_cons]; omega)]

/-- A byte outside the stored bytes reads as before. -/
theorem read_writeBytes_outside {bs : List Byte} (h : b < a ∨ a + bs.length ≤ b) :
    (m.writeBytes a bs).read b = m.read b := by
  rw [read_writeBytes, if_neg (by omega)]

theorem writeBytes_wf {bs : List Byte} (h : m.wf) : (m.writeBytes a bs).wf := by
  induction bs generalizing m a with
  | nil => exact h
  | cons x bs ih => exact ih (write_wf h)

/-- A store lists no address beyond the stored bytes and the old entries. -/
theorem mem_writeBytes {bs : List Byte} {c : Host.Cell} (h : c ∈ m.writeBytes a bs) :
    c ∈ m ∨ a ≤ c.1 ∧ c.1 < a + bs.length := by
  induction bs generalizing m a with
  | nil => exact .inl h
  | cons x bs ih =>
    rcases ih h with h | h
    · rcases mem_sparseSet h with rfl | h
      · exact .inr ⟨Nat.le_refl _, by simp⟩
      · exact .inl h
    · refine .inr ⟨by omega, ?_⟩
      simp only [List.length_cons]
      omega

@[simp] theorem length_readBytes {n : Nat} : (m.readBytes a n).length = n := by
  induction n generalizing a with
  | zero => rfl
  | succ n ih => simp [readBytes, ih]

/-- Reads of the same bytes agree. -/
theorem readBytes_congr {m' : Memory} {n : Nat} (h : ∀ b, a ≤ b → b < a + n → m.read b = m'.read b) :
    m.readBytes a n = m'.readBytes a n := by
  induction n generalizing a with
  | zero => rfl
  | succ n ih =>
    simp only [readBytes]
    rw [h a (Nat.le_refl _) (by omega), ih fun b h1 h2 => h b (by omega) (by omega)]

/-- Reading back exactly the stored bytes. -/
theorem readBytes_writeBytes (bs : List Byte) : (m.writeBytes a bs).readBytes a bs.length = bs := by
  induction bs generalizing m a with
  | nil => rfl
  | cons x bs ih =>
    simp only [List.length_cons, readBytes, writeBytes, ih]
    rw [read_writeBytes_outside (.inl (by omega)), read_write, if_pos rfl]

end Memory

@[simp] theorem length_bytesOfNat {n v : Nat} : (bytesOfNat n v).length = n := by
  induction n generalizing v with
  | zero => rfl
  | succ n ih => simp [bytesOfNat, ih]

/-- Storing a number in `n` bytes keeps its low `n` bytes (`20_memory.md` R53). -/
theorem natOfBytes_bytesOfNat {n v : Nat} : natOfBytes (bytesOfNat n v) = v % 256 ^ n := by
  induction n generalizing v with
  | zero => simp [bytesOfNat, natOfBytes, Nat.mod_one]
  | succ n ih =>
    simp only [bytesOfNat, natOfBytes, ih, BitVec.toNat_ofNat]
    rw [show 256 ^ (n + 1) = 256 * 256 ^ n by ring, Nat.mod_mul]

/-- `MemRead` after `MemWrite` at the same place (`20_memory.md` R53). -/
theorem memRead_memWrite {m : Memory} {a n v : Nat} : memRead (memWrite m a n v) a n = v % 256 ^ n := by
  unfold memRead memWrite
  have := Memory.readBytes_writeBytes (m := m) (a := a) (bytesOfNat n v)
  rw [length_bytesOfNat] at this
  rw [this, natOfBytes_bytesOfNat]

/-- A byte outside a `MemWrite` reads as before. -/
theorem read_memWrite_outside {m : Memory} {a b n v : Nat} (h : b < a ∨ a + n ≤ b) :
    (memWrite m a n v).read b = m.read b :=
  Memory.read_writeBytes_outside (by simpa using h)

theorem memWrite_wf {m : Memory} {a n v : Nat} (h : m.wf) : (memWrite m a n v).wf := Memory.writeBytes_wf h

/-- `MemRead` depends on the read bytes only. -/
theorem memRead_congr {m m' : Memory} {a n : Nat} (h : ∀ b, a ≤ b → b < a + n → m.read b = m'.read b) :
    memRead m a n = memRead m' a n := by
  unfold memRead
  rw [Memory.readBytes_congr h]

/-- An element is recovered from its 64 bits (`00_scope.md` R11). -/
@[simp] theorem c64OfNat_c64ToNat {x : C64} : c64OfNat (c64ToNat x) = x := by
  obtain ⟨re, im⟩ := x
  simp only [c64OfNat, c64ToNat, BitVec.ofNat_toNat, BitVec.setWidth_eq, C64.mk.injEq]
  constructor
  · exact BitVec.extractLsb'_append_eq_right
  · exact BitVec.extractLsb'_append_eq_left

theorem c64ToNat_lt {x : C64} : c64ToNat x < 256 ^ 8 := (x.im ++ x.re).isLt

/-- Reading the element just stored. -/
@[simp] theorem ldC_stC {m : Memory} {base : Word} {k : Nat} {x : C64} : ldC (stC m base k x) base k = x := by
  unfold ldC stC
  rw [memRead_memWrite, Nat.mod_eq_of_lt c64ToNat_lt, c64OfNat_c64ToNat]

/-- A byte outside the stored element reads as before. -/
theorem read_stC_outside {m : Memory} {base : Word} {k b : Nat} {x : C64}
    (h : b < elemAddr base k ∨ elemAddr base k + 8 ≤ b) : (stC m base k x).read b = m.read b :=
  read_memWrite_outside h

/-- An element read depends on its eight bytes only. -/
theorem ldC_congr {m m' : Memory} {base : Word} {k : Nat}
    (h : ∀ b, elemAddr base k ≤ b → b < elemAddr base k + 8 → m.read b = m'.read b) : ldC m base k = ldC m' base k := by
  unfold ldC
  rw [memRead_congr h]

/-- An element at another place of the same buffer reads as before. -/
theorem ldC_stC_ne {m : Memory} {base : Word} {j k : Nat} {x : C64} (h : j ≠ k) :
    ldC (stC m base k x) base j = ldC m base j :=
  ldC_congr fun b h1 h2 => read_stC_outside (by simp only [elemAddr] at *; omega)

/-- An element of another buffer, apart from the stored one, reads as before. -/
theorem ldC_stC_apart {m : Memory} {base base' : Word} {j k : Nat} {x : C64}
    (h : elemAddr base' j + 8 ≤ elemAddr base k ∨ elemAddr base k + 8 ≤ elemAddr base' j) :
    ldC (stC m base k x) base' j = ldC m base' j :=
  ldC_congr fun b h1 h2 => read_stC_outside (by omega)

theorem stC_wf {m : Memory} {base : Word} {k : Nat} {x : C64} (h : m.wf) : (stC m base k x).wf := memWrite_wf h

/-- A store lists no address beyond its eight bytes and the old entries. -/
theorem mem_stC {m : Memory} {base : Word} {k : Nat} {x : C64} {c : Host.Cell} (h : c ∈ stC m base k x) :
    c ∈ m ∨ elemAddr base k ≤ c.1 ∧ c.1 < elemAddr base k + 8 := by
  simpa using Memory.mem_writeBytes h

/-- The bytes of a region (`20_memory.md` R55). -/
theorem Region.has_iff {r : Region} {a : Nat} : r.has a = true ↔ r.1 ≤ a ∧ a < r.1 + 8 * r.2 := by
  simp [Region.has]

theorem Region.has_eq_false {r : Region} {a : Nat} : r.has a = false ↔ a < r.1 ∨ r.1 + 8 * r.2 ≤ a := by
  rw [← Bool.not_eq_true, Region.has_iff]
  omega

/-- Two byte ranges meet exactly when they share a byte. -/
theorem bytesMeet_iff {a n b m : Nat} :
    bytesMeet a n b m = true ↔ ∃ x, (a ≤ x ∧ x < a + n) ∧ b ≤ x ∧ x < b + m := by
  simp only [bytesMeet, Bool.and_eq_true, bne_iff_ne, decide_eq_true_eq]
  constructor
  · rintro ⟨⟨⟨h1, h2⟩, h3⟩, h4⟩
    exact ⟨max a b, by omega⟩
  · rintro ⟨x, h⟩
    omega

/-- Two regions overlap exactly when they share a byte (`20_memory.md` R55). -/
theorem Region.overlaps_iff {r q : Region} : r.overlaps q = true ↔ ∃ a, r.has a = true ∧ q.has a = true := by
  simp only [Region.overlaps, bytesMeet_iff, Region.has_iff]

theorem allBytes_iff {p : Nat → Bool} {a n : Nat} :
    allBytes p a n = true ↔ ∀ b, a ≤ b → b < a + n → p b = true := by
  induction n generalizing a with
  | zero =>
    simp only [allBytes, true_iff]
    intro b h1 h2
    omega
  | succ n ih =>
    simp only [allBytes, Bool.and_eq_true, ih]
    constructor
    · rintro ⟨h0, h⟩ b h1 h2
      by_cases hb : b = a
      · exact hb ▸ h0
      · exact h b (by omega) (by omega)
    · exact fun h => ⟨h a (Nat.le_refl _) (by omega), fun b h1 h2 => h b (by omega) (by omega)⟩

end Sys2Proof.Machine
end

