-- ==== Sys2Proof/Laws/State.lean ====
section
/-! SUPPORT. One lemma per field per update of the state, so that no later proof unfolds a record update. -/

namespace Sys2Proof.Machine

variable (s : State)

@[simp] theorem logFault_cfg (f : MFault) : (logFault f s).cfg = s.cfg := rfl
@[simp] theorem logFault_cmd (f : MFault) : (logFault f s).cmd = s.cmd := rfl
@[simp] theorem logFault_len (f : MFault) : (logFault f s).len = s.len := rfl
@[simp] theorem logFault_src (f : MFault) : (logFault f s).src = s.src := rfl
@[simp] theorem logFault_dst (f : MFault) : (logFault f s).dst = s.dst := rfl
@[simp] theorem logFault_tw (f : MFault) : (logFault f s).tw = s.tw := rfl
@[simp] theorem logFault_twlen (f : MFault) : (logFault f s).twlen = s.twlen := rfl
@[simp] theorem logFault_ie (f : MFault) : (logFault f s).ie = s.ie := rfl
@[simp] theorem logFault_busy (f : MFault) : (logFault f s).busy = s.busy := rfl
@[simp] theorem logFault_done (f : MFault) : (logFault f s).done = s.done := rfl
@[simp] theorem logFault_fault (f : MFault) : (logFault f s).fault = s.fault := rfl
@[simp] theorem logFault_drop (f : MFault) : (logFault f s).drop = s.drop := rfl
@[simp] theorem logFault_cause (f : MFault) : (logFault f s).cause = s.cause := rfl
@[simp] theorem logFault_desc (f : MFault) : (logFault f s).desc = s.desc := rfl
@[simp] theorem logFault_pending (f : MFault) : (logFault f s).pending = s.pending := rfl
@[simp] theorem logFault_mem (f : MFault) : (logFault f s).mem = s.mem := rfl
@[simp] theorem logFault_mfaults (f : MFault) : (logFault f s).mfaults = s.mfaults ++ [f] := rfl
@[simp] theorem logFault_prog (f : MFault) : (logFault f s).prog = s.prog := rfl
@[simp] theorem logFault_hpc (f : MFault) : (logFault f s).hpc = s.hpc := rfl
@[simp] theorem logFault_halted (f : MFault) : (logFault f s).halted = s.halted := rfl
@[simp] theorem logFault_h (f : MFault) : (logFault f s).h = s.h := rfl
@[simp] theorem logFault_c (f : MFault) : (logFault f s).c = s.c := rfl
@[simp] theorem logFault_regHost (f : MFault) : (logFault f s).regHost = s.regHost := rfl
@[simp] theorem logFault_regData (f : MFault) : (logFault f s).regData = s.regData := rfl
@[simp] theorem logFault_memData (f : MFault) : (logFault f s).memData = s.memData := rfl
@[simp] theorem logFault_events (f : MFault) : (logFault f s).events = s.events := rfl
@[simp] theorem logFault_draws (f : MFault) : (logFault f s).draws = s.draws := rfl

@[simp] theorem takeFault_cfg (c : Check) : (takeFault c s).cfg = s.cfg := rfl
@[simp] theorem takeFault_cmd (c : Check) : (takeFault c s).cmd = s.cmd := rfl
@[simp] theorem takeFault_len (c : Check) : (takeFault c s).len = s.len := rfl
@[simp] theorem takeFault_src (c : Check) : (takeFault c s).src = s.src := rfl
@[simp] theorem takeFault_dst (c : Check) : (takeFault c s).dst = s.dst := rfl
@[simp] theorem takeFault_tw (c : Check) : (takeFault c s).tw = s.tw := rfl
@[simp] theorem takeFault_twlen (c : Check) : (takeFault c s).twlen = s.twlen := rfl
@[simp] theorem takeFault_ie (c : Check) : (takeFault c s).ie = s.ie := rfl
@[simp] theorem takeFault_busy (c : Check) : (takeFault c s).busy = s.busy := rfl
@[simp] theorem takeFault_done (c : Check) : (takeFault c s).done = s.done := rfl
@[simp] theorem takeFault_fault (c : Check) : (takeFault c s).fault = true := rfl
@[simp] theorem takeFault_drop (c : Check) : (takeFault c s).drop = s.drop := rfl
@[simp] theorem takeFault_cause (c : Check) : (takeFault c s).cause = c.code := rfl
@[simp] theorem takeFault_desc (c : Check) : (takeFault c s).desc = s.desc := rfl
@[simp] theorem takeFault_pending (c : Check) : (takeFault c s).pending = s.pending := rfl
@[simp] theorem takeFault_mem (c : Check) : (takeFault c s).mem = s.mem := rfl
@[simp] theorem takeFault_mfaults (c : Check) : (takeFault c s).mfaults = s.mfaults ++ [.check c.code] := rfl
@[simp] theorem takeFault_prog (c : Check) : (takeFault c s).prog = s.prog := rfl
@[simp] theorem takeFault_hpc (c : Check) : (takeFault c s).hpc = s.hpc := rfl
@[simp] theorem takeFault_halted (c : Check) : (takeFault c s).halted = s.halted := rfl
@[simp] theorem takeFault_h (c : Check) : (takeFault c s).h = s.h := rfl
@[simp] theorem takeFault_c (c : Check) : (takeFault c s).c = s.c := rfl
@[simp] theorem takeFault_regHost (c : Check) : (takeFault c s).regHost = s.regHost := rfl
@[simp] theorem takeFault_regData (c : Check) : (takeFault c s).regData = s.regData := rfl
@[simp] theorem takeFault_memData (c : Check) : (takeFault c s).memData = s.memData := rfl
@[simp] theorem takeFault_events (c : Check) : (takeFault c s).events = s.events := rfl
@[simp] theorem takeFault_draws (c : Check) : (takeFault c s).draws = s.draws := rfl

@[simp] theorem clearFault_cfg : (clearFault s).cfg = s.cfg := rfl
@[simp] theorem clearFault_cmd : (clearFault s).cmd = s.cmd := rfl
@[simp] theorem clearFault_len : (clearFault s).len = s.len := rfl
@[simp] theorem clearFault_src : (clearFault s).src = s.src := rfl
@[simp] theorem clearFault_dst : (clearFault s).dst = s.dst := rfl
@[simp] theorem clearFault_tw : (clearFault s).tw = s.tw := rfl
@[simp] theorem clearFault_twlen : (clearFault s).twlen = s.twlen := rfl
@[simp] theorem clearFault_ie : (clearFault s).ie = s.ie := rfl
@[simp] theorem clearFault_busy : (clearFault s).busy = s.busy := rfl
@[simp] theorem clearFault_done : (clearFault s).done = s.done := rfl
@[simp] theorem clearFault_fault : (clearFault s).fault = false := rfl
@[simp] theorem clearFault_drop : (clearFault s).drop = s.drop := rfl
@[simp] theorem clearFault_cause : (clearFault s).cause = 0 := rfl
@[simp] theorem clearFault_desc : (clearFault s).desc = s.desc := rfl
@[simp] theorem clearFault_pending : (clearFault s).pending = s.pending := rfl
@[simp] theorem clearFault_mem : (clearFault s).mem = s.mem := rfl
@[simp] theorem clearFault_mfaults : (clearFault s).mfaults = s.mfaults := rfl
@[simp] theorem clearFault_prog : (clearFault s).prog = s.prog := rfl
@[simp] theorem clearFault_hpc : (clearFault s).hpc = s.hpc := rfl
@[simp] theorem clearFault_halted : (clearFault s).halted = s.halted := rfl
@[simp] theorem clearFault_h : (clearFault s).h = s.h := rfl
@[simp] theorem clearFault_c : (clearFault s).c = s.c := rfl
@[simp] theorem clearFault_regHost : (clearFault s).regHost = s.regHost := rfl
@[simp] theorem clearFault_regData : (clearFault s).regData = s.regData := rfl
@[simp] theorem clearFault_memData : (clearFault s).memData = s.memData := rfl
@[simp] theorem clearFault_events : (clearFault s).events = s.events := rfl
@[simp] theorem clearFault_draws : (clearFault s).draws = s.draws := rfl

@[simp] theorem dropWrite_cfg : (dropWrite s).cfg = s.cfg := rfl
@[simp] theorem dropWrite_cmd : (dropWrite s).cmd = s.cmd := rfl
@[simp] theorem dropWrite_len : (dropWrite s).len = s.len := rfl
@[simp] theorem dropWrite_src : (dropWrite s).src = s.src := rfl
@[simp] theorem dropWrite_dst : (dropWrite s).dst = s.dst := rfl
@[simp] theorem dropWrite_tw : (dropWrite s).tw = s.tw := rfl
@[simp] theorem dropWrite_twlen : (dropWrite s).twlen = s.twlen := rfl
@[simp] theorem dropWrite_ie : (dropWrite s).ie = s.ie := rfl
@[simp] theorem dropWrite_busy : (dropWrite s).busy = s.busy := rfl
@[simp] theorem dropWrite_done : (dropWrite s).done = s.done := rfl
@[simp] theorem dropWrite_fault : (dropWrite s).fault = s.fault := rfl
@[simp] theorem dropWrite_drop : (dropWrite s).drop = true := rfl
@[simp] theorem dropWrite_cause : (dropWrite s).cause = s.cause := rfl
@[simp] theorem dropWrite_desc : (dropWrite s).desc = s.desc := rfl
@[simp] theorem dropWrite_pending : (dropWrite s).pending = s.pending := rfl
@[simp] theorem dropWrite_mem : (dropWrite s).mem = s.mem := rfl
@[simp] theorem dropWrite_mfaults : (dropWrite s).mfaults = s.mfaults := rfl
@[simp] theorem dropWrite_prog : (dropWrite s).prog = s.prog := rfl
@[simp] theorem dropWrite_hpc : (dropWrite s).hpc = s.hpc := rfl
@[simp] theorem dropWrite_halted : (dropWrite s).halted = s.halted := rfl
@[simp] theorem dropWrite_h : (dropWrite s).h = s.h := rfl
@[simp] theorem dropWrite_c : (dropWrite s).c = s.c := rfl
@[simp] theorem dropWrite_regHost : (dropWrite s).regHost = s.regHost := rfl
@[simp] theorem dropWrite_regData : (dropWrite s).regData = s.regData := rfl
@[simp] theorem dropWrite_memData : (dropWrite s).memData = s.memData := rfl
@[simp] theorem dropWrite_events : (dropWrite s).events = s.events := rfl
@[simp] theorem dropWrite_draws : (dropWrite s).draws = s.draws := rfl

@[simp] theorem writeCtrl_cfg (v : Word) : (writeCtrl v s).cfg = s.cfg := rfl
@[simp] theorem writeCtrl_cmd (v : Word) : (writeCtrl v s).cmd = s.cmd := rfl
@[simp] theorem writeCtrl_len (v : Word) : (writeCtrl v s).len = s.len := rfl
@[simp] theorem writeCtrl_src (v : Word) : (writeCtrl v s).src = s.src := rfl
@[simp] theorem writeCtrl_dst (v : Word) : (writeCtrl v s).dst = s.dst := rfl
@[simp] theorem writeCtrl_tw (v : Word) : (writeCtrl v s).tw = s.tw := rfl
@[simp] theorem writeCtrl_twlen (v : Word) : (writeCtrl v s).twlen = s.twlen := rfl
@[simp] theorem writeCtrl_ie (v : Word) : (writeCtrl v s).ie = v.getLsbD 0 := rfl
@[simp] theorem writeCtrl_busy (v : Word) : (writeCtrl v s).busy = s.busy := rfl
@[simp] theorem writeCtrl_done (v : Word) : (writeCtrl v s).done = s.done := rfl
@[simp] theorem writeCtrl_fault (v : Word) : (writeCtrl v s).fault = s.fault := rfl
@[simp] theorem writeCtrl_drop (v : Word) : (writeCtrl v s).drop = s.drop := rfl
@[simp] theorem writeCtrl_cause (v : Word) : (writeCtrl v s).cause = s.cause := rfl
@[simp] theorem writeCtrl_desc (v : Word) : (writeCtrl v s).desc = s.desc := rfl
@[simp] theorem writeCtrl_pending (v : Word) : (writeCtrl v s).pending = s.pending := rfl
@[simp] theorem writeCtrl_mem (v : Word) : (writeCtrl v s).mem = s.mem := rfl
@[simp] theorem writeCtrl_mfaults (v : Word) : (writeCtrl v s).mfaults = s.mfaults := rfl
@[simp] theorem writeCtrl_prog (v : Word) : (writeCtrl v s).prog = s.prog := rfl
@[simp] theorem writeCtrl_hpc (v : Word) : (writeCtrl v s).hpc = s.hpc := rfl
@[simp] theorem writeCtrl_halted (v : Word) : (writeCtrl v s).halted = s.halted := rfl
@[simp] theorem writeCtrl_h (v : Word) : (writeCtrl v s).h = s.h := rfl
@[simp] theorem writeCtrl_c (v : Word) : (writeCtrl v s).c = s.c := rfl
@[simp] theorem writeCtrl_regHost (v : Word) : (writeCtrl v s).regHost = s.regHost := rfl
@[simp] theorem writeCtrl_regData (v : Word) : (writeCtrl v s).regData = s.regData := rfl
@[simp] theorem writeCtrl_memData (v : Word) : (writeCtrl v s).memData = s.memData := rfl
@[simp] theorem writeCtrl_events (v : Word) : (writeCtrl v s).events = s.events := rfl
@[simp] theorem writeCtrl_draws (v : Word) : (writeCtrl v s).draws = s.draws := rfl

@[simp] theorem beginIssue_cfg (w : Word) : (beginIssue w s).cfg = s.cfg := rfl
@[simp] theorem beginIssue_cmd (w : Word) : (beginIssue w s).cmd = w := rfl
@[simp] theorem beginIssue_len (w : Word) : (beginIssue w s).len = s.len := rfl
@[simp] theorem beginIssue_src (w : Word) : (beginIssue w s).src = s.src := rfl
@[simp] theorem beginIssue_dst (w : Word) : (beginIssue w s).dst = s.dst := rfl
@[simp] theorem beginIssue_tw (w : Word) : (beginIssue w s).tw = s.tw := rfl
@[simp] theorem beginIssue_twlen (w : Word) : (beginIssue w s).twlen = s.twlen := rfl
@[simp] theorem beginIssue_ie (w : Word) : (beginIssue w s).ie = s.ie := rfl
@[simp] theorem beginIssue_busy (w : Word) : (beginIssue w s).busy = s.busy := rfl
@[simp] theorem beginIssue_done (w : Word) : (beginIssue w s).done = false := rfl
@[simp] theorem beginIssue_fault (w : Word) : (beginIssue w s).fault = false := rfl
@[simp] theorem beginIssue_drop (w : Word) : (beginIssue w s).drop = s.drop := rfl
@[simp] theorem beginIssue_cause (w : Word) : (beginIssue w s).cause = 0 := rfl
@[simp] theorem beginIssue_desc (w : Word) : (beginIssue w s).desc = s.desc := rfl
@[simp] theorem beginIssue_pending (w : Word) : (beginIssue w s).pending = s.pending := rfl
@[simp] theorem beginIssue_mem (w : Word) : (beginIssue w s).mem = s.mem := rfl
@[simp] theorem beginIssue_mfaults (w : Word) : (beginIssue w s).mfaults = s.mfaults := rfl
@[simp] theorem beginIssue_prog (w : Word) : (beginIssue w s).prog = s.prog := rfl
@[simp] theorem beginIssue_hpc (w : Word) : (beginIssue w s).hpc = s.hpc := rfl
@[simp] theorem beginIssue_halted (w : Word) : (beginIssue w s).halted = s.halted := rfl
@[simp] theorem beginIssue_h (w : Word) : (beginIssue w s).h = s.h := rfl
@[simp] theorem beginIssue_c (w : Word) : (beginIssue w s).c = s.c := rfl
@[simp] theorem beginIssue_regHost (w : Word) : (beginIssue w s).regHost = s.regHost := rfl
@[simp] theorem beginIssue_regData (w : Word) : (beginIssue w s).regData = s.regData := rfl
@[simp] theorem beginIssue_memData (w : Word) : (beginIssue w s).memData = s.memData := rfl
@[simp] theorem beginIssue_events (w : Word) : (beginIssue w s).events = s.events := rfl
@[simp] theorem beginIssue_draws (w : Word) : (beginIssue w s).draws = s.draws := rfl

@[simp] theorem accept_cfg (d : Desc) (gs : List Group) : (accept d gs s).cfg = s.cfg := rfl
@[simp] theorem accept_cmd (d : Desc) (gs : List Group) : (accept d gs s).cmd = s.cmd := rfl
@[simp] theorem accept_len (d : Desc) (gs : List Group) : (accept d gs s).len = s.len := rfl
@[simp] theorem accept_src (d : Desc) (gs : List Group) : (accept d gs s).src = s.src := rfl
@[simp] theorem accept_dst (d : Desc) (gs : List Group) : (accept d gs s).dst = s.dst := rfl
@[simp] theorem accept_tw (d : Desc) (gs : List Group) : (accept d gs s).tw = s.tw := rfl
@[simp] theorem accept_twlen (d : Desc) (gs : List Group) : (accept d gs s).twlen = s.twlen := rfl
@[simp] theorem accept_ie (d : Desc) (gs : List Group) : (accept d gs s).ie = s.ie := rfl
@[simp] theorem accept_busy (d : Desc) (gs : List Group) : (accept d gs s).busy = true := rfl
@[simp] theorem accept_done (d : Desc) (gs : List Group) : (accept d gs s).done = s.done := rfl
@[simp] theorem accept_fault (d : Desc) (gs : List Group) : (accept d gs s).fault = s.fault := rfl
@[simp] theorem accept_drop (d : Desc) (gs : List Group) : (accept d gs s).drop = s.drop := rfl
@[simp] theorem accept_cause (d : Desc) (gs : List Group) : (accept d gs s).cause = s.cause := rfl
@[simp] theorem accept_desc (d : Desc) (gs : List Group) : (accept d gs s).desc = some d := rfl
@[simp] theorem accept_pending (d : Desc) (gs : List Group) : (accept d gs s).pending = gs := rfl
@[simp] theorem accept_mem (d : Desc) (gs : List Group) : (accept d gs s).mem = s.mem := rfl
@[simp] theorem accept_mfaults (d : Desc) (gs : List Group) : (accept d gs s).mfaults = s.mfaults := rfl
@[simp] theorem accept_prog (d : Desc) (gs : List Group) : (accept d gs s).prog = s.prog := rfl
@[simp] theorem accept_hpc (d : Desc) (gs : List Group) : (accept d gs s).hpc = s.hpc := rfl
@[simp] theorem accept_halted (d : Desc) (gs : List Group) : (accept d gs s).halted = s.halted := rfl
@[simp] theorem accept_h (d : Desc) (gs : List Group) : (accept d gs s).h = s.h := rfl
@[simp] theorem accept_c (d : Desc) (gs : List Group) : (accept d gs s).c = s.c := rfl
@[simp] theorem accept_regHost (d : Desc) (gs : List Group) : (accept d gs s).regHost = s.regHost := rfl
@[simp] theorem accept_regData (d : Desc) (gs : List Group) : (accept d gs s).regData = s.regData := rfl
@[simp] theorem accept_memData (d : Desc) (gs : List Group) : (accept d gs s).memData = s.memData := rfl
@[simp] theorem accept_events (d : Desc) (gs : List Group) : (accept d gs s).events = s.events := rfl
@[simp] theorem accept_draws (d : Desc) (gs : List Group) : (accept d gs s).draws = s.draws := rfl

@[simp] theorem complete_cfg : (complete s).cfg = s.cfg := rfl
@[simp] theorem complete_cmd : (complete s).cmd = s.cmd := rfl
@[simp] theorem complete_len : (complete s).len = s.len := rfl
@[simp] theorem complete_src : (complete s).src = s.src := rfl
@[simp] theorem complete_dst : (complete s).dst = s.dst := rfl
@[simp] theorem complete_tw : (complete s).tw = s.tw := rfl
@[simp] theorem complete_twlen : (complete s).twlen = s.twlen := rfl
@[simp] theorem complete_ie : (complete s).ie = s.ie := rfl
@[simp] theorem complete_busy : (complete s).busy = false := rfl
@[simp] theorem complete_done : (complete s).done = true := rfl
@[simp] theorem complete_fault : (complete s).fault = s.fault := rfl
@[simp] theorem complete_drop : (complete s).drop = s.drop := rfl
@[simp] theorem complete_cause : (complete s).cause = s.cause := rfl
@[simp] theorem complete_desc : (complete s).desc = none := rfl
@[simp] theorem complete_pending : (complete s).pending = s.pending := rfl
@[simp] theorem complete_mem : (complete s).mem = s.mem := rfl
@[simp] theorem complete_mfaults : (complete s).mfaults = s.mfaults := rfl
@[simp] theorem complete_prog : (complete s).prog = s.prog := rfl
@[simp] theorem complete_hpc : (complete s).hpc = s.hpc := rfl
@[simp] theorem complete_halted : (complete s).halted = s.halted := rfl
@[simp] theorem complete_h : (complete s).h = s.h := rfl
@[simp] theorem complete_c : (complete s).c = s.c := rfl
@[simp] theorem complete_regHost : (complete s).regHost = s.regHost := rfl
@[simp] theorem complete_regData : (complete s).regData = s.regData := rfl
@[simp] theorem complete_memData : (complete s).memData = s.memData := rfl
@[simp] theorem complete_events : (complete s).events = s.events := rfl
@[simp] theorem complete_draws : (complete s).draws = s.draws := rfl

@[simp] theorem setH_cfg (n : Nat) (w : Word) : (setH n w s).cfg = s.cfg := rfl
@[simp] theorem setH_cmd (n : Nat) (w : Word) : (setH n w s).cmd = s.cmd := rfl
@[simp] theorem setH_len (n : Nat) (w : Word) : (setH n w s).len = s.len := rfl
@[simp] theorem setH_src (n : Nat) (w : Word) : (setH n w s).src = s.src := rfl
@[simp] theorem setH_dst (n : Nat) (w : Word) : (setH n w s).dst = s.dst := rfl
@[simp] theorem setH_tw (n : Nat) (w : Word) : (setH n w s).tw = s.tw := rfl
@[simp] theorem setH_twlen (n : Nat) (w : Word) : (setH n w s).twlen = s.twlen := rfl
@[simp] theorem setH_ie (n : Nat) (w : Word) : (setH n w s).ie = s.ie := rfl
@[simp] theorem setH_busy (n : Nat) (w : Word) : (setH n w s).busy = s.busy := rfl
@[simp] theorem setH_done (n : Nat) (w : Word) : (setH n w s).done = s.done := rfl
@[simp] theorem setH_fault (n : Nat) (w : Word) : (setH n w s).fault = s.fault := rfl
@[simp] theorem setH_drop (n : Nat) (w : Word) : (setH n w s).drop = s.drop := rfl
@[simp] theorem setH_cause (n : Nat) (w : Word) : (setH n w s).cause = s.cause := rfl
@[simp] theorem setH_desc (n : Nat) (w : Word) : (setH n w s).desc = s.desc := rfl
@[simp] theorem setH_pending (n : Nat) (w : Word) : (setH n w s).pending = s.pending := rfl
@[simp] theorem setH_mem (n : Nat) (w : Word) : (setH n w s).mem = s.mem := rfl
@[simp] theorem setH_mfaults (n : Nat) (w : Word) : (setH n w s).mfaults = s.mfaults := rfl
@[simp] theorem setH_prog (n : Nat) (w : Word) : (setH n w s).prog = s.prog := rfl
@[simp] theorem setH_hpc (n : Nat) (w : Word) : (setH n w s).hpc = s.hpc := rfl
@[simp] theorem setH_halted (n : Nat) (w : Word) : (setH n w s).halted = s.halted := rfl
@[simp] theorem setH_h (n : Nat) (w : Word) : (setH n w s).h = sparseSet 0 s.h n w := rfl
@[simp] theorem setH_c (n : Nat) (w : Word) : (setH n w s).c = s.c := rfl
@[simp] theorem setH_regHost (n : Nat) (w : Word) : (setH n w s).regHost = s.regHost := rfl
@[simp] theorem setH_regData (n : Nat) (w : Word) : (setH n w s).regData = s.regData := rfl
@[simp] theorem setH_memData (n : Nat) (w : Word) : (setH n w s).memData = s.memData := rfl
@[simp] theorem setH_events (n : Nat) (w : Word) : (setH n w s).events = s.events := rfl
@[simp] theorem setH_draws (n : Nat) (w : Word) : (setH n w s).draws = s.draws := rfl

@[simp] theorem setC_cfg (n : Nat) (x : C64) : (setC n x s).cfg = s.cfg := rfl
@[simp] theorem setC_cmd (n : Nat) (x : C64) : (setC n x s).cmd = s.cmd := rfl
@[simp] theorem setC_len (n : Nat) (x : C64) : (setC n x s).len = s.len := rfl
@[simp] theorem setC_src (n : Nat) (x : C64) : (setC n x s).src = s.src := rfl
@[simp] theorem setC_dst (n : Nat) (x : C64) : (setC n x s).dst = s.dst := rfl
@[simp] theorem setC_tw (n : Nat) (x : C64) : (setC n x s).tw = s.tw := rfl
@[simp] theorem setC_twlen (n : Nat) (x : C64) : (setC n x s).twlen = s.twlen := rfl
@[simp] theorem setC_ie (n : Nat) (x : C64) : (setC n x s).ie = s.ie := rfl
@[simp] theorem setC_busy (n : Nat) (x : C64) : (setC n x s).busy = s.busy := rfl
@[simp] theorem setC_done (n : Nat) (x : C64) : (setC n x s).done = s.done := rfl
@[simp] theorem setC_fault (n : Nat) (x : C64) : (setC n x s).fault = s.fault := rfl
@[simp] theorem setC_drop (n : Nat) (x : C64) : (setC n x s).drop = s.drop := rfl
@[simp] theorem setC_cause (n : Nat) (x : C64) : (setC n x s).cause = s.cause := rfl
@[simp] theorem setC_desc (n : Nat) (x : C64) : (setC n x s).desc = s.desc := rfl
@[simp] theorem setC_pending (n : Nat) (x : C64) : (setC n x s).pending = s.pending := rfl
@[simp] theorem setC_mem (n : Nat) (x : C64) : (setC n x s).mem = s.mem := rfl
@[simp] theorem setC_mfaults (n : Nat) (x : C64) : (setC n x s).mfaults = s.mfaults := rfl
@[simp] theorem setC_prog (n : Nat) (x : C64) : (setC n x s).prog = s.prog := rfl
@[simp] theorem setC_hpc (n : Nat) (x : C64) : (setC n x s).hpc = s.hpc := rfl
@[simp] theorem setC_halted (n : Nat) (x : C64) : (setC n x s).halted = s.halted := rfl
@[simp] theorem setC_h (n : Nat) (x : C64) : (setC n x s).h = s.h := rfl
@[simp] theorem setC_c (n : Nat) (x : C64) : (setC n x s).c = sparseSet ⟨0, 0⟩ s.c n x := rfl
@[simp] theorem setC_regHost (n : Nat) (x : C64) : (setC n x s).regHost = s.regHost := rfl
@[simp] theorem setC_regData (n : Nat) (x : C64) : (setC n x s).regData = s.regData := rfl
@[simp] theorem setC_memData (n : Nat) (x : C64) : (setC n x s).memData = s.memData := rfl
@[simp] theorem setC_events (n : Nat) (x : C64) : (setC n x s).events = s.events := rfl
@[simp] theorem setC_draws (n : Nat) (x : C64) : (setC n x s).draws = s.draws := rfl

@[simp] theorem nextLine_cfg : (nextLine s).cfg = s.cfg := rfl
@[simp] theorem nextLine_cmd : (nextLine s).cmd = s.cmd := rfl
@[simp] theorem nextLine_len : (nextLine s).len = s.len := rfl
@[simp] theorem nextLine_src : (nextLine s).src = s.src := rfl
@[simp] theorem nextLine_dst : (nextLine s).dst = s.dst := rfl
@[simp] theorem nextLine_tw : (nextLine s).tw = s.tw := rfl
@[simp] theorem nextLine_twlen : (nextLine s).twlen = s.twlen := rfl
@[simp] theorem nextLine_ie : (nextLine s).ie = s.ie := rfl
@[simp] theorem nextLine_busy : (nextLine s).busy = s.busy := rfl
@[simp] theorem nextLine_done : (nextLine s).done = s.done := rfl
@[simp] theorem nextLine_fault : (nextLine s).fault = s.fault := rfl
@[simp] theorem nextLine_drop : (nextLine s).drop = s.drop := rfl
@[simp] theorem nextLine_cause : (nextLine s).cause = s.cause := rfl
@[simp] theorem nextLine_desc : (nextLine s).desc = s.desc := rfl
@[simp] theorem nextLine_pending : (nextLine s).pending = s.pending := rfl
@[simp] theorem nextLine_mem : (nextLine s).mem = s.mem := rfl
@[simp] theorem nextLine_mfaults : (nextLine s).mfaults = s.mfaults := rfl
@[simp] theorem nextLine_prog : (nextLine s).prog = s.prog := rfl
@[simp] theorem nextLine_hpc : (nextLine s).hpc = s.hpc + 1 := rfl
@[simp] theorem nextLine_halted : (nextLine s).halted = s.halted := rfl
@[simp] theorem nextLine_h : (nextLine s).h = s.h := rfl
@[simp] theorem nextLine_c : (nextLine s).c = s.c := rfl
@[simp] theorem nextLine_regHost : (nextLine s).regHost = s.regHost := rfl
@[simp] theorem nextLine_regData : (nextLine s).regData = s.regData := rfl
@[simp] theorem nextLine_memData : (nextLine s).memData = s.memData := rfl
@[simp] theorem nextLine_events : (nextLine s).events = s.events := rfl
@[simp] theorem nextLine_draws : (nextLine s).draws = s.draws := rfl

@[simp] theorem scramble_cfg (d : Desc) : (scramble d s).cfg = s.cfg := rfl
@[simp] theorem scramble_cmd (d : Desc) : (scramble d s).cmd = s.cmd := rfl
@[simp] theorem scramble_len (d : Desc) : (scramble d s).len = s.len := rfl
@[simp] theorem scramble_src (d : Desc) : (scramble d s).src = s.src := rfl
@[simp] theorem scramble_dst (d : Desc) : (scramble d s).dst = s.dst := rfl
@[simp] theorem scramble_tw (d : Desc) : (scramble d s).tw = s.tw := rfl
@[simp] theorem scramble_twlen (d : Desc) : (scramble d s).twlen = s.twlen := rfl
@[simp] theorem scramble_ie (d : Desc) : (scramble d s).ie = s.ie := rfl
@[simp] theorem scramble_busy (d : Desc) : (scramble d s).busy = s.busy := rfl
@[simp] theorem scramble_done (d : Desc) : (scramble d s).done = s.done := rfl
@[simp] theorem scramble_fault (d : Desc) : (scramble d s).fault = s.fault := rfl
@[simp] theorem scramble_drop (d : Desc) : (scramble d s).drop = s.drop := rfl
@[simp] theorem scramble_cause (d : Desc) : (scramble d s).cause = s.cause := rfl
@[simp] theorem scramble_desc (d : Desc) : (scramble d s).desc = s.desc := rfl
@[simp] theorem scramble_pending (d : Desc) : (scramble d s).pending = s.pending := rfl
@[simp] theorem scramble_mem (d : Desc) : (scramble d s).mem = Memory.writeBytes s.mem d.dstB.toNat (scrambleBytes s.draws (8 * d.n.toNat)) := rfl
@[simp] theorem scramble_mfaults (d : Desc) : (scramble d s).mfaults = s.mfaults := rfl
@[simp] theorem scramble_prog (d : Desc) : (scramble d s).prog = s.prog := rfl
@[simp] theorem scramble_hpc (d : Desc) : (scramble d s).hpc = s.hpc := rfl
@[simp] theorem scramble_halted (d : Desc) : (scramble d s).halted = s.halted := rfl
@[simp] theorem scramble_h (d : Desc) : (scramble d s).h = s.h := rfl
@[simp] theorem scramble_c (d : Desc) : (scramble d s).c = s.c := rfl
@[simp] theorem scramble_regHost (d : Desc) : (scramble d s).regHost = s.regHost := rfl
@[simp] theorem scramble_regData (d : Desc) : (scramble d s).regData = s.regData := rfl
@[simp] theorem scramble_memData (d : Desc) : (scramble d s).memData = s.memData := rfl
@[simp] theorem scramble_events (d : Desc) : (scramble d s).events = s.events := rfl
@[simp] theorem scramble_draws (d : Desc) : (scramble d s).draws = s.draws + 8 * d.n.toNat := rfl

@[simp] theorem performBf2_cfg (d : Desc) (i o : Nat) : (performBf2 d i o s).cfg = s.cfg := rfl
@[simp] theorem performBf2_cmd (d : Desc) (i o : Nat) : (performBf2 d i o s).cmd = s.cmd := rfl
@[simp] theorem performBf2_len (d : Desc) (i o : Nat) : (performBf2 d i o s).len = s.len := rfl
@[simp] theorem performBf2_src (d : Desc) (i o : Nat) : (performBf2 d i o s).src = s.src := rfl
@[simp] theorem performBf2_dst (d : Desc) (i o : Nat) : (performBf2 d i o s).dst = s.dst := rfl
@[simp] theorem performBf2_tw (d : Desc) (i o : Nat) : (performBf2 d i o s).tw = s.tw := rfl
@[simp] theorem performBf2_twlen (d : Desc) (i o : Nat) : (performBf2 d i o s).twlen = s.twlen := rfl
@[simp] theorem performBf2_ie (d : Desc) (i o : Nat) : (performBf2 d i o s).ie = s.ie := rfl
@[simp] theorem performBf2_busy (d : Desc) (i o : Nat) : (performBf2 d i o s).busy = s.busy := rfl
@[simp] theorem performBf2_done (d : Desc) (i o : Nat) : (performBf2 d i o s).done = s.done := rfl
@[simp] theorem performBf2_fault (d : Desc) (i o : Nat) : (performBf2 d i o s).fault = s.fault := rfl
@[simp] theorem performBf2_drop (d : Desc) (i o : Nat) : (performBf2 d i o s).drop = s.drop := rfl
@[simp] theorem performBf2_cause (d : Desc) (i o : Nat) : (performBf2 d i o s).cause = s.cause := rfl
@[simp] theorem performBf2_desc (d : Desc) (i o : Nat) : (performBf2 d i o s).desc = s.desc := rfl
@[simp] theorem performBf2_pending (d : Desc) (i o : Nat) : (performBf2 d i o s).pending = s.pending := rfl
@[simp] theorem performBf2_mfaults (d : Desc) (i o : Nat) : (performBf2 d i o s).mfaults = s.mfaults := rfl
@[simp] theorem performBf2_prog (d : Desc) (i o : Nat) : (performBf2 d i o s).prog = s.prog := rfl
@[simp] theorem performBf2_hpc (d : Desc) (i o : Nat) : (performBf2 d i o s).hpc = s.hpc := rfl
@[simp] theorem performBf2_halted (d : Desc) (i o : Nat) : (performBf2 d i o s).halted = s.halted := rfl
@[simp] theorem performBf2_h (d : Desc) (i o : Nat) : (performBf2 d i o s).h = s.h := rfl
@[simp] theorem performBf2_c (d : Desc) (i o : Nat) : (performBf2 d i o s).c = s.c := rfl
@[simp] theorem performBf2_regHost (d : Desc) (i o : Nat) : (performBf2 d i o s).regHost = s.regHost := rfl
@[simp] theorem performBf2_regData (d : Desc) (i o : Nat) : (performBf2 d i o s).regData = s.regData := rfl
@[simp] theorem performBf2_memData (d : Desc) (i o : Nat) : (performBf2 d i o s).memData = s.memData := rfl
@[simp] theorem performBf2_events (d : Desc) (i o : Nat) : (performBf2 d i o s).events = s.events := rfl
@[simp] theorem performBf2_draws (d : Desc) (i o : Nat) : (performBf2 d i o s).draws = s.draws + bf2Draws := rfl

@[simp] theorem performBf4_cfg (d : Desc) (i o : Nat) : (performBf4 d i o s).cfg = s.cfg := rfl
@[simp] theorem performBf4_cmd (d : Desc) (i o : Nat) : (performBf4 d i o s).cmd = s.cmd := rfl
@[simp] theorem performBf4_len (d : Desc) (i o : Nat) : (performBf4 d i o s).len = s.len := rfl
@[simp] theorem performBf4_src (d : Desc) (i o : Nat) : (performBf4 d i o s).src = s.src := rfl
@[simp] theorem performBf4_dst (d : Desc) (i o : Nat) : (performBf4 d i o s).dst = s.dst := rfl
@[simp] theorem performBf4_tw (d : Desc) (i o : Nat) : (performBf4 d i o s).tw = s.tw := rfl
@[simp] theorem performBf4_twlen (d : Desc) (i o : Nat) : (performBf4 d i o s).twlen = s.twlen := rfl
@[simp] theorem performBf4_ie (d : Desc) (i o : Nat) : (performBf4 d i o s).ie = s.ie := rfl
@[simp] theorem performBf4_busy (d : Desc) (i o : Nat) : (performBf4 d i o s).busy = s.busy := rfl
@[simp] theorem performBf4_done (d : Desc) (i o : Nat) : (performBf4 d i o s).done = s.done := rfl
@[simp] theorem performBf4_fault (d : Desc) (i o : Nat) : (performBf4 d i o s).fault = s.fault := rfl
@[simp] theorem performBf4_drop (d : Desc) (i o : Nat) : (performBf4 d i o s).drop = s.drop := rfl
@[simp] theorem performBf4_cause (d : Desc) (i o : Nat) : (performBf4 d i o s).cause = s.cause := rfl
@[simp] theorem performBf4_desc (d : Desc) (i o : Nat) : (performBf4 d i o s).desc = s.desc := rfl
@[simp] theorem performBf4_pending (d : Desc) (i o : Nat) : (performBf4 d i o s).pending = s.pending := rfl
@[simp] theorem performBf4_mfaults (d : Desc) (i o : Nat) : (performBf4 d i o s).mfaults = s.mfaults := rfl
@[simp] theorem performBf4_prog (d : Desc) (i o : Nat) : (performBf4 d i o s).prog = s.prog := rfl
@[simp] theorem performBf4_hpc (d : Desc) (i o : Nat) : (performBf4 d i o s).hpc = s.hpc := rfl
@[simp] theorem performBf4_halted (d : Desc) (i o : Nat) : (performBf4 d i o s).halted = s.halted := rfl
@[simp] theorem performBf4_h (d : Desc) (i o : Nat) : (performBf4 d i o s).h = s.h := rfl
@[simp] theorem performBf4_c (d : Desc) (i o : Nat) : (performBf4 d i o s).c = s.c := rfl
@[simp] theorem performBf4_regHost (d : Desc) (i o : Nat) : (performBf4 d i o s).regHost = s.regHost := rfl
@[simp] theorem performBf4_regData (d : Desc) (i o : Nat) : (performBf4 d i o s).regData = s.regData := rfl
@[simp] theorem performBf4_memData (d : Desc) (i o : Nat) : (performBf4 d i o s).memData = s.memData := rfl
@[simp] theorem performBf4_events (d : Desc) (i o : Nat) : (performBf4 d i o s).events = s.events := rfl
@[simp] theorem performBf4_draws (d : Desc) (i o : Nat) : (performBf4 d i o s).draws = s.draws + bf4Draws := rfl

@[simp] theorem groupInit_cfg (d : Desc) (o : Nat) : (groupInit d o s).cfg = s.cfg := rfl
@[simp] theorem groupInit_cmd (d : Desc) (o : Nat) : (groupInit d o s).cmd = s.cmd := rfl
@[simp] theorem groupInit_len (d : Desc) (o : Nat) : (groupInit d o s).len = s.len := rfl
@[simp] theorem groupInit_src (d : Desc) (o : Nat) : (groupInit d o s).src = s.src := rfl
@[simp] theorem groupInit_dst (d : Desc) (o : Nat) : (groupInit d o s).dst = s.dst := rfl
@[simp] theorem groupInit_tw (d : Desc) (o : Nat) : (groupInit d o s).tw = s.tw := rfl
@[simp] theorem groupInit_twlen (d : Desc) (o : Nat) : (groupInit d o s).twlen = s.twlen := rfl
@[simp] theorem groupInit_ie (d : Desc) (o : Nat) : (groupInit d o s).ie = s.ie := rfl
@[simp] theorem groupInit_busy (d : Desc) (o : Nat) : (groupInit d o s).busy = s.busy := rfl
@[simp] theorem groupInit_done (d : Desc) (o : Nat) : (groupInit d o s).done = s.done := rfl
@[simp] theorem groupInit_fault (d : Desc) (o : Nat) : (groupInit d o s).fault = s.fault := rfl
@[simp] theorem groupInit_drop (d : Desc) (o : Nat) : (groupInit d o s).drop = s.drop := rfl
@[simp] theorem groupInit_cause (d : Desc) (o : Nat) : (groupInit d o s).cause = s.cause := rfl
@[simp] theorem groupInit_desc (d : Desc) (o : Nat) : (groupInit d o s).desc = s.desc := rfl
@[simp] theorem groupInit_pending (d : Desc) (o : Nat) : (groupInit d o s).pending = s.pending := rfl
@[simp] theorem groupInit_mfaults (d : Desc) (o : Nat) : (groupInit d o s).mfaults = s.mfaults := rfl
@[simp] theorem groupInit_prog (d : Desc) (o : Nat) : (groupInit d o s).prog = s.prog := rfl
@[simp] theorem groupInit_hpc (d : Desc) (o : Nat) : (groupInit d o s).hpc = s.hpc := rfl
@[simp] theorem groupInit_halted (d : Desc) (o : Nat) : (groupInit d o s).halted = s.halted := rfl
@[simp] theorem groupInit_h (d : Desc) (o : Nat) : (groupInit d o s).h = s.h := rfl
@[simp] theorem groupInit_c (d : Desc) (o : Nat) : (groupInit d o s).c = s.c := rfl
@[simp] theorem groupInit_regHost (d : Desc) (o : Nat) : (groupInit d o s).regHost = s.regHost := rfl
@[simp] theorem groupInit_regData (d : Desc) (o : Nat) : (groupInit d o s).regData = s.regData := rfl
@[simp] theorem groupInit_memData (d : Desc) (o : Nat) : (groupInit d o s).memData = s.memData := rfl
@[simp] theorem groupInit_events (d : Desc) (o : Nat) : (groupInit d o s).events = s.events := rfl
@[simp] theorem groupInit_draws (d : Desc) (o : Nat) : (groupInit d o s).draws = s.draws + initDraws := rfl

@[simp] theorem writeStatus_cfg (v : Word) : (writeStatus v s).cfg = s.cfg := by
  unfold writeStatus; cases v.getLsbD 2 <;> rfl
@[simp] theorem writeStatus_cmd (v : Word) : (writeStatus v s).cmd = s.cmd := by
  unfold writeStatus; cases v.getLsbD 2 <;> rfl
@[simp] theorem writeStatus_len (v : Word) : (writeStatus v s).len = s.len := by
  unfold writeStatus; cases v.getLsbD 2 <;> rfl
@[simp] theorem writeStatus_src (v : Word) : (writeStatus v s).src = s.src := by
  unfold writeStatus; cases v.getLsbD 2 <;> rfl
@[simp] theorem writeStatus_dst (v : Word) : (writeStatus v s).dst = s.dst := by
  unfold writeStatus; cases v.getLsbD 2 <;> rfl
@[simp] theorem writeStatus_tw (v : Word) : (writeStatus v s).tw = s.tw := by
  unfold writeStatus; cases v.getLsbD 2 <;> rfl
@[simp] theorem writeStatus_twlen (v : Word) : (writeStatus v s).twlen = s.twlen := by
  unfold writeStatus; cases v.getLsbD 2 <;> rfl
@[simp] theorem writeStatus_ie (v : Word) : (writeStatus v s).ie = s.ie := by
  unfold writeStatus; cases v.getLsbD 2 <;> rfl
@[simp] theorem writeStatus_busy (v : Word) : (writeStatus v s).busy = s.busy := by
  unfold writeStatus; cases v.getLsbD 2 <;> rfl
@[simp] theorem writeStatus_done (v : Word) : (writeStatus v s).done = if v.getLsbD 1 then false else s.done := by
  unfold writeStatus; cases v.getLsbD 2 <;> rfl
@[simp] theorem writeStatus_fault (v : Word) : (writeStatus v s).fault = if v.getLsbD 2 then false else s.fault := by
  unfold writeStatus; cases v.getLsbD 2 <;> rfl
@[simp] theorem writeStatus_drop (v : Word) : (writeStatus v s).drop = if v.getLsbD 3 then false else s.drop := by
  unfold writeStatus; cases v.getLsbD 2 <;> rfl
@[simp] theorem writeStatus_cause (v : Word) : (writeStatus v s).cause = if v.getLsbD 2 then 0 else s.cause := by
  unfold writeStatus; cases v.getLsbD 2 <;> rfl
@[simp] theorem writeStatus_desc (v : Word) : (writeStatus v s).desc = s.desc := by
  unfold writeStatus; cases v.getLsbD 2 <;> rfl
@[simp] theorem writeStatus_pending (v : Word) : (writeStatus v s).pending = s.pending := by
  unfold writeStatus; cases v.getLsbD 2 <;> rfl
@[simp] theorem writeStatus_mem (v : Word) : (writeStatus v s).mem = s.mem := by
  unfold writeStatus; cases v.getLsbD 2 <;> rfl
@[simp] theorem writeStatus_mfaults (v : Word) : (writeStatus v s).mfaults = s.mfaults := by
  unfold writeStatus; cases v.getLsbD 2 <;> rfl
@[simp] theorem writeStatus_prog (v : Word) : (writeStatus v s).prog = s.prog := by
  unfold writeStatus; cases v.getLsbD 2 <;> rfl
@[simp] theorem writeStatus_hpc (v : Word) : (writeStatus v s).hpc = s.hpc := by
  unfold writeStatus; cases v.getLsbD 2 <;> rfl
@[simp] theorem writeStatus_halted (v : Word) : (writeStatus v s).halted = s.halted := by
  unfold writeStatus; cases v.getLsbD 2 <;> rfl
@[simp] theorem writeStatus_h (v : Word) : (writeStatus v s).h = s.h := by
  unfold writeStatus; cases v.getLsbD 2 <;> rfl
@[simp] theorem writeStatus_c (v : Word) : (writeStatus v s).c = s.c := by
  unfold writeStatus; cases v.getLsbD 2 <;> rfl
@[simp] theorem writeStatus_regHost (v : Word) : (writeStatus v s).regHost = s.regHost := by
  unfold writeStatus; cases v.getLsbD 2 <;> rfl
@[simp] theorem writeStatus_regData (v : Word) : (writeStatus v s).regData = s.regData := by
  unfold writeStatus; cases v.getLsbD 2 <;> rfl
@[simp] theorem writeStatus_memData (v : Word) : (writeStatus v s).memData = s.memData := by
  unfold writeStatus; cases v.getLsbD 2 <;> rfl
@[simp] theorem writeStatus_events (v : Word) : (writeStatus v s).events = s.events := by
  unfold writeStatus; cases v.getLsbD 2 <;> rfl
@[simp] theorem writeStatus_draws (v : Word) : (writeStatus v s).draws = s.draws := by
  unfold writeStatus; cases v.getLsbD 2 <;> rfl

@[simp] theorem branch_cfg (b : Bool) (l : Nat) : (branch b l s).cfg = s.cfg := by cases b <;> rfl
@[simp] theorem branch_cmd (b : Bool) (l : Nat) : (branch b l s).cmd = s.cmd := by cases b <;> rfl
@[simp] theorem branch_len (b : Bool) (l : Nat) : (branch b l s).len = s.len := by cases b <;> rfl
@[simp] theorem branch_src (b : Bool) (l : Nat) : (branch b l s).src = s.src := by cases b <;> rfl
@[simp] theorem branch_dst (b : Bool) (l : Nat) : (branch b l s).dst = s.dst := by cases b <;> rfl
@[simp] theorem branch_tw (b : Bool) (l : Nat) : (branch b l s).tw = s.tw := by cases b <;> rfl
@[simp] theorem branch_twlen (b : Bool) (l : Nat) : (branch b l s).twlen = s.twlen := by cases b <;> rfl
@[simp] theorem branch_ie (b : Bool) (l : Nat) : (branch b l s).ie = s.ie := by cases b <;> rfl
@[simp] theorem branch_busy (b : Bool) (l : Nat) : (branch b l s).busy = s.busy := by cases b <;> rfl
@[simp] theorem branch_done (b : Bool) (l : Nat) : (branch b l s).done = s.done := by cases b <;> rfl
@[simp] theorem branch_fault (b : Bool) (l : Nat) : (branch b l s).fault = s.fault := by cases b <;> rfl
@[simp] theorem branch_drop (b : Bool) (l : Nat) : (branch b l s).drop = s.drop := by cases b <;> rfl
@[simp] theorem branch_cause (b : Bool) (l : Nat) : (branch b l s).cause = s.cause := by cases b <;> rfl
@[simp] theorem branch_desc (b : Bool) (l : Nat) : (branch b l s).desc = s.desc := by cases b <;> rfl
@[simp] theorem branch_pending (b : Bool) (l : Nat) : (branch b l s).pending = s.pending := by cases b <;> rfl
@[simp] theorem branch_mem (b : Bool) (l : Nat) : (branch b l s).mem = s.mem := by cases b <;> rfl
@[simp] theorem branch_mfaults (b : Bool) (l : Nat) : (branch b l s).mfaults = s.mfaults := by cases b <;> rfl
@[simp] theorem branch_prog (b : Bool) (l : Nat) : (branch b l s).prog = s.prog := by cases b <;> rfl
@[simp] theorem branch_hpc (b : Bool) (l : Nat) :
    (branch b l s).hpc = if b then labelLine s.prog l else s.hpc + 1 := by
  cases b <;> rfl
@[simp] theorem branch_halted (b : Bool) (l : Nat) : (branch b l s).halted = s.halted := by cases b <;> rfl
@[simp] theorem branch_h (b : Bool) (l : Nat) : (branch b l s).h = s.h := by cases b <;> rfl
@[simp] theorem branch_c (b : Bool) (l : Nat) : (branch b l s).c = s.c := by cases b <;> rfl
@[simp] theorem branch_regHost (b : Bool) (l : Nat) : (branch b l s).regHost = s.regHost := by cases b <;> rfl
@[simp] theorem branch_regData (b : Bool) (l : Nat) : (branch b l s).regData = s.regData := by cases b <;> rfl
@[simp] theorem branch_memData (b : Bool) (l : Nat) : (branch b l s).memData = s.memData := by cases b <;> rfl
@[simp] theorem branch_events (b : Bool) (l : Nat) : (branch b l s).events = s.events := by cases b <;> rfl
@[simp] theorem branch_draws (b : Bool) (l : Nat) : (branch b l s).draws = s.draws := by cases b <;> rfl

end Sys2Proof.Machine
end

