-- ==== Sys2Proof/Laws/Ops.lean ====
section
/-! SUPPORT. For each shared operation one lemma that says once everything it can do; later proofs cite these instead of
unfolding the operations. -/

namespace Sys2Proof.Machine

open Host

/-! ### The issue step (`60_exceptions.md` R160, R170, R172) -/

section Issue

variable {w : Word} {d : Desc} {enum : Nat → Nat → List Group} {s t : State} {c : Check}

theorem command_busy (h : s.busy = true) : command w d enum s = dropWrite s := by simp [command, h]

theorem command_failing (h : s.busy = false) (hc : failingCheck s d = some c) :
    command w d enum s = takeFault c (beginIssue w s) := by simp [command, h, hc]

theorem command_accepted (h : s.busy = false) (hc : failingCheck s d = none) :
    command w d enum s
      = accept d (enum (nPrime d.op d.n.toNat) (stride d.op d.n.toNat d.idx)) (beginIssue w s) := by
  simp [command, h, hc]

/-- Everything a host write of a legal command word can do. -/
theorem command_cases (w : Word) (d : Desc) (enum : Nat → Nat → List Group) (s : State) :
    (s.busy = true ∧ command w d enum s = dropWrite s)
      ∨ (∃ c, s.busy = false ∧ failingCheck s d = some c ∧ command w d enum s = takeFault c (beginIssue w s))
      ∨ (s.busy = false ∧ failingCheck s d = none ∧ command w d enum s
          = accept d (enum (nPrime d.op d.n.toNat) (stride d.op d.n.toNat d.idx)) (beginIssue w s)) := by
  cases hb : s.busy
  · cases hc : failingCheck s d with
    | none => exact .inr (.inr ⟨rfl, rfl, command_accepted hb hc⟩)
    | some c => exact .inr (.inl ⟨c, rfl, rfl, command_failing hb hc⟩)
  · exact .inl ⟨rfl, command_busy hb⟩

/-- Everything a host write of an illegal command word can do. -/
theorem illegalCommand_cases (w : Word) (s : State) :
    (s.busy = true ∧ illegalCommand w s = dropWrite s)
      ∨ (s.busy = false ∧ illegalCommand w s = takeFault .illegalCmd (beginIssue w s)) := by
  cases hb : s.busy <;> simp [illegalCommand, hb]

/-- Every command is one `command` on the descriptor it would latch, and the groups it enumerates are those of the descriptor. -/
theorem exec_eq_command (i : Instr) (s : State) :
    ∃ enum : Nat → Nat → List Group, exec i s = .next (command (encodeWord i) (commandDesc i s) enum s)
      ∧ enum (nPrime (commandDesc i s).op s.len.toNat) (stride (commandDesc i s).op s.len.toNat (commandDesc i s).idx)
          = (commandDesc i s).groups := by
  cases i with
  | r2c idx => exact ⟨groupsR2c, rfl, rfl⟩
  | r2a idx => exact ⟨groupsR2a, rfl, rfl⟩
  | r4 idx => exact ⟨groupsR4, rfl, rfl⟩
  | init => exact ⟨fun h _ => groupsInit h, rfl, rfl⟩

/-- The descriptor a command would latch is what the registers say, and names the command. -/
theorem commandDesc_instr (i : Instr) (s : State) :
    (commandDesc i s).instr = i ∧ commandDesc i s = latch (commandDesc i s).op (commandDesc i s).idx s := by
  cases i <;> exact ⟨rfl, rfl⟩

/-- What no host write to `CMD` changes (`60_exceptions.md` R170–R172). -/
structure IssueFrame (s t : State) : Prop where
  cfg : t.cfg = s.cfg
  len : t.len = s.len
  src : t.src = s.src
  dst : t.dst = s.dst
  tw : t.tw = s.tw
  twlen : t.twlen = s.twlen
  ie : t.ie = s.ie
  mem : t.mem = s.mem
  prog : t.prog = s.prog
  hpc : t.hpc = s.hpc
  halted : t.halted = s.halted
  h : t.h = s.h
  c : t.c = s.c
  regHost : t.regHost = s.regHost
  regData : t.regData = s.regData
  memData : t.memData = s.memData
  events : t.events = s.events
  draws : t.draws = s.draws

theorem command_issueFrame (w : Word) (d : Desc) (enum : Nat → Nat → List Group) (s : State) :
    IssueFrame s (command w d enum s) := by
  rcases command_cases w d enum s with ⟨-, h⟩ | ⟨c, -, -, h⟩ | ⟨-, -, h⟩ <;> rw [h] <;> constructor <;> rfl

theorem illegalCommand_issueFrame (w : Word) (s : State) : IssueFrame s (illegalCommand w s) := by
  rcases illegalCommand_cases w s with ⟨-, h⟩ | ⟨-, h⟩ <;> rw [h] <;> constructor <;> rfl

end Issue

/-! ### The engine's steps (`60_exceptions.md` R173, R174) -/

section Engine

variable {s : State} {d : Desc} {g : Group} {k : Nat}

/-- A group step writes elements of the destination and takes draws; it changes nothing else. -/
structure GroupFrame (s t : State) : Prop where
  same : t = { s with mem := t.mem, draws := t.draws }

theorem performBf2_frame (i o : Nat) : GroupFrame s (performBf2 d i o s) := ⟨rfl⟩

theorem performBf4_frame (i o : Nat) : GroupFrame s (performBf4 d i o s) := ⟨rfl⟩

theorem groupInit_frame (o : Nat) : GroupFrame s (groupInit d o s) := ⟨rfl⟩

theorem performGroup_frame : GroupFrame s (performGroup d g s) := by
  unfold performGroup
  split <;> exact ⟨rfl⟩

/-- The memory after `BF2` (`41_radix2.md` R121). -/
theorem performBf2_mem (i o : Nat) :
    (performBf2 d i o s).mem
      = stC (stC s.mem d.dstB (bfOut i o) (bf2Values s.draws d i o s.mem).1) d.dstB
          (bfOut i o + nPrime d.op d.n.toNat) (bf2Values s.draws d i o s.mem).2 := rfl

/-- The memory after a group of `INIT` (`42_radix4.md` R146). -/
theorem groupInit_mem (o : Nat) :
    (groupInit d o s).mem
      = stC (stC s.mem d.dstB o (initValues s.draws d o s.mem).1) d.dstB (o + nPrime d.op d.n.toNat)
          (initValues s.draws d o s.mem).2 := rfl

/-- The memory after `BF4` (`42_radix4.md` R141). -/
theorem performBf4_mem (i o : Nat) :
    (performBf4 d i o s).mem
      = stC (stC (stC (stC s.mem d.dstB (bfOut i o) (bf4Values s.draws d i o s.mem).1) d.dstB
          (bfOut i o + nPrime d.op d.n.toNat) (bf4Values s.draws d i o s.mem).2.1) d.dstB
          (bfOut i o + 2 * nPrime d.op d.n.toNat) (bf4Values s.draws d i o s.mem).2.2.1) d.dstB
          (bfOut i o + 3 * nPrime d.op d.n.toNat) (bf4Values s.draws d i o s.mem).2.2.2 := rfl

/-- A group step keeps the canonical form of memory. -/
theorem performGroup_wf (h : Memory.wf s.mem) : Memory.wf (performGroup d g s).mem := by
  unfold performGroup
  split
  · exact stC_wf (stC_wf h)
  · exact stC_wf (stC_wf h)
  · exact stC_wf (stC_wf (stC_wf (stC_wf h)))
  · exact stC_wf (stC_wf h)
  all_goals exact h

theorem chosenGroup_eq_none : chosenGroup k s = none ↔ s.pending = [] := by
  unfold chosenGroup
  cases h : s.pending with
  | nil => simp
  | cons g gs =>
    simp only [reduceCtorEq, iff_false, List.getElem?_eq_none_iff, not_le]
    exact Nat.mod_lt _ (by simp)

theorem chosenGroup_mem (h : chosenGroup k s = some g) : g ∈ s.pending := List.mem_of_getElem? h

/-- Every pending group is the choice of some `k` (`60_exceptions.md` R173: the choice is free). -/
theorem exists_chosenGroup (h : g ∈ s.pending) : ∃ k, chosenGroup k s = some g := by
  obtain ⟨k, hk, rfl⟩ := List.getElem_of_mem h
  exact ⟨k, by rw [chosenGroup, Nat.mod_eq_of_lt hk, List.getElem?_eq_getElem hk]⟩

/-- Everything the engine's step can do. -/
theorem engineStep_cases (k : Nat) (s : State) :
    ((s.busy = false ∨ s.desc = none) ∧ engineStep k s = s)
      ∨ (∃ d, s.busy = true ∧ s.desc = some d ∧ s.pending = [] ∧ engineStep k s = complete s)
      ∨ (∃ d g, s.busy = true ∧ s.desc = some d ∧ chosenGroup k s = some g
          ∧ engineStep k s = performGroup d g { s with pending := s.pending.erase g }) := by
  cases hb : s.busy
  · exact .inl ⟨.inl rfl, by simp [engineStep, hb]⟩
  · cases hd : s.desc with
    | none => exact .inl ⟨.inr rfl, by simp [engineStep, hb, hd]⟩
    | some d =>
      cases hg : chosenGroup k s with
      | none => exact .inr (.inl ⟨d, rfl, rfl, chosenGroup_eq_none.1 hg, by simp [engineStep, hb, hd, hg]⟩)
      | some g => exact .inr (.inr ⟨d, g, rfl, rfl, rfl, by simp [engineStep, hb, hd, hg]⟩)

theorem engineStep_wf (h : Memory.wf s.mem) : Memory.wf (engineStep k s).mem := by
  rcases engineStep_cases k s with ⟨-, e⟩ | ⟨d, -, -, -, e⟩ | ⟨d, g, -, -, -, e⟩ <;> rw [e]
  · exact h
  · exact h
  · exact performGroup_wf h

end Engine

/-! ### Reset (`70_reset_and_hazards.md` R190, R191) -/

section Reset

variable (s : State)

@[simp] theorem length_scrambleBytes (k n : Nat) : (scrambleBytes k n).length = n := by simp [scrambleBytes]

/-- Everything the reset event does. -/
theorem resetEngine_eq :
    resetEngine s =
      { s with
        cmd := 0, len := 0, src := 0, dst := 0, tw := 0, twlen := 0, ie := false, busy := false, done := false,
        fault := false, drop := false, cause := 0, desc := none, pending := [], mem := (resetEngine s).mem,
        draws := (resetEngine s).draws } := by
  unfold resetEngine
  cases s.busy <;> cases s.desc <;> rfl

/-- An idle engine's reset does not touch memory. -/
theorem resetEngine_mem_idle (h : s.busy = false) : (resetEngine s).mem = s.mem := by
  simp [resetEngine, h]

/-- A byte outside `DSTR` of the abandoned operation reads as before. -/
theorem read_resetEngine_outside {d : Desc} {a : Nat} (hd : s.desc = some d) (ha : d.dstR.has a = false) :
    Memory.read (resetEngine s).mem a = Memory.read s.mem a := by
  cases hb : s.busy
  · rw [resetEngine_mem_idle s hb]
  · have e : (resetEngine s).mem
        = Memory.writeBytes s.mem d.dstB.toNat (scrambleBytes s.draws (8 * d.n.toNat)) := by
      simp [resetEngine, hb, hd]
    rw [e, Memory.read_writeBytes_outside]
    rw [length_scrambleBytes]
    simpa [Region.has_eq_false, Desc.dstR] using ha

/-- Memory at power-on is in canonical form. -/
theorem reset_mem_wf : Memory.wf State.reset.mem := by decide

/-- The reset event keeps the canonical form of memory. -/
theorem resetEngine_wf (h : Memory.wf s.mem) : Memory.wf (resetEngine s).mem := by
  unfold resetEngine
  cases s.busy <;> cases s.desc <;> first | exact h | exact Memory.writeBytes_wf h

end Reset

/-! ### Host accesses (`10_state.md` R21, R38, `60_exceptions.md` R179, `70_reset_and_hazards.md` R197) -/

section HostAccess

variable {s t : State} {a n : Nat}

/-- Everything a host access to the register window can do. -/
theorem regAccess_cases (host addr width : Nat) (act : Reg → State → Outcome State Fault Refusal) (s : State) :
    (touchesWindow s.cfg addr width = false ∧ regAccess host addr width act s = .next s)
      ∨ (∃ f, accessFault host addr width s = some f ∧ regAccess host addr width act s = .next (logFault f s))
      ∨ (accessFault host addr width s = none
          ∧ regAccess host addr width act s = act (regAt (addr - s.cfg.coreBase)) { s with regHost := some host }) := by
  cases ht : touchesWindow s.cfg addr width
  · exact .inl ⟨rfl, by simp [regAccess, ht]⟩
  · cases hf : accessFault host addr width s with
    | none => exact .inr (.inr ⟨rfl, by simp [regAccess, ht, hf]⟩)
    | some f => exact .inr (.inl ⟨f, rfl, by simp [regAccess, ht, hf]⟩)

/-- Every register is at its offset of the window. -/
theorem regAt_regOffset (r : Reg) : regAt (regOffset r) = r := by
  cases r with
  | reserved k => revert k; decide
  | _ => rfl

/-- An access that touches the window and is no model fault is an aligned 32-bit access at the offset of its register, by a host
that may access the window. -/
theorem accessFault_eq_none {host addr width : Nat} (hc : s.cfg.wf) (ht : touchesWindow s.cfg addr width = true)
    (hf : accessFault host addr width s = none) :
    width = 4 ∧ addr = s.cfg.coreBase + regOffset (regAt (addr - s.cfg.coreBase)) ∧ MayAccess s host := by
  unfold accessFault at hf
  split at hf
  · cases hf
  rename_i h1
  split at hf
  · cases hf
  rename_i h2
  simp only [not_or, not_not] at h1
  obtain ⟨rfl, h4⟩ := h1
  simp only [touchesWindow, bytesMeet, Bool.and_eq_true, decide_eq_true_eq] at ht
  refine ⟨rfl, ?_, ?_⟩
  · have h64 := hc.2.2
    obtain ⟨k, hk, rfl⟩ : ∃ k, k < 16 ∧ addr = s.cfg.coreBase + 4 * k :=
      ⟨(addr - s.cfg.coreBase) / 4, by omega, by omega⟩
    rw [Nat.add_sub_cancel_left]
    interval_cases k <;> rfl
  · cases hh : s.regHost with
    | none => exact .inl hh
    | some x =>
      simp only [hh, Option.any_some, bne_iff_ne, not_not] at h2
      exact .inr (by rw [hh, h2])

/-- Every command answers a next state. -/
theorem exec_next (i : Instr) (s : State) : ∃ t, exec i s = .next t := by cases i <;> exact ⟨_, rfl⟩

/-- Every aligned 32-bit register write answers a next state. -/
theorem writeReg_next (r : Reg) (v : Word) (s : State) : ∃ t, writeReg r v s = .next t := by
  cases r with
  | cmd =>
    change ∃ t, writeCmd v s = .next t
    unfold writeCmd
    split
    · exact exec_next _ _
    · exact ⟨_, rfl⟩
  | _ => exact ⟨_, rfl⟩

/-- A host access to the window answers a next state where the access of the register does. -/
theorem regAccess_next {host addr width : Nat} {act : Reg → State → Outcome State Fault Refusal}
    (h : ∀ r t, ∃ u, act r t = .next u) : ∃ t, regAccess host addr width act s = .next t := by
  rcases regAccess_cases host addr width act s with ⟨-, e⟩ | ⟨f, -, e⟩ | ⟨-, e⟩ <;> rw [e]
  · exact ⟨_, rfl⟩
  · exact ⟨_, rfl⟩
  · exact h _ _

/-- `ld.c` is the memory read and then the write of its temporary. -/
theorem hostLine_ldc_next {a : Word} (h : hostMemRead a.toNat 8 (nextLine s) = .next t) :
    hostLine (.ldc a n) s = .next (setC n (c64OfNat (natOfBytes t.memData)) t) := by
  simp only [hostLine, h]

/-- A temporary after a write of one. -/
@[simp] theorem getC_setC {j : Nat} {x : C64} : getC (setC n x s) j = if j = n then x else getC s j := sparseGet_set

/-- A temporary after a write of one. -/
@[simp] theorem getH_setH {j : Nat} {w : Word} : getH (setH n w s) j = if j = n then w else getH s j := sparseGet_set

/-- Everything a host write to memory can do. -/
theorem hostMemWrite_cases (a : Nat) (bs : List Byte) (s : State) :
    (addressSpace < a + bs.length ∧ hostMemWrite a bs s = .fault .noSuchAddress)
      ∨ (a + bs.length ≤ addressSpace ∧ isHazard s a bs.length = true
          ∧ hostMemWrite a bs s = .next (logFault (.hazard a bs.length) s))
      ∨ (a + bs.length ≤ addressSpace ∧ isHazard s a bs.length = false
          ∧ hostMemWrite a bs s = .next { s with mem := Memory.writeBytes s.mem a bs }) := by
  by_cases h : a + bs.length > addressSpace
  · exact .inl ⟨h, by simp [hostMemWrite, h]⟩
  · cases hz : isHazard s a bs.length
    · exact .inr (.inr ⟨by omega, rfl, by simp [hostMemWrite, h, hz]⟩)
    · exact .inr (.inl ⟨by omega, rfl, by simp [hostMemWrite, h, hz]⟩)

/-- Everything a host read of memory can do. -/
theorem hostMemRead_cases (a n : Nat) (s : State) :
    (addressSpace < a + n ∧ hostMemRead a n s = .fault .noSuchAddress)
      ∨ (a + n ≤ addressSpace
          ∧ hostMemRead a n s = .next { s with memData := hostBytes s s.draws a n
                                               draws := s.draws + (if s.busy then n else 0) }) := by
  by_cases h : a + n > addressSpace
  · exact .inl ⟨h, by simp [hostMemRead, h]⟩
  · exact .inr ⟨by omega, by simp only [hostMemRead, h, if_false]⟩

/-- A read of bytes none of which lies in `DSTR` of a running operation returns the bytes of memory. -/
theorem hostBytes_eq_readBytes {k : Nat} (h : ∀ b, a ≤ b → b < a + n → inBusyDst s b = false) :
    hostBytes s k a n = Memory.readBytes s.mem a n := by
  induction n generalizing k a with
  | zero => rfl
  | succ n ih =>
    simp only [hostBytes, Memory.readBytes]
    rw [h a (Nat.le_refl _) (by omega), ih fun b h1 h2 => h b (by omega) (by omega)]
    rfl

theorem inBusyDst_idle (h : s.busy = false) : inBusyDst s a = false := by simp [inBusyDst, h]

theorem isHazard_idle (h : s.busy = false) : isHazard s a n = false := by simp [isHazard, busyRegions, h]

end HostAccess

/-! ### One step (`00_scope.md` R6) -/

section Step

variable {s t : State}

/-- A step with a next state: no model fault is logged, and the state is what the next input gives. -/
theorem step_eq_next : step s = .next t ↔ modelStop s = none ∧ proceed s = .next t := by
  unfold step
  cases modelStop s <;> simp

/-- After a model fault there is no further step (`60_exceptions.md` R179). -/
theorem step_of_modelStop {f : Fault} (h : modelStop s = some f) : step s = .fault f := by simp [step, h]

theorem step_of_not_modelStop (h : modelStop s = none) : step s = proceed s := by simp [step, h]

theorem proceed_nil (h : s.events = []) : proceed s = unscheduled s := by simp [proceed, h]

theorem proceed_cons {e : Event} {es : List Event} (h : s.events = e :: es) :
    proceed s = handle e { s with events := es } := by simp [proceed, h]

/-- The step of a state with a first input is what that input does. -/
theorem step_cons {e : Event} {es : List Event} (h : modelStop s = none) (he : s.events = e :: es) :
    step s = handle e { s with events := es } := by rw [step_of_not_modelStop h, proceed_cons he]

/-- The step of a state with nothing scheduled. -/
theorem step_nil (h : modelStop s = none) (he : s.events = []) : step s = unscheduled s := by
  rw [step_of_not_modelStop h, proceed_nil he]

/-- A log of failed checks alone stops nothing (`60_exceptions.md` R179). -/
theorem modelStop_of_checks (h : ∀ e ∈ s.mfaults, ∃ code, e = .check code) : modelStop s = none := by
  unfold modelStop
  rw [List.findSome?_eq_none_iff]
  intro e he
  obtain ⟨c, rfl⟩ := h e he
  rfl

end Step

end Sys2Proof.Machine
end

