-- ==== Sys2Proof/Laws/PerInstr.lean ====
section
/-! SUPPORT. Facts about every command as syntax, one lemma per constructor. -/

namespace Sys2Proof.Laws.EncodedWordLegal

/-- The word of a well-formed command is legal (`30_encoding.md` R85, R86). -/
def Statement (i : Instr) : Prop := i.wf = true → legal (encodeWord i) = true

theorem r2c (idx : Nat) : Statement (.r2c idx) := by
  intro h
  have h : idx < 256 := by simpa [Instr.wf] using h
  rw [legal_iff, encodeWord_r2c_toNat h]
  omega

theorem r2a (idx : Nat) : Statement (.r2a idx) := by
  intro h
  have h : idx < 256 := by simpa [Instr.wf] using h
  rw [legal_iff, encodeWord_r2a_toNat h]
  omega

theorem r4 (idx : Nat) : Statement (.r4 idx) := by
  intro h
  have h : idx < 256 := by simpa [Instr.wf] using h
  rw [legal_iff, encodeWord_r4_toNat h]
  omega

theorem init : Statement .init := by
  intro _
  rw [legal_iff, encodeWord_init_toNat]
  omega

end Sys2Proof.Laws.EncodedWordLegal
end

