-- ==== Sys2Proof/Tests/Slice0.lean ====
section
/-! SUPPORT. Tests with expected values from spec/ (the tables of `30_encoding.md`, `40_complex64.md`, `95_test_vectors.md`), and for
each statement with hypotheses a witness that meets them together. -/

namespace Sys2Proof.Tests

open Sys2Proof Sys2Proof.Machine

/-! ### Small states -/

/-- `m` with the elements `l` at `base`. -/
def store (base : Word) (l : List C64) (m : Memory) : Memory := l.zipIdx.foldl (fun m p => stC m base p.2 p.1) m

/-- Ready for the commands of N = 4: the source `[1, 2, 3, 4]` of V-R2-2 and the table `T4` of `95_test_vectors.md`. -/
def idle : State :=
  { State.reset with
    len := 4, src := 0x1000, dst := 0x1100, tw := 0x1200, twlen := 2
    mem := store 0x1000 [⟨0x3F800000, 0⟩, ⟨0x40000000, 0⟩, ⟨0x40400000, 0⟩, ⟨0x40800000, 0⟩]
      (store 0x1200 [⟨0x3F800000, 0⟩, ⟨0, 0xBF800000⟩] []) }

/-- The next state of an outcome, the power-on state where there is none. -/
def after (o : Host.Outcome State Fault Refusal) : State :=
  match o with
  | .next t => t
  | _ => State.reset

/-- `idle` after the issue of a command. -/
def busy (i : Instr) : State := after (exec i idle)

/-- `s` with the inputs `es`. -/
def on (s : State) (es : List Event) : State := { s with events := es }

/-- The input of an aligned 32-bit write at an offset of the window at address 0. -/
def wrAt (off : Nat) (v : Word) : Event := .access (.regWrite 0 (0 + off) 4 v)

/-- The input of an aligned 32-bit read at an offset of the window at address 0. -/
def rdAt (off : Nat) : Event := .access (.regRead 0 (0 + off) 4)

/-- `idle` with a host program. -/
def program (l : List HostLine) : State := { idle with prog := l, events := [.host] }

/-! ### Well-formedness: an ill-formed term for each check -/

theorem test_wf_r2c : (Instr.r2c 256).wf = false ∧ (Instr.r2c 255).wf = true := by decide

theorem test_wf_r2a : (Instr.r2a 256).wf = false ∧ (Instr.r2a 255).wf = true := by decide

theorem test_wf_r4 : (Instr.r4 256).wf = false ∧ (Instr.r4 255).wf = true := by decide

/-! ### Decoding: words written out from `30_encoding.md` R80, R81 as RSV1, IDX, RSV0, OP -/

theorem test_decode_r2c : decodeWord (0b0000000000000000#16 ++ 0b10100101#8 ++ 0b0000#4 ++ 0b0001#4) = .ok (.r2c 165) := by
  decide

theorem test_decode_r2a : decodeWord (0b0000000000000000#16 ++ 0b00000010#8 ++ 0b0000#4 ++ 0b0010#4) = .ok (.r2a 2) := by
  decide

theorem test_decode_r4 : decodeWord (0b0000000000000000#16 ++ 0b10000001#8 ++ 0b0000#4 ++ 0b0011#4) = .ok (.r4 129) := by
  decide

theorem test_decode_init : decodeWord (0b0000000000000000#16 ++ 0b00000000#8 ++ 0b0000#4 ++ 0b0100#4) = .ok .init := by
  decide

/-- V-EN-6 to V-EN-11 of `95_test_vectors.md`. -/
theorem test_decode_illegal :
    decodeWord 0x00000204 = .error .initIdx ∧ decodeWord 0x000000F3 = .error .reservedBits
      ∧ decodeWord 0x80000003 = .error .reservedBits ∧ decodeWord 0x00000005 = .error .badOp
      ∧ decodeWord 0x0000000F = .error .badOp ∧ decodeWord 0x00000000 = .error .badOp := by decide

/-- V-EN-2: the bytes of `0x0000FF01`, the least significant first, with a byte after them. -/
theorem test_decode_bytes : decode [0x01, 0xFF, 0x00, 0x00, 0xAA] = .ok (.r2c 255, [0xAA]) := by decide

theorem test_decode_truncated : decode [0x01, 0x00, 0x00] = .error .truncated := by decide

/-- `30_encoding.md` R90: the disassembly of a legal and of an illegal word. -/
theorem test_disassemble : disassemble 0x00000301 = "r2c 3" ∧ disassemble 0x80000003 = ".word 0x80000003" := by decide

/-! ### One step each -/

/-- A command word handed over at power-on runs: `LEN = 0` fails `BAD_LEN` (`60_exceptions.md` R163). -/
theorem test_fetch_runs :
    let s := after (step (State.reset.withFetchWord 32 0x00000103))
    s.cmd = 0x00000103 ∧ s.fault = true ∧ s.cause = 0x02 ∧ s.events = [] := by decide

/-- `41_radix2.md` R122: idx 1 of N = 4 has the blocks 0 and 1 of one offset. -/
theorem test_issue_r2c :
    (busy (.r2c 1)).pending = [.pair 0 0, .pair 1 0] ∧ (busy (.r2c 1)).busy = true := by decide

/-- V-R2-2: `BF2(0, 0)` gives `dst[0] = 4` and `dst[2] = -2`. -/
theorem test_group_r2c :
    let m := (after (step (on (busy (.r2c 0)) [.engine 0]))).mem
    ldC m 0x1100 0 = ⟨0x40800000, 0⟩ ∧ ldC m 0x1100 2 = ⟨0xC0000000, 0⟩ := by decide +kernel

/-- `41_radix2.md` R123: with stride 2 of half 2, `i = 0` and `O = o`. -/
theorem test_issue_r2a : (busy (.r2a 0)).pending = [.pair 0 0, .pair 0 1] := by decide

/-- V-R2-2: the group of `o = 1` is `BF2(0, 1)`, which gives `dst[1] = 6` and `dst[3] = -2`. -/
theorem test_group_r2a :
    let m := (after (step (on (busy (.r2a 0)) [.engine 1]))).mem
    ldC m 0x1100 1 = ⟨0x40C00000, 0⟩ ∧ ldC m 0x1100 3 = ⟨0xC0000000, 0⟩ := by decide +kernel

/-- `42_radix4.md` R142: N = 4 has one group, and idx 1 makes the stride 0. -/
theorem test_issue_r4 : (busy (.r4 0)).pending = [.pair 0 0] ∧ (busy (.r4 1)).cause = 0x03 := by decide

/-- The example of `42_radix4.md` R142: an impulse at element 1. -/
theorem test_group_r4 :
    let s := { idle with mem := store 0x1000 [⟨0, 0⟩, ⟨0x3F800000, 0⟩, ⟨0, 0⟩, ⟨0, 0⟩] (store 0x1200 [⟨0x3F800000, 0⟩] []) }
    let m := (after (step (on (after (exec (.r4 0) s)) [.engine 0]))).mem
    ldC m 0x1100 0 = ⟨0x3F800000, 0⟩ ∧ ldC m 0x1100 1 = ⟨0, 0xBF800000⟩ ∧ ldC m 0x1100 2 = ⟨0xBF800000, 0⟩
      ∧ ldC m 0x1100 3 = ⟨0, 0x3F800000⟩ := by decide +kernel

/-- `42_radix4.md` R146: N = 6 is even, and has three groups. -/
theorem test_issue_init : (after (exec .init { idle with len := 6 })).pending = [.index 0, .index 1, .index 2] := by decide

/-- E1 of `95_test_vectors.md`: `[1, 2]` gives `[3, -1]` in place. -/
theorem test_group_init :
    let s := { idle with len := 2, dst := 0x1000 }
    let m := (after (step (on (after (exec .init s)) [.engine 0]))).mem
    ldC m 0x1000 0 = ⟨0x40400000, 0⟩ ∧ ldC m 0x1000 1 = ⟨0xBF800000, 0⟩ := by decide +kernel

/-- V-RG-9: with a fault of cause 4, writing 0x2 to `STATUS` leaves it 0x00000404. -/
theorem test_status_w1c :
    statusWord (after (step { on idle [wrAt 0x04 0x2] with fault := true, cause := 4, done := true })) = 0x00000404 := by
  decide

/-- V-DP-1: subnormals are kept, and `x + (-x)` is `+0`. -/
theorem test_cadd_subnormal : cadd 0 ⟨1, 1⟩ ⟨1, 0x80000001⟩ = ⟨2, 0⟩ := by decide

/-- V-DP-2: `-0 - +0` is `-0`. -/
theorem test_csub_zeros : csub 0 ⟨0x80000000, 0⟩ ⟨0, 0⟩ = ⟨0x80000000, 0⟩ := by decide

/-- E3 of `95_test_vectors.md`: `(1, 2) * (3, 4) = (-5, 10)`. -/
theorem test_cmul : cmul 0 ⟨0x3F800000, 0x40000000⟩ ⟨0x40400000, 0x40800000⟩ = ⟨0xC0A00000, 0x41200000⟩ := by decide

/-! ### Witnesses: encoding and the step -/

theorem witness_DecodeOfEncode :
    (Instr.r2c 255).wf = true ∧ (Instr.r2a 0).wf = true ∧ (Instr.r4 128).wf = true ∧ Instr.init.wf = true := by decide

theorem witness_CommandWordRoundTrip :
    LegalWord 0x0000FF01 ∧ LegalWord 0x0000FF02 ∧ LegalWord 0x0000FF03 ∧ LegalWord 0x00000004
      ∧ decodeWord 0x0000FF03 = .ok (.r4 255) ∧ (Instr.r2a 255).wf = true := by decide

theorem witness_StepRunsDecodedCommand :
    NextInput (on idle [wrAt 0x00 0x101]) (wrAt 0x00 0x101) [] ∧ MayAccess (on idle [wrAt 0x00 0x101]) 0
      ∧ NextInput (program [.wr .cmd 0x101]) .host [] ∧ MayAccess (program [.wr .cmd 0x101]) 0
      ∧ (program [.wr .cmd 0x101]).halted = false
      ∧ (program [.wr .cmd 0x101]).prog[(program [.wr .cmd 0x101]).hpc]? = some (.wr .cmd 0x101)
      ∧ decodeWord 0x101 = .ok (.r2c 1) ∧ modelStop State.reset = none ∧ State.reset.cfg.wf
      ∧ decodeTableWord 32 0x101 = some (.r2c 1) := by decide

/-- One word for each way of being illegal (`60_exceptions.md` R162). -/
theorem witness_IllegalCommandFaults :
    (∀ w, NextInput (on idle [wrAt 0x00 w]) (wrAt 0x00 w) [] ∧ MayAccess (on idle [wrAt 0x00 w]) 0
        ∧ (on idle [wrAt 0x00 w]).busy = false)
      ∧ ¬ LegalWord 0x00000000 ∧ ¬ LegalWord 0x00000005 ∧ ¬ LegalWord 0x00000010 ∧ ¬ LegalWord 0x00010001
      ∧ ¬ LegalWord 0x00000104 :=
  ⟨fun _ => ⟨⟨rfl, (by decide : State.reset.cfg.wf), rfl⟩, .inl rfl, rfl⟩, by decide, by decide, by decide, by decide, by decide⟩

/-! ### Witnesses: issue -/

/-- A region inside `[0x1000, 0x3000)` at a multiple of 8 is usable where that range is admitted. -/
theorem regionUsable_of {s : State} {r : Region} (hs : s.cfg.admitted = [(0x1000, 0x3000)]) (h8 : r.1 % 8 = 0)
    (hlo : 0x1000 ≤ r.1) (hhi : r.1 + 8 * r.2 ≤ 0x3000) : RegionUsable s r := by
  refine ⟨h8, by omega, fun a ha => ?_⟩
  rw [Region.has_iff] at ha
  have h : a < 4294967296 ∧ 0x1000 ≤ a ∧ a < 0x3000 := by omega
  simp [admits, hs, addressSpace, h]

/-- The stage operations of N = 4 on `idle` for an index that R120 and R140 admit. -/
theorem idle_stageAdmitted {op : Op} {lo idx : Nat} (hlo : idx + lo ≤ 2)
    (htw : twReq op 4 idx ≤ 2) : StageAdmitted op lo idx idle := by
  have hn : twReq op 4 idx + 0 ≤ 2 := htw
  refine ⟨⟨2, rfl, by omega, by decide, hlo⟩, htw, regionUsable_of (r := (0x1000, 4)) rfl (by decide) (by decide) (by decide),
    regionUsable_of (r := (0x1100, 4)) rfl (by decide) (by decide) (by decide),
    regionUsable_of (r := (0x1200, twReq op 4 idx)) rfl
      (show 0x1200 % 8 = 0 by decide) (show 0x1000 ≤ 0x1200 by decide) ?_, ?_⟩
  · change 0x1200 + 8 * twReq op 4 idx ≤ 0x3000
    omega
  · intro a ha
    rw [Region.has_iff] at ha
    change 0x1100 ≤ a ∧ a < 0x1100 + 8 * 4 at ha
    rw [Region.has_eq_false, Region.has_eq_false]
    change (a < 0x1000 ∨ 0x1000 + 8 * 4 ≤ a) ∧ (a < 0x1200 ∨ 0x1200 + 8 * twReq op 4 idx ≤ a)
    omega

/-- The first and the last stage index of N = 4. -/
theorem witness_R2cIssueAccepted :
    idle.busy = false ∧ StageAdmitted .r2c 1 0 idle ∧ StageAdmitted .r2c 1 1 idle :=
  ⟨rfl, idle_stageAdmitted (by decide) (by decide), idle_stageAdmitted (by decide) (by decide)⟩

theorem witness_R2aIssueAccepted :
    idle.busy = false ∧ StageAdmitted .r2a 1 0 idle ∧ StageAdmitted .r2a 1 1 idle :=
  ⟨rfl, idle_stageAdmitted (by decide) (by decide), idle_stageAdmitted (by decide) (by decide)⟩

theorem witness_R4IssueAccepted : idle.busy = false ∧ StageAdmitted .r4 2 0 idle :=
  ⟨rfl, idle_stageAdmitted (by decide) (by decide)⟩

/-- The smallest length, and one that is no power of two. -/
theorem witness_InitIssueAccepted :
    idle.busy = false ∧ InitAdmitted { idle with len := 2 } ∧ InitAdmitted { idle with len := 6 } :=
  ⟨rfl, ⟨by decide, by decide, by decide, regionUsable_of rfl rfl (by decide) (by decide)⟩,
    ⟨by decide, by decide, by decide, regionUsable_of rfl rfl (by decide) (by decide)⟩⟩

/-- Three is no power of two. -/
theorem three_ne_pow {m : Nat} : 3 ≠ 2 ^ m := by
  intro h
  match m with
  | 0 => omega
  | 1 => omega
  | m + 2 => rw [pow_add] at h; omega

/-- The first failing check of `R2C` in a state with `N = 4` is not `BAD_LEN`. -/
theorem r2c_len_ok {s : State} {k : Nat} (hn : s.len = 4) (hc : s.cfg.log2NMax = 10) :
    ¬ CheckFails .badLen s (commandDesc (.r2c k) s) := by
  refine fun h => h ⟨2, ?_, by decide, ?_⟩
  · exact congrArg BitVec.toNat hn
  · change s.len.toNat ≤ _
    rw [hn, hc]
    decide

theorem witness_FailedIssue_badLen :
    CheckFails .badLen { idle with len := 3 } (commandDesc (.r2c 0) { idle with len := 3 })
      ∧ ∀ c' : Check, c'.code.toNat < Check.badLen.code.toNat →
          ¬ CheckFails c' { idle with len := 3 } (commandDesc (.r2c 0) { idle with len := 3 }) := by
  refine ⟨fun ⟨m, h, _⟩ => three_ne_pow h, fun c' h => ?_⟩
  cases c' with
  | illegalCmd => exact id
  | _ => exact absurd h (by decide)

/-- `2^2 > N' = 2`. -/
theorem witness_FailedIssue_badIdx :
    CheckFails .badIdx idle (commandDesc (.r2c 2) idle)
      ∧ ∀ c' : Check, c'.code.toNat < Check.badIdx.code.toNat → ¬ CheckFails c' idle (commandDesc (.r2c 2) idle) := by
  refine ⟨by unfold CheckFails; decide, fun c' h => ?_⟩
  cases c' with
  | illegalCmd => exact id
  | badLen => exact r2c_len_ok rfl rfl
  | _ => exact absurd h (by decide)

theorem witness_FailedIssue_twShort :
    CheckFails .twShort { idle with twlen := 1 } (commandDesc (.r2c 0) { idle with twlen := 1 })
      ∧ ∀ c' : Check, c'.code.toNat < Check.twShort.code.toNat →
          ¬ CheckFails c' { idle with twlen := 1 } (commandDesc (.r2c 0) { idle with twlen := 1 }) := by
  refine ⟨by unfold CheckFails; decide, fun c' h => ?_⟩
  cases c' with
  | illegalCmd => exact id
  | badLen => exact r2c_len_ok rfl rfl
  | badIdx => unfold CheckFails; decide
  | _ => exact absurd h (by decide)

theorem witness_FailedIssue_misaligned :
    CheckFails .misaligned { idle with tw := 0x1204 } (commandDesc (.r2c 0) { idle with tw := 0x1204 })
      ∧ ∀ c' : Check, c'.code.toNat < Check.misaligned.code.toNat →
          ¬ CheckFails c' { idle with tw := 0x1204 } (commandDesc (.r2c 0) { idle with tw := 0x1204 }) := by
  refine ⟨by unfold CheckFails; decide, fun c' h => ?_⟩
  cases c' with
  | illegalCmd => exact id
  | badLen => exact r2c_len_ok rfl rfl
  | badIdx => unfold CheckFails; decide
  | twShort => unfold CheckFails; decide
  | _ => exact absurd h (by decide)

/-- The region ends 8 bytes beyond `2^32`. -/
theorem witness_FailedIssue_range :
    CheckFails .range { idle with src := 0xFFFFFFE8 } (commandDesc (.r2c 0) { idle with src := 0xFFFFFFE8 })
      ∧ ∀ c' : Check, c'.code.toNat < Check.range.code.toNat →
          ¬ CheckFails c' { idle with src := 0xFFFFFFE8 } (commandDesc (.r2c 0) { idle with src := 0xFFFFFFE8 }) := by
  refine ⟨by unfold CheckFails; decide, fun c' h => ?_⟩
  cases c' with
  | illegalCmd => exact id
  | badLen => exact r2c_len_ok rfl rfl
  | badIdx => unfold CheckFails; decide
  | twShort => unfold CheckFails; decide
  | misaligned => unfold CheckFails; decide
  | _ => exact absurd h (by decide)

/-- The destination starts at the last element of the source. -/
theorem witness_FailedIssue_overlap :
    CheckFails .overlap { idle with dst := 0x1018 } (commandDesc (.r2c 0) { idle with dst := 0x1018 })
      ∧ ∀ c' : Check, c'.code.toNat < Check.overlap.code.toNat →
          ¬ CheckFails c' { idle with dst := 0x1018 } (commandDesc (.r2c 0) { idle with dst := 0x1018 }) := by
  refine ⟨⟨by decide, 0x1018, by decide, .inl (by decide)⟩, fun c' h => ?_⟩
  cases c' with
  | illegalCmd => exact id
  | badLen => exact r2c_len_ok rfl rfl
  | badIdx => unfold CheckFails; decide
  | twShort => unfold CheckFails; decide
  | misaligned => unfold CheckFails; decide
  | range => unfold CheckFails; decide
  | _ => exact absurd h (by decide)

/-- The last element of `INIT`'s buffer is not admitted. -/
theorem witness_FailedIssue_bus :
    CheckFails .bus { idle with dst := 0x2FE8 } (commandDesc .init { idle with dst := 0x2FE8 })
      ∧ ∀ c' : Check, c'.code.toNat < Check.bus.code.toNat →
          ¬ CheckFails c' { idle with dst := 0x2FE8 } (commandDesc .init { idle with dst := 0x2FE8 }) := by
  refine ⟨⟨(0x2FE8, 4), by decide, 0x3000, by decide, by decide⟩, fun c' h => ?_⟩
  cases c' with
  | illegalCmd => exact id
  | badLen =>
    change ¬¬(_ ∧ _ ∧ _)
    decide
  | badIdx => unfold CheckFails; decide
  | twShort => unfold CheckFails; decide
  | misaligned => unfold CheckFails; decide
  | range => unfold CheckFails; decide
  | overlap => exact fun f => f.1 rfl
  | bus => exact absurd h (by decide)

/-- Both sides of each bound: radix-2 at m = 1, radix-4 at m = 2, and the shift by 32. -/
theorem witness_BadIdxIsShiftPastN :
    (latch .r2c 0 { idle with len := 2 }).n.toNat = 2 ^ 1 ∧ (latch .r2c 1 { idle with len := 2 }).n.toNat = 2 ^ 1
      ∧ (latch .r4 0 idle).n.toNat = 2 ^ 2 ∧ (latch .r4 1 idle).n.toNat = 2 ^ 2
      ∧ (latch .r2c 32 { idle with len := 8 }).n = 8 := by decide

/-! ### Witnesses: the register window -/

/-- Every offset of every clause, while busy. -/
theorem witness_BusyWritesDropped :
    ∀ off ∈ [0x00, 0x0C, 0x10, 0x14, 0x18, 0x1C, 0x04, 0x08, 0x20, 0x24, 0x28, 0x2C, 0x30, 0x34, 0x38, 0x3C],
      NextInput (on (busy .init) [wrAt off 5]) (wrAt off 5) [] ∧ MayAccess (on (busy .init) [wrAt off 5]) 0
        ∧ (on (busy .init) [wrAt off 5]).busy = true := by decide

/-- Every offset of every clause, while idle. -/
theorem witness_RegisterWrites :
    ∀ off ∈ [0x08, 0x0C, 0x10, 0x14, 0x18, 0x1C, 0x20, 0x24, 0x28, 0x2C, 0x30, 0x34, 0x38, 0x3C],
      NextInput (on idle [wrAt off 5]) (wrAt off 5) [] ∧ MayAccess (on idle [wrAt off 5]) 0
        ∧ (on idle [wrAt off 5]).busy = false := by decide

theorem witness_StatusWriteClears :
    NextInput (on idle [wrAt 0x04 0xFFFFFFFF]) (wrAt 0x04 0xFFFFFFFF) []
      ∧ MayAccess (on idle [wrAt 0x04 0xFFFFFFFF]) 0 := by decide

theorem witness_RegisterReads :
    ∀ off ∈ [0x00, 0x04, 0x08, 0x0C, 0x10, 0x14, 0x18, 0x1C, 0x20, 0x24, 0x3C],
      NextInput (on idle [rdAt off]) (rdAt off) [] ∧ MayAccess (on idle [rdAt off]) 0 := by decide

theorem witness_RegisterWordFields : State.reset.cfg.wf := by decide

/-- A byte at each end of the window, and an unaligned word that reaches into it from below. -/
theorem witness_BadAccessIsModelFault :
    ∀ p ∈ [(64, 1), (127, 1), (61, 4), (126, 4)],
      let s := { on idle [.access (.regWrite 0 p.1 p.2 7)] with cfg := { idle.cfg with coreBase := 64 } }
      NextInput s (.access (.regWrite 0 p.1 p.2 7)) []
        ∧ (p.2 ≠ 4 ∨ p.1 % 4 ≠ 0) ∧ 0 < p.2 ∧ p.1 < s.cfg.coreBase + 64 ∧ s.cfg.coreBase < p.1 + p.2 := by decide

/-- The first and the last word of the window. -/
theorem witness_SecondHostIsModelFault :
    ∀ addr ∈ [0, 60],
      let s := { on idle [.access (.regRead 1 addr 4)] with regHost := some 0 }
      NextInput s (.access (.regRead 1 addr 4)) [] ∧ s.regHost = some 0 ∧ 0 ≠ 1 ∧ addr % 4 = 0
        ∧ s.cfg.coreBase ≤ addr ∧ addr < s.cfg.coreBase + 64 := by decide

/-- A logged model fault; and a log of failed checks alone, before a step and before an access that leaves memory. -/
theorem witness_OnlyModelFaultsEndTheRun :
    (∃ (s : State) (f : MFault), f ∈ s.mfaults ∧ ∀ code, f ≠ .check code)
      ∧ (∃ s : State, s.mfaults = [.check 2] ∧ (∀ e ∈ s.mfaults, ∃ code, e = .check code) ∧ ∃ t, step s = .next t)
      ∧ ∃ s : State, (∀ e ∈ s.mfaults, ∃ code, e = .check code) ∧ step s = .fault .noSuchAddress :=
  ⟨⟨{ idle with mfaults := [.multiHost 1] }, .multiHost 1, by decide, by simp⟩,
    ⟨{ on idle [wrAt 0x00 1] with mfaults := [.check 2] }, rfl, by simp, ⟨_, rfl⟩⟩,
    ⟨{ on idle [.access (.memWrite 0xFFFFFFFF [0, 0])] with mfaults := [.check 2] }, by simp, rfl⟩⟩

/-! ### Witnesses: groups -/

theorem witness_GroupSetsAreG2G4GI :
    0 < 2 ∧ 2 ∣ 4 ∧ Group.pair 2 1 ∈ groupsR2c 4 2 ∧ Group.pair 2 1 ∈ groupsR4 4 2 ∧ Group.index 3 ∈ groupsInit 4 := by
  decide

/-- The largest and the smallest stride of half 4. -/
theorem witness_R2aGroupsAreR2cGroups :
    Group.pair 0 3 ∈ groupsR2c (2 ^ 2) (2 ^ 2) ∧ Group.pair 3 0 ∈ groupsR2c (2 ^ 2) (2 ^ 0) := by decide

theorem witness_Radix2IndexFacts :
    Group.pair 0 3 ∈ groupsR2c (2 ^ 2) (2 ^ 2) ∧ Group.pair 3 0 ∈ groupsR2c (2 ^ 2) (2 ^ 0) ∧ 3 < 2 ^ 2 ∧ 2 ^ 0 ∣ 3 := by
  decide

theorem witness_Radix4IndexFacts :
    Group.pair 0 3 ∈ groupsR4 (2 ^ 2) (2 ^ 2) ∧ Group.pair 3 0 ∈ groupsR4 (2 ^ 2) (2 ^ 0) ∧ 3 < 2 ^ 2 ∧ 2 ^ 0 ∣ 3 := by
  decide

/-- N = 16: the strides 4 and 2 of half 8 and quarter 4. -/
theorem witness_TwiddleReadsBounded :
    8 = 16 / 2 ∧ 4 = 8 / 2 ^ 1 ∧ 0 < 4 ∧ 4 ∣ 8 ∧ Group.pair 4 3 ∈ groupsR2c 8 4 ∧ 4 = 16 / 4 ∧ 2 = 4 / 2 ^ 1 ∧ 2 ∣ 4
      ∧ Group.pair 2 1 ∈ groupsR4 4 2 := by decide

/-! ### Witnesses: engine steps and whole operations -/

theorem witness_Radix2GroupStep_r2c :
    let s := on (busy (.r2c 1)) [.engine 1]
    MachineInv s ∧ NextInput s (.engine 1) [] ∧ s.desc = some (commandDesc (.r2c 1) idle)
      ∧ chosenGroup 1 s = some (.pair 1 0) := by decide +kernel

theorem witness_Radix2GroupStep_r2a :
    let s := on (busy (.r2a 0)) [.engine 3]
    MachineInv s ∧ NextInput s (.engine 3) [] ∧ s.desc = some (commandDesc (.r2a 0) idle)
      ∧ chosenGroup 3 s = some (.pair 0 1) := by decide +kernel

theorem witness_Radix4GroupStep :
    let s := on (busy (.r4 0)) [.engine 0]
    MachineInv s ∧ NextInput s (.engine 0) [] ∧ s.desc = some (commandDesc (.r4 0) idle)
      ∧ chosenGroup 0 s = some (.pair 0 0) := by decide +kernel

theorem witness_InitGroupStep :
    let s := on (busy .init) [.engine 1]
    MachineInv s ∧ NextInput s (.engine 1) [] ∧ s.desc = some (commandDesc .init idle)
      ∧ chosenGroup 1 s = some (.index 1) := by decide +kernel

theorem witness_CompletionStep :
    let s := { on (busy .init) [.engine 9] with pending := [] }
    MachineInv s ∧ NextInput s (.engine 9) [] ∧ s.busy = true ∧ s.pending = [] := by decide +kernel

/-- Idle, with groups left, and with none. -/
theorem witness_EngineWritesOnlyDestination :
    MachineInv (on idle [.engine 0]) ∧ NextInput (on idle [.engine 0]) (.engine 0) []
      ∧ MachineInv (on (busy (.r4 0)) [.engine 0]) ∧ NextInput (on (busy (.r4 0)) [.engine 0]) (.engine 0) []
      ∧ (busy (.r4 0)).desc = some (commandDesc (.r4 0) idle) ∧ (commandDesc (.r4 0) idle).dstR.has 0x1120 = false :=
  ⟨by decide +kernel, by decide +kernel, by decide +kernel, by decide +kernel, by decide +kernel, by decide +kernel⟩

theorem witness_Radix2WholeStage :
    JustAccepted (on (busy (.r2c 1)) ([5, 0, 3].map Event.engine)) (commandDesc (.r2c 1) idle) [5, 0, 3]
      ∧ JustAccepted (on (busy (.r2a 0)) ([0, 0, 0].map Event.engine)) (commandDesc (.r2a 0) idle) [0, 0, 0]
      ∧ (1 : Nat) < 4 / 2 ∧ 1 ∣ 1 :=
  ⟨by decide +kernel, by decide +kernel, by decide +kernel, by decide +kernel⟩

theorem witness_Radix4WholeStage :
    JustAccepted (on (busy (.r4 0)) ([0, 7].map Event.engine)) (commandDesc (.r4 0) idle) [0, 7] := by decide +kernel

theorem witness_InitWholeStage :
    JustAccepted (on (busy .init) ([1, 0, 4].map Event.engine)) (commandDesc .init idle) [1, 0, 4] := by decide +kernel

/-- With engine steps scheduled, and with nothing scheduled. -/
theorem witness_OperationCompletes :
    let s := on (busy (.r2c 0)) ([1, 0, 0].map Event.engine)
    MachineInv s ∧ modelStop s = none ∧ s.busy = true ∧ s.events = [1, 0, 0].map Event.engine
      ∧ [1, 0, 0].length = s.pending.length + 1 ∧ MachineInv (busy (.r2c 0)) ∧ (busy (.r2c 0)).events = [] :=
  ⟨by decide +kernel, by decide +kernel, by decide +kernel, by decide +kernel, by decide +kernel, by decide +kernel, by decide +kernel⟩

theorem witness_R2aMatchesR2c :
    JustAccepted (on (busy (.r2c 1)) ([0, 0, 0].map Event.engine)) (commandDesc (.r2c 1) idle) [0, 0, 0]
      ∧ JustAccepted (on (busy (.r2a 1)) ([1, 0, 0].map Event.engine)) { commandDesc (.r2c 1) idle with op := .r2a } [1, 0, 0]
      ∧ (busy (.r2c 1)).mem = (busy (.r2a 1)).mem :=
  ⟨by decide +kernel, by decide +kernel, by decide +kernel⟩

/-- Two memories that differ in a byte of `DSTR` and in a byte outside every region; and `INIT`. -/
theorem witness_ResultDependsOnlyOnInputs :
    let s₁ := on (busy (.r2c 1)) ([0, 0, 0].map Event.engine)
    let s₂ := { on (busy (.r2c 1)) ([1, 0, 0].map Event.engine) with
      mem := Memory.write (Memory.write idle.mem 0x1100 7) 0x2000 9 }
    let d := commandDesc (.r2c 1) idle
    let u := on (busy .init) ([0, 0, 0].map Event.engine)
    (JustAccepted s₁ d [0, 0, 0] ∧ JustAccepted s₂ d [1, 0, 0]
        ∧ (∀ k, k < d.n.toNat → ldC s₁.mem d.srcB k = ldC s₂.mem d.srcB k)
        ∧ ∀ k, k < twReq d.op d.n.toNat d.idx → ldC s₁.mem d.twB k = ldC s₂.mem d.twB k)
      ∧ JustAccepted u (commandDesc .init idle) [0, 0, 0] :=
  ⟨⟨by decide +kernel, by decide +kernel, by decide +kernel, by decide +kernel⟩, by decide +kernel⟩

/-! ### Witnesses: the host -/

/-- While busy, right after the last byte of `DSTR`; and the last byte of memory. -/
theorem witness_HostWriteStores :
    let s := on (busy (.r2c 0)) [.access (.memWrite 0x1120 [1])]
    NextInput s (.access (.memWrite 0x1120 [1])) [] ∧ (0x1120 : Word).toNat + [(1 : Byte)].length ≤ 2 ^ 32
      ∧ (∀ d r x, s.busy = true → s.desc = some d → r ∈ d.used → (0x1120 : Word).toNat ≤ x →
          x < (0x1120 : Word).toNat + [(1 : Byte)].length → r.has x = false)
      ∧ NextInput (on idle [.access (.memWrite 0xFFFFFFFF [1])]) (.access (.memWrite 0xFFFFFFFF [1])) []
      ∧ (0xFFFFFFFF : Word).toNat + [(1 : Byte)].length ≤ 2 ^ 32 := by
  refine ⟨by decide, by decide, fun d r x _ hd hr hlo hhi => ?_, by decide, by decide⟩
  obtain rfl : commandDesc (.r2c 0) idle = d := Option.some.inj hd
  have hx : x = 0x1120 := by
    change 0x1120 ≤ x at hlo
    change x < 0x1120 + 1 at hhi
    omega
  subst hx
  revert r
  decide

/-- The last byte of `DSTR`, `SRCR` and `TWR`. -/
theorem witness_HostWriteHazard :
    (∀ a, NextInput (on (busy (.r2c 0)) [.access (.memWrite a [1])]) (.access (.memWrite a [1])) []
        ∧ (on (busy (.r2c 0)) [.access (.memWrite a [1])]).busy = true
        ∧ (on (busy (.r2c 0)) [.access (.memWrite a [1])]).desc = some (commandDesc (.r2c 0) idle))
      ∧ (commandDesc (.r2c 0) idle).dstR ∈ (commandDesc (.r2c 0) idle).used
      ∧ (commandDesc (.r2c 0) idle).srcR ∈ (commandDesc (.r2c 0) idle).used
      ∧ (commandDesc (.r2c 0) idle).twR ∈ (commandDesc (.r2c 0) idle).used
      ∧ (commandDesc (.r2c 0) idle).dstR.has (0x111F : Word).toNat = true
      ∧ (commandDesc (.r2c 0) idle).srcR.has (0x101F : Word).toNat = true
      ∧ (commandDesc (.r2c 0) idle).twR.has (0x120F : Word).toNat = true ∧ (0x120F : Word).toNat + 1 ≤ 2 ^ 32 :=
  ⟨fun _ => ⟨⟨rfl, (by decide : State.reset.cfg.wf), rfl⟩, rfl, rfl⟩, by decide, by decide, by decide, by decide,
    by decide, by decide, by decide⟩

/-- A read that ends in `DSTR` while busy, and one that ends at the last byte of memory. -/
theorem witness_HostReadReturnsCurrent :
    NextInput (on (busy (.r2c 0)) [.access (.memRead 0x10FE 4)]) (.access (.memRead 0x10FE 4)) []
      ∧ (0x10FE : Word).toNat + 4 ≤ 2 ^ 32 ∧ (commandDesc (.r2c 0) idle).dstR.has (0x10FE + 1) = false
      ∧ NextInput (on idle [.access (.memRead 0xFFFFFFFC 4)]) (.access (.memRead 0xFFFFFFFC 4)) []
      ∧ (0xFFFFFFFC : Word).toNat + 4 ≤ 2 ^ 32 := by decide

theorem witness_HostAccessBeyondMemoryStops :
    NextInput (on idle [.access (.memWrite 0xFFFFFFFF [1, 2])]) (.access (.memWrite 0xFFFFFFFF [1, 2])) []
      ∧ 2 ^ 32 < (0xFFFFFFFF : Word).toNat + [(1 : Byte), 2].length
      ∧ NextInput (on idle [.access (.memRead 0xFFFFFFFF 2)]) (.access (.memRead 0xFFFFFFFF 2)) []
      ∧ 2 ^ 32 < (0xFFFFFFFF : Word).toNat + 2 := by decide

/-- As lines while busy: `st.c` to the last element of `DSTR`, and `ld.c` inside memory and beyond it. -/
theorem witness_StoreElementThenLoad_lines :
    ∀ line ∈ [HostLine.stc 0x1118 ⟨1, 2⟩, .ldc 0x1118 3, .ldc 0xFFFFFFF8 3, .ldc 0xFFFFFFF9 3],
      let s := { busy (.r2c 0) with prog := [line], events := [.host] }
      NextInput s .host [] ∧ s.halted = false ∧ s.prog[s.hpc]? = some line ∧ s.busy = true := by decide

/-- `st.c` to a used region of a running operation is the model fault `HAZARD` (`70_reset_and_hazards.md` R197). -/
theorem test_stc_hazard :
    (after (step { busy (.r2c 0) with prog := [.stc 0x1118 ⟨1, 2⟩], events := [.host] })).mfaults
      = [.hazard 0x1118 8] := by decide +kernel

/-- The last element of memory. -/
theorem witness_StoreElementThenLoad :
    let s := on (program [.stc 0xFFFFFFF8 ⟨1, 2⟩, .ldc 0xFFFFFFF8 3]) [.host, .host]
    NextInput s .host [.host] ∧ s.busy = false ∧ s.halted = false ∧ s.prog[s.hpc]? = some (.stc 0xFFFFFFF8 ⟨1, 2⟩)
      ∧ s.prog[s.hpc + 1]? = some (.ldc 0xFFFFFFF8 3) ∧ (0xFFFFFFF8 : Word).toNat + 8 ≤ 2 ^ 32 := by decide

/-- Each line of the statement, the branches to a label further on. -/
theorem witness_HostControlLines :
    ∀ line ∈ [HostLine.label 5, .fence, .bnz 0 1 7, .bz 0 1 7, .halt],
      let s := program [line, .label 7]
      NextInput s .host [] ∧ s.halted = false ∧ s.prog[s.hpc]? = some line ∧ s.prog[1]? = some (.label 7)
        ∧ ∀ i, i < 1 → s.prog[i]? ≠ some (.label 7) := by decide

/-- The branches to a label that no line defines. -/
theorem witness_HostControlLines_missing :
    ∀ line ∈ [HostLine.bnz 0 1 7, .bz 0 1 7],
      let s := program [line, .label 6]
      NextInput s .host [] ∧ s.halted = false ∧ s.prog[s.hpc]? = some line ∧ HostLine.label 7 ∉ s.prog := by decide

/-- The first and the last word of the window, written and read. -/
theorem witness_HostRegisterLines :
    ∀ line ∈ [HostLine.wr .cmd 1, .wr (.reserved 6) 1, .rd .cmd 2, .rd (.reserved 6) 2],
      NextInput (program [line]) .host [] ∧ (program [line]).halted = false
        ∧ (program [line]).prog[(program [line]).hpc]? = some line ∧ MayAccess (program [line]) 0 := by decide

/-! ### Witnesses: reset, datapath, invariants -/

/-- Idle and busy. -/
theorem witness_ResetEvent :
    MachineInv (on idle [.reset]) ∧ NextInput (on idle [.reset]) .reset []
      ∧ MachineInv (on (busy (.r2c 0)) [.reset]) ∧ NextInput (on (busy (.r2c 0)) [.reset]) .reset []
      ∧ (busy (.r2c 0)).desc = some (commandDesc (.r2c 0) idle) :=
  ⟨by decide +kernel, by decide +kernel, by decide +kernel, by decide +kernel, by decide +kernel⟩

/-- A state other than the power-on state that an idle step leaves alone: halted, and with no line left. -/
theorem witness_PowerOnState :
    let s := { idle with halted := true, prog := [.fence] }
    let p := { idle with prog := [.fence], hpc := 1 }
    (modelStop s = none ∧ s.busy = false ∧ s.events = [] ∧ s.halted = true)
      ∧ modelStop p = none ∧ p.busy = false ∧ p.events = [] ∧ p.prog[p.hpc]? = none := by decide

/-- The clauses about `CTRL` and `STATUS` writes. -/
theorem witness_InterruptOutput :
    (0xFFFFFFFE : Word).getLsbD 0 = false ∧ (0x6 : Word).getLsbD 1 = true ∧ (0x6 : Word).getLsbD 2 = true := by decide

/-- The largest finite value, an exact zero sum and an exact zero difference. -/
theorem witness_AddSubCorrectlyRounded :
    isFinite 0x7F7FFFFF = true ∧ isFinite 0x00000001 = true ∧ f32Val 0x3F800000 + f32Val 0xBF800000 = 0
      ∧ f32Val 0x80000000 + f32Val 0x80000000 = 0 ∧ f32Val 0x80000000 - f32Val 0 = 0 := by decide +kernel

theorem witness_MulCorrectlyRounded : isFinite 0x7F7FFFFF = true ∧ isFinite 0x80000001 = true := by decide

/-- One pair of operands for each clause. -/
theorem witness_SpecialValues :
    isNaN 0x7F800001 = true ∧ isInf 0x7F800000 = true ∧ isInf 0xFF800000 = true
      ∧ f32Sign 0x7F800000 ≠ f32Sign 0xFF800000 ∧ isFinite 0x7F7FFFFF = true ∧ isZero 0x80000000 = true
      ∧ isNaN 0x00000001 = false ∧ isZero 0x00000001 = false ∧ isQuietNaN 0xFFFFFFFF = true := by decide

/-- An engine step of a running operation. -/
theorem witness_StepKeepsInv :
    MachineInv (on (busy (.r2c 0)) [.engine 0]) ∧ ∃ t, step (on (busy (.r2c 0)) [.engine 0]) = .next t :=
  ⟨by decide +kernel, ⟨_, rfl⟩⟩

theorem witness_StepKeepsConfigAndLog : ∃ t, step (on (busy (.r2c 0)) [.engine 0]) = .next t := ⟨_, rfl⟩

/-- `BUSY` rises at an issue and falls at completion and at reset; `DONE`, `FAULT` and `DROP` rise. -/
theorem witness_StatusRisesOnlyAsRuled :
    (idle.busy = false ∧ (after (step (on idle [wrAt 0 1]))).busy = true)
      ∧ ((busy .init).busy = true ∧ (after (step { on (busy .init) [.engine 0] with pending := [] })).busy = false)
      ∧ (after (step (on (busy .init) [.reset]))).busy = false
      ∧ ((busy .init).done = false ∧ (after (step { on (busy .init) [.engine 0] with pending := [] })).done = true)
      ∧ (idle.fault = false ∧ (after (step (on idle [wrAt 0 0]))).fault = true)
      ∧ ((busy .init).drop = false ∧ (after (step (on (busy .init) [wrAt 0 1]))).drop = true) := by decide +kernel

/-- The clauses about what clears a field and changes `CAUSE`: a write to `STATUS`, an issue, reset; the parameters are in range. -/
theorem witness_StatusClearedOnlyAsRuled :
    let s := { idle with done := true, drop := true }
    let f := { idle with fault := true, cause := 4 }
    s.cfg.wf
      ∧ (after (step (on s [wrAt 0x04 0x2]))).done = false ∧ (after (step (on s [wrAt 0 1]))).done = false
      ∧ (after (step (on s [.reset]))).done = false ∧ (after (step (on s [wrAt 0x04 0x8]))).drop = false
      ∧ (after (step (on s [.reset]))).drop = false ∧ (after (step (on f [wrAt 0x04 0x4]))).fault = false
      ∧ (after (step (on f [wrAt 0 1]))).cause = 0 ∧ (after (step (on f [wrAt 0 0]))).cause = 1
      ∧ (after (step (on f [.reset]))).cause = 0 := by
  refine ⟨?_, ?_, ?_, ?_, ?_, ?_, ?_, ?_, ?_, ?_⟩ <;> decide +kernel

theorem witness_InputsStableWhileBusy :
    let s := on (busy (.r2c 0)) [.engine 0]
    MachineInv s ∧ s.busy = true ∧ s.desc = some (commandDesc (.r2c 0) idle)
      ∧ (commandDesc (.r2c 0) idle).srcR.has 0x101F = true ∧ (commandDesc (.r2c 0) idle).twR.has 0x1200 = true := by
  decide +kernel

/-- A memory write scheduled, and `st.c` with nothing scheduled. -/
theorem witness_IdleMemoryChangedOnlyByHost :
    let s := on idle [.access (.memWrite 0x2000 [9])]
    let p := on (program [.stc 0x2000 ⟨9, 0⟩]) []
    (s.busy = false ∧ Memory.read (after (step s)).mem 0x2000 ≠ Memory.read s.mem 0x2000)
      ∧ p.busy = false ∧ Memory.read (after (step p)).mem 0x2000 ≠ Memory.read p.mem 0x2000 := by decide +kernel

theorem witness_StepKeepsMemoryCanonical :
    Memory.wf idle.mem ∧ ∃ t, step (on idle [.access (.memWrite 0x2000 [9])]) = .next t := ⟨by decide +kernel, ⟨_, rfl⟩⟩

end Sys2Proof.Tests
end

section
/-! SUPPORT. The parameters and the fault log along every step (`10_state.md` R7, R37, R44): one rule per shared operation, and one
for `step`. -/

namespace Sys2Proof.Machine

open Host

/-- `ld.c` answers a next state exactly where its memory read does. -/
theorem hostLine_ldc_eq_next {a : Word} {n : Nat} {s t : State} :
    hostLine (.ldc a n) s = .next t
      ↔ ∃ u, hostMemRead a.toNat 8 (nextLine s) = .next u ∧ t = setC n (c64OfNat (natOfBytes u.memData)) u := by
  simp only [hostLine]
  cases hostMemRead a.toNat 8 (nextLine s) <;> simp [eq_comm]

/-- `t` has the parameters of `s` and every entry of its fault log, in place (`10_state.md` R7, R44). -/
structure ConfigLogFrame (s t : State) : Prop where
  cfg : t.cfg = s.cfg
  log : s.mfaults <+: t.mfaults

namespace ConfigLogFrame

variable {s t u : State}

/-- An operation that touches neither field. -/
theorem of_eq (hc : t.cfg = s.cfg) (hl : t.mfaults = s.mfaults) : ConfigLogFrame s t :=
  ⟨hc, hl ▸ List.prefix_rfl⟩

theorem refl (s : State) : ConfigLogFrame s s := of_eq rfl rfl

theorem trans (h : ConfigLogFrame s t) (h' : ConfigLogFrame t u) : ConfigLogFrame s u :=
  ⟨h'.cfg.trans h.cfg, h.log.trans h'.log⟩

theorem capsWord_eq (h : ConfigLogFrame s t) : capsWord t = capsWord s := by
  rw [capsWord, capsWord, h.cfg]

end ConfigLogFrame

open ConfigLogFrame

variable {s t u : State}

/-- Every fault is entered by appending to the log. -/
theorem logFault_configLogFrame (f : MFault) (s : State) : ConfigLogFrame s (logFault f s) :=
  ⟨rfl, List.prefix_append _ _⟩

theorem takeFault_configLogFrame (c : Check) (s : State) : ConfigLogFrame s (takeFault c s) :=
  ⟨rfl, List.prefix_append _ _⟩

/-! ### The issue step and the register window -/

theorem command_configLogFrame (w : Word) (d : Desc) (enum : Nat → Nat → List Group) (s : State) :
    ConfigLogFrame s (command w d enum s) := by
  rcases command_cases w d enum s with ⟨-, e⟩ | ⟨c, -, -, e⟩ | ⟨-, -, e⟩ <;> rw [e]
  · exact of_eq rfl rfl
  · exact (of_eq rfl rfl : ConfigLogFrame s (beginIssue w s)).trans (takeFault_configLogFrame c _)
  · exact of_eq rfl rfl

theorem illegalCommand_configLogFrame (w : Word) (s : State) : ConfigLogFrame s (illegalCommand w s) := by
  rcases illegalCommand_cases w s with ⟨-, e⟩ | ⟨-, e⟩ <;> rw [e]
  · exact of_eq rfl rfl
  · exact (of_eq rfl rfl : ConfigLogFrame s (beginIssue w s)).trans (takeFault_configLogFrame _ _)

theorem exec_configLogFrame {i : Instr} (h : exec i s = .next t) : ConfigLogFrame s t := by
  obtain ⟨enum, e, -⟩ := exec_eq_command i s
  cases e.symm.trans h
  exact command_configLogFrame _ _ _ _

theorem writeCmd_configLogFrame {w : Word} (h : writeCmd w s = .next t) : ConfigLogFrame s t := by
  unfold writeCmd at h
  split at h
  · exact exec_configLogFrame h
  · cases h
    exact illegalCommand_configLogFrame w s

theorem unlessBusy_configLogFrame (h : unlessBusy s t = .next u) (ht : ConfigLogFrame s t) : ConfigLogFrame s u := by
  unfold unlessBusy at h
  cases h
  split
  · exact of_eq rfl rfl
  · exact ht

theorem writeReg_configLogFrame {r : Reg} {v : Word} (h : writeReg r v s = .next t) : ConfigLogFrame s t := by
  cases r with
  | cmd => exact writeCmd_configLogFrame h
  | status =>
    cases h
    exact of_eq (writeStatus_cfg s v) (writeStatus_mfaults s v)
  | ctrl =>
    cases h
    exact of_eq (writeCtrl_cfg s v) (writeCtrl_mfaults s v)
  | len | src | dst | tw | twlen => exact unlessBusy_configLogFrame h (of_eq rfl rfl)
  | caps | reserved =>
    cases h
    exact refl s

/-- A host access to the window keeps them where the access of the register does. -/
theorem regAccess_configLogFrame {host addr width : Nat} {act : Reg → State → Outcome State Fault Refusal}
    (h : regAccess host addr width act s = .next t)
    (hact : ∀ r s t, act r s = .next t → ConfigLogFrame s t) : ConfigLogFrame s t := by
  rcases regAccess_cases host addr width act s with ⟨-, e⟩ | ⟨f, -, e⟩ | ⟨-, e⟩ <;> rw [e] at h
  · cases h
    exact refl s
  · cases h
    exact logFault_configLogFrame f s
  · exact (of_eq rfl rfl : ConfigLogFrame s { s with regHost := some host }).trans (hact _ _ _ h)

/-! ### Memory accesses of the host -/

theorem hostMemWrite_configLogFrame {a : Nat} {bs : List Byte} (h : hostMemWrite a bs s = .next t) : ConfigLogFrame s t := by
  rcases hostMemWrite_cases a bs s with ⟨-, e⟩ | ⟨-, -, e⟩ | ⟨-, -, e⟩ <;> cases e.symm.trans h
  · exact logFault_configLogFrame _ s
  · exact of_eq rfl rfl

theorem hostMemRead_configLogFrame {a n : Nat} (h : hostMemRead a n s = .next t) : ConfigLogFrame s t := by
  rcases hostMemRead_cases a n s with ⟨-, e⟩ | ⟨-, e⟩ <;> cases e.symm.trans h
  exact of_eq rfl rfl

theorem hostAccess_configLogFrame {a : HostAccess} (h : hostAccess a s = .next t) : ConfigLogFrame s t := by
  cases a with
  | regWrite host addr width v =>
    simp only [hostAccess] at h
    exact regAccess_configLogFrame h fun _ _ _ => writeReg_configLogFrame
  | regRead host addr width =>
    simp only [hostAccess] at h
    refine regAccess_configLogFrame h fun r s t h => ?_
    cases h
    exact of_eq rfl rfl
  | memWrite a bs => exact hostMemWrite_configLogFrame h
  | memRead a n => exact hostMemRead_configLogFrame h

/-! ### The lines of a host program -/

theorem nextLine_configLogFrame (s : State) : ConfigLogFrame s (nextLine s) := of_eq rfl rfl

theorem branch_configLogFrame (b : Bool) (l : Nat) (s : State) : ConfigLogFrame s (branch b l s) :=
  of_eq (branch_cfg s b l) (branch_mfaults s b l)

theorem hostLine_configLogFrame {line : HostLine} (h : hostLine line s = .next t) : ConfigLogFrame s t := by
  cases line with
  | wr r v =>
    simp only [hostLine] at h
    exact (nextLine_configLogFrame s).trans (regAccess_configLogFrame h fun _ _ _ => writeReg_configLogFrame)
  | rd r n =>
    simp only [hostLine] at h
    refine (nextLine_configLogFrame s).trans (regAccess_configLogFrame h fun r s t h => ?_)
    cases h
    exact of_eq rfl rfl
  | stc a x => exact (nextLine_configLogFrame s).trans (hostMemWrite_configLogFrame h)
  | ldc a n =>
    obtain ⟨u, hu, rfl⟩ := hostLine_ldc_eq_next.1 h
    exact ((nextLine_configLogFrame s).trans (hostMemRead_configLogFrame hu)).trans (of_eq rfl rfl)
  | label | fence =>
    cases h
    exact nextLine_configLogFrame s
  | bnz | bz =>
    cases h
    exact branch_configLogFrame _ _ s
  | halt =>
    cases h
    exact of_eq rfl rfl

theorem hostStep_configLogFrame (h : hostStep s = .next t) : ConfigLogFrame s t := by
  unfold hostStep at h
  split at h
  · cases h
    exact refl s
  · split at h
    · exact hostLine_configLogFrame h
    · cases h
      exact refl s

/-! ### The engine, reset, and one step of the machine -/

theorem performGroup_configLogFrame (d : Desc) (g : Group) (s : State) : ConfigLogFrame s (performGroup d g s) := by
  rw [performGroup_frame.same]
  exact of_eq rfl rfl

theorem engineStep_configLogFrame (k : Nat) (s : State) : ConfigLogFrame s (engineStep k s) := by
  rcases engineStep_cases k s with ⟨-, e⟩ | ⟨d, -, -, -, e⟩ | ⟨d, g, -, -, -, e⟩ <;> rw [e]
  · exact refl s
  · exact of_eq rfl rfl
  · exact (of_eq rfl rfl : ConfigLogFrame s { s with pending := s.pending.erase g }).trans (performGroup_configLogFrame d g _)

theorem resetEngine_configLogFrame (s : State) : ConfigLogFrame s (resetEngine s) := by
  rw [resetEngine_eq]
  exact of_eq rfl rfl

theorem handle_configLogFrame {e : Event} (h : handle e s = .next t) : ConfigLogFrame s t := by
  cases e with
  | host => exact hostStep_configLogFrame h
  | access a => exact hostAccess_configLogFrame h
  | engine k =>
    cases h
    exact engineStep_configLogFrame k s
  | reset =>
    cases h
    exact resetEngine_configLogFrame s

theorem unscheduled_configLogFrame (h : unscheduled s = .next t) : ConfigLogFrame s t := by
  unfold unscheduled at h
  split at h
  · cases h
    exact engineStep_configLogFrame 0 s
  · exact hostStep_configLogFrame h

theorem step_configLogFrame (h : step s = .next t) : ConfigLogFrame s t := by
  obtain ⟨-, hp⟩ := step_eq_next.1 h
  cases he : s.events with
  | nil => exact unscheduled_configLogFrame (proceed_nil he ▸ hp)
  | cons e es =>
    rw [proceed_cons he] at hp
    exact (of_eq rfl rfl : ConfigLogFrame s { s with events := es }).trans (handle_configLogFrame hp)

/-- Settles O56: every operation a step is made of keeps the parameters and only appends to the log. -/
theorem stepKeepsConfigAndLog : Obligations.StepKeepsConfigAndLog := by
  intro s t h
  have hk := step_configLogFrame h
  obtain ⟨l, hl⟩ := hk.log
  exact ⟨hk.cfg, hk.capsWord_eq, l, hl.symm⟩

end Sys2Proof.Machine
end

section
/-! SUPPORT. The issue checks 2 to 8 in the words of `60_exceptions.md` R163–R169, and what a command that passes them all gives:
its groups write inside the destination (`41_radix2.md` R121, R125, `42_radix4.md` R141, R143, R146). -/

namespace Sys2Proof.Machine

/-! ### Each check's computed condition is the spec's -/

section Checks

variable {s : State} {d : Desc}

theorem isPow2_iff {n : Nat} : isPow2 n = true ↔ ∃ m, n = 2 ^ m := by
  rw [isPow2, beq_iff_eq]
  constructor
  · exact fun h => ⟨_, h⟩
  · rintro ⟨m, rfl⟩
    rw [Nat.log2_two_pow]

/-- The admitted lengths of a stage operation whose least length is `2^lo`. -/
theorem isPow2_and_bounds_iff {n b lo nmax : Nat} (hb : b = 2 ^ lo) :
    (isPow2 n && b ≤ n && n ≤ nmax) = true ↔ ∃ m, n = 2 ^ m ∧ lo ≤ m ∧ n ≤ nmax := by
  subst hb
  simp only [Bool.and_eq_true, decide_eq_true_eq, isPow2_iff]
  constructor
  · rintro ⟨⟨⟨m, rfl⟩, hlo⟩, hmax⟩
    exact ⟨m, rfl, (Nat.pow_le_pow_iff_right (by omega)).1 hlo, hmax⟩
  · rintro ⟨m, rfl, hlo, hmax⟩
    exact ⟨⟨⟨m, rfl⟩, Nat.pow_le_pow_right (by omega) hlo⟩, hmax⟩

theorem Op.isStage_iff {op : Op} : op.isStage = true ↔ op ≠ .init := by cases op <;> simp [Op.isStage]

theorem Desc.used_of_stage (h : d.op ≠ .init) : d.used = [d.srcR, d.dstR, d.twR] := by
  unfold Desc.used
  split
  · exact absurd ‹_› h
  · rfl

theorem Desc.used_of_init (h : d.op = .init) : d.used = [d.dstR] := by simp [Desc.used, h]

/-- Every operation uses its destination, a stage its source and its table too (`20_memory.md` R56). -/
theorem Desc.mem_used {r : Region} (h : r ∈ d.used) : r = d.dstR ∨ d.op ≠ .init ∧ (r = d.srcR ∨ r = d.twR) := by
  by_cases hop : d.op = .init
  · rw [Desc.used_of_init hop, List.mem_singleton] at h
    exact .inl h
  · rw [Desc.used_of_stage hop] at h
    simp only [List.mem_cons, List.not_mem_nil, or_false] at h
    tauto

/-- The logarithm of the least length of a stage operation, and of the number of outputs of every group: `lo` of
`StageAdmitted` (`41_radix2.md` R120, R121, `42_radix4.md` R140, R141, R146). -/
def Op.minLog : Op → Nat
  | .r4 => 2
  | _ => 1

theorem nPrime_eq_div (op : Op) (n : Nat) : nPrime op n = n / 2 ^ op.minLog := by
  cases op <;> exact Nat.shiftRight_eq_div_pow _ _

theorem stride_eq_div (op : Op) (n idx : Nat) : stride op n idx = n / 2 ^ op.minLog / 2 ^ idx := by
  rw [stride, nPrime_eq_div, Nat.shiftRight_eq_div_pow]

/-- `BAD_LEN` of a stage operation (`60_exceptions.md` R163). -/
theorem checkFails_badLen_stage (h : d.op ≠ .init) :
    CheckFails .badLen s d
      ↔ ¬ ∃ m, d.n.toNat = 2 ^ m ∧ d.op.minLog ≤ m ∧ d.n.toNat ≤ 2 ^ s.cfg.log2NMax := by
  cases hop : d.op
  case init => exact absurd hop h
  all_goals simp only [CheckFails, hop, Op.minLog]

theorem badLen_iff : (!lenAdmitted d.op d.n.toNat (2 ^ s.cfg.log2NMax)) = true ↔ CheckFails .badLen s d := by
  rw [Bool.not_eq_true', ← Bool.not_eq_true]
  cases hop : d.op <;> simp only [CheckFails, hop, lenAdmitted] <;> apply not_congr
  · exact isPow2_and_bounds_iff rfl
  · exact isPow2_and_bounds_iff rfl
  · exact isPow2_and_bounds_iff rfl
  · simp [and_assoc]

theorem misaligned_iff : (d.bases.any fun b => b.toNat % 8 != 0) = true ↔ CheckFails .misaligned s d := by
  cases hop : d.op <;> simp [CheckFails, Desc.bases, hop] <;> tauto

theorem range_iff : (d.used.any fun r => r.1 + 8 * r.2 > addressSpace) = true ↔ CheckFails .range s d := by
  by_cases hop : d.op = .init
  · simp [CheckFails, Desc.used_of_init hop, hop, Desc.dstR, addressSpace]
  · simp [CheckFails, Desc.used_of_stage hop, hop, Desc.srcR, Desc.dstR, Desc.twR, addressSpace]
    tauto

theorem overlap_iff :
    (d.op.isStage && (d.dstR.overlaps d.srcR || d.dstR.overlaps d.twR)) = true ↔ CheckFails .overlap s d := by
  simp only [Bool.and_eq_true, Bool.or_eq_true, Op.isStage_iff, Region.overlaps_iff, CheckFails, ← exists_or, and_or_left]

theorem bus_iff : (d.used.any fun r => !allBytes (admits s.cfg) r.1 (8 * r.2)) = true ↔ CheckFails .bus s d := by
  simp only [List.any_eq_true, Bool.not_eq_true', ← Bool.not_eq_true, allBytes_iff, CheckFails, Region.has_iff]
  push Not
  simp only [and_assoc]

/-- The conditions that the issue step computes are the ones the spec states (`60_exceptions.md` R163–R169). -/
theorem issueChecks_iff {c : Check} {b : Bool} (h : (c, b) ∈ issueChecks s.cfg s.twlen d) :
    b = true ↔ CheckFails c s d := by
  simp only [issueChecks, List.mem_cons, Prod.mk.injEq, List.not_mem_nil, or_false] at h
  rcases h with ⟨rfl, rfl⟩ | ⟨rfl, rfl⟩ | ⟨rfl, rfl⟩ | ⟨rfl, rfl⟩ | ⟨rfl, rfl⟩ | ⟨rfl, rfl⟩ | ⟨rfl, rfl⟩
  · exact badLen_iff
  · simp [CheckFails, Op.isStage_iff]
  · simp [CheckFails, Op.isStage_iff]
  · exact misaligned_iff
  · exact range_iff
  · exact overlap_iff
  · exact bus_iff

/-- A decoded command has a computed condition for every check but the decoder's own. -/
theorem exists_mem_issueChecks {c : Check} (h : c ≠ .illegalCmd) : ∃ b, (c, b) ∈ issueChecks s.cfg s.twlen d := by
  cases c
  case illegalCmd => exact absurd rfl h
  all_goals simp [issueChecks]

/-- A command passes every check exactly when no failure condition of the spec holds (`60_exceptions.md` R161). -/
theorem failingCheck_eq_none_iff : failingCheck s d = none ↔ ∀ c, ¬ CheckFails c s d := by
  simp only [failingCheck, firstFailing, Option.map_eq_none_iff, List.find?_eq_none]
  constructor
  · intro h c hc
    obtain ⟨b, hb⟩ := exists_mem_issueChecks (s := s) (d := d) (c := c) (by rintro rfl; exact hc)
    exact h _ hb ((issueChecks_iff hb).2 hc)
  · exact fun h p hp hb => h p.1 ((issueChecks_iff hp).1 hb)

/-- A command with an admitted length, stage index and table length, usable regions, and a destination apart from its inputs
passes every check. -/
theorem failingCheck_eq_none (hlen : ¬ CheckFails .badLen s d) (hidx : ¬ CheckFails .badIdx s d)
    (htw : ¬ CheckFails .twShort s d) (hover : ¬ CheckFails .overlap s d) (hdst : RegionUsable s d.dstR)
    (hin : d.op ≠ .init → RegionUsable s d.srcR ∧ RegionUsable s d.twR) : failingCheck s d = none := by
  obtain ⟨hdstA, hdstR, hdstB⟩ := hdst
  refine failingCheck_eq_none_iff.2 fun c => ?_
  cases c with
  | illegalCmd => exact id
  | badLen => exact hlen
  | badIdx => exact hidx
  | twShort => exact htw
  | overlap => exact hover
  | misaligned =>
    rintro (h | ⟨hop, h | h⟩)
    · exact h hdstA
    · exact h (hin hop).1.1
    · exact h (hin hop).2.1
  | range =>
    rintro (h | ⟨hop, h | h⟩)
    · exact absurd hdstR (Nat.not_le.2 h)
    · exact absurd (hin hop).1.2.1 (Nat.not_le.2 h)
    · exact absurd (hin hop).2.2.1 (Nat.not_le.2 h)
  | bus =>
    rintro ⟨r, hr, a, ha, hn⟩
    refine absurd hn (ne_false_of_eq_true ?_)
    rcases Desc.mem_used hr with rfl | ⟨hop, rfl | rfl⟩
    · exact hdstB a ha
    · exact (hin hop).1.2.2 a ha
    · exact (hin hop).2.2.2 a ha

/-- The conditions of `41_radix2.md` R120 and `42_radix4.md` R140 pass every check. -/
theorem stageAdmitted_passes {op : Op} {idx : Nat} (hop : op ≠ .init) (h : StageAdmitted op op.minLog idx s) :
    failingCheck s (latch op idx s) = none := by
  obtain ⟨⟨m, hm, hlo, hmax, hidx⟩, htw, hsrc, hdst, htwr, hover⟩ := h
  have hn : nPrime op s.len.toNat = 2 ^ (m - op.minLog) := by
    rw [nPrime_eq_div, hm, Nat.pow_div hlo (by omega)]
  have hσ : stride op s.len.toNat idx = 2 ^ (m - op.minLog - idx) := by
    rw [stride, hn, Nat.shiftRight_eq_div_pow, Nat.pow_div (by omega) (by omega)]
  refine failingCheck_eq_none ?_ ?_ ?_ ?_ hdst fun _ => ⟨hsrc, htwr⟩
  · rw [checkFails_badLen_stage hop, not_not]
    exact ⟨m, hm, hlo, hm ▸ Nat.pow_le_pow_right (by omega) hmax⟩
  · rintro ⟨-, h | h⟩
    · exact absurd (hσ.symm.trans h) (by positivity)
    · refine h (Nat.mod_eq_zero_of_dvd ?_)
      simp only [latch, hn, hσ]
      exact Nat.pow_dvd_pow 2 (Nat.sub_le _ _)
  · exact fun h => absurd htw (Nat.not_le.2 h.2)
  · rintro ⟨-, a, hd, h⟩
    obtain ⟨h1, h2⟩ := hover a hd
    rcases h with h | h
    · exact absurd (h1.symm.trans h) Bool.false_ne_true
    · exact absurd (h2.symm.trans h) Bool.false_ne_true

/-- The conditions of `42_radix4.md` R146 pass every check. -/
theorem initAdmitted_passes (h : InitAdmitted s) : failingCheck s (latch .init 0 s) = none := by
  obtain ⟨heven, hmin, hmax, hdst⟩ := h
  have hop : ¬ (latch .init 0 s).op ≠ .init := not_not.2 rfl
  exact failingCheck_eq_none (not_not.2 ⟨heven, hmin, hmax⟩) (fun h => hop h.1) (fun h => hop h.1) (fun h => hop h.1)
    hdst fun h => absurd h hop

end Checks

/-! ### The groups of an operation -/

section Groups

variable {d : Desc} {s : State}

theorem lt_of_mem_stepRange {i b σ : Nat} (h : i ∈ stepRange 0 b σ) : i < b ∧ σ ∣ i := by
  simp only [stepRange, List.mem_map, List.mem_range, Nat.sub_zero, Nat.zero_add] at h
  obtain ⟨j, hj, rfl⟩ := h
  refine ⟨?_, Nat.dvd_mul_left σ j⟩
  rcases Nat.eq_zero_or_pos σ with rfl | hσ
  · simp at hj
  · have : (j + 1) * σ ≤ b + σ - 1 := (Nat.le_div_iff_mul_le hσ).1 hj
    rw [Nat.succ_mul] at this
    omega

theorem mem_groupsR2c {g : Group} {half σ : Nat} (h : g ∈ groupsR2c half σ) :
    ∃ i o, g = .pair i o ∧ i < half ∧ σ ∣ i ∧ o < σ := by
  simp only [groupsR2c, List.mem_flatMap, List.mem_map, List.mem_range] at h
  obtain ⟨i, hi, o, ho, rfl⟩ := h
  obtain ⟨hi, hd⟩ := lt_of_mem_stepRange hi
  exact ⟨i, o, rfl, hi, hd, ho⟩

/-- `G4` is `G2` of its own `N'` and stride (`42_radix4.md` R141). -/
theorem groupsR4_eq_groupsR2c (quarter σ : Nat) : groupsR4 quarter σ = groupsR2c quarter σ := rfl

theorem stepRange_nodup (b σ : Nat) : (stepRange 0 b σ).Nodup := by
  rcases Nat.eq_zero_or_pos σ with rfl | hσ
  · simp [stepRange]
  · refine List.nodup_range.map fun i j h => ?_
    simpa using Nat.eq_of_mul_eq_mul_right hσ (by simpa using h)

theorem groupsR2c_nodup (half σ : Nat) : (groupsR2c half σ).Nodup := by
  refine List.nodup_flatMap.2 ⟨fun i _ => List.nodup_range.map fun o o' h => (Group.pair.inj h).2, ?_⟩
  refine (stepRange_nodup half σ).imp fun {i j} hij => ?_
  simp only [Function.onFun, List.disjoint_left, List.mem_map]
  rintro _ ⟨o, -, rfl⟩ ⟨o', -, h⟩
  exact hij (Group.pair.inj h).1.symm

/-- A number is the OR of its bits outside and inside a mask (`41_radix2.md` R124). -/
theorem clearBits_or_and (o m : Nat) : clearBits o m ||| (o &&& m) = o := by
  refine Nat.eq_of_testBit_eq fun j => ?_
  simp only [clearBits, Nat.testBit_or, Nat.testBit_xor, Nat.testBit_and]
  cases o.testBit j <;> cases m.testBit j <;> rfl

theorem groupsR2a_nodup (half σ : Nat) : (groupsR2a half σ).Nodup := by
  refine List.nodup_range.map fun o o' h => ?_
  obtain ⟨hc, ha⟩ := Group.pair.inj h
  rw [← clearBits_or_and o (σ - 1), hc, ha, clearBits_or_and]

theorem groupsInit_nodup (h : Nat) : (groupsInit h).Nodup :=
  List.nodup_range.map fun _ _ e => Group.index.inj e

/-- A full group set has no repeats (`10_state.md` R40). -/
theorem Desc.groups_nodup (d : Desc) : d.groups.Nodup := by
  unfold Desc.groups
  split
  · exact groupsR2c_nodup _ _
  · exact groupsR2a_nodup _ _
  · exact groupsR4_eq_groupsR2c _ _ ▸ groupsR2c_nodup _ _
  · exact groupsInit_nodup _

/-- The length of an admitted stage (`60_exceptions.md` R163). -/
theorem exists_len_eq_two_pow (h : failingCheck s d = none) (hop : d.op ≠ .init) :
    ∃ m, d.n.toNat = 2 ^ m ∧ d.op.minLog ≤ m := by
  have hlen := failingCheck_eq_none_iff.1 h .badLen
  rw [checkFails_badLen_stage hop, not_not] at hlen
  obtain ⟨m, hm, hlo, -⟩ := hlen
  exact ⟨m, hm, hlo⟩

/-- A stage's `N'` is a power of two once its length is admitted. -/
theorem nPrime_eq_two_pow (h : failingCheck s d = none) (hop : d.op ≠ .init) : ∃ a, nPrime d.op d.n.toNat = 2 ^ a := by
  obtain ⟨m, hm, hlo⟩ := exists_len_eq_two_pow h hop
  exact ⟨m - d.op.minLog, by rw [nPrime_eq_div, hm, Nat.pow_div hlo (by omega)]⟩

/-- The outputs of all groups, `N'` elements apart, fill exactly `N` elements. -/
theorem outputs_mul_nPrime (h : failingCheck s d = none) : 2 ^ d.op.minLog * nPrime d.op d.n.toNat = d.n.toNat := by
  rw [nPrime_eq_div]
  refine Nat.mul_div_cancel' ?_
  by_cases hop : d.op = .init
  · have hlen := failingCheck_eq_none_iff.1 h .badLen
    simp only [CheckFails, hop, not_not] at hlen
    rw [hop]
    exact Nat.dvd_of_mod_eq_zero hlen.1
  · obtain ⟨m, hm, hlo⟩ := exists_len_eq_two_pow h hop
    rw [hm]
    exact Nat.pow_dvd_pow 2 hlo

/-- The first output of every group of an admitted stage lies below `N'`. -/
theorem bfOut_lt (h : failingCheck s d = none) {i o : Nat} (hg : .pair i o ∈ d.groups) :
    bfOut i o < nPrime d.op d.n.toNat := by
  have hor {σ : Nat} (hop : d.op ≠ .init) (hσ : σ = stride d.op d.n.toNat d.idx)
      (hm : .pair i o ∈ groupsR2c (nPrime d.op d.n.toNat) σ) : bfOut i o < nPrime d.op d.n.toNat := by
    obtain ⟨a, ha⟩ := nPrime_eq_two_pow h hop
    obtain ⟨_, _, e, hi, -, ho⟩ := mem_groupsR2c hm
    cases e
    have hle : σ ≤ nPrime d.op d.n.toNat := by
      rw [hσ, stride, Nat.shiftRight_eq_div_pow]
      exact Nat.div_le_self _ _
    rw [ha] at hi hle ⊢
    exact Nat.or_lt_two_pow hi (by omega)
  unfold Desc.groups at hg
  cases hd : d.op <;> simp only [hd] at hg hor ⊢
  · exact hor (by decide) rfl hg
  · simp only [groupsR2a, List.mem_map, List.mem_range] at hg
    obtain ⟨j, hj, e⟩ := hg
    obtain ⟨rfl, rfl⟩ := Group.pair.inj e
    rwa [bfOut, clearBits_or_and]
  · exact hor (by decide) rfl hg
  · simp [groupsInit] at hg

/-- A group of `INIT` is an index below `h` (`42_radix4.md` R146). -/
theorem index_lt (hop : d.op = .init) {o : Nat} (hg : .index o ∈ d.groups) : o < nPrime d.op d.n.toNat := by
  simpa [Desc.groups, hop, groupsInit] using hg

/-- The destination of an admitted command lies in the address space (`60_exceptions.md` R167). -/
theorem dstR_le_addressSpace (h : failingCheck s d = none) : d.dstB.toNat + 8 * d.n.toNat ≤ addressSpace := by
  have hr := failingCheck_eq_none_iff.1 h .range
  simp only [CheckFails, not_or] at hr
  exact Nat.not_lt.1 hr.1

/-- The destination of an admitted stage is apart from its inputs (`60_exceptions.md` R168). -/
theorem dstR_apart (h : failingCheck s d = none) (hop : d.op ≠ .init) {a : Nat}
    (ha : d.srcR.has a = true ∨ d.twR.has a = true) : d.dstR.has a = false :=
  Bool.eq_false_iff.2 fun hd => failingCheck_eq_none_iff.1 h .overlap ⟨hop, a, hd, ha⟩

end Groups

end Sys2Proof.Machine
end

section
/-! SUPPORT. Everything one step of the machine can do (`00_scope.md` R6), said once: what the host did, or the engine, or reset. -/

namespace Sys2Proof.Machine

open Host

/-- Only the host's own fields and the model's bookkeeping differ: no register, no memory, no log entry, no parameter. -/
structure HostFrame (s t : State) : Prop where
  same : t = { s with
    hpc := t.hpc, halted := t.halted, h := t.h, c := t.c, regHost := t.regHost, regData := t.regData
    memData := t.memData, events := t.events, draws := t.draws }
  temps : HostOk s → HostOk t

namespace HostFrame

variable {s t u : State}

/-- The host's temporaries stay as they are. -/
theorem of_temps (e : t = { s with
      hpc := t.hpc, halted := t.halted, regHost := t.regHost, regData := t.regData, memData := t.memData
      events := t.events, draws := t.draws }) : HostFrame s t := by
  rw [e]
  exact ⟨rfl, id⟩

theorem refl (s : State) : HostFrame s s := ⟨rfl, id⟩

theorem trans (h : HostFrame s t) (h' : HostFrame t u) : HostFrame s u :=
  ⟨h'.same.trans (by rw [h.same]), h'.temps ∘ h.temps⟩

theorem events (s : State) (es : List Event) : HostFrame s { s with events := es } := of_temps rfl

theorem nextLine (s : State) : HostFrame s (nextLine s) := of_temps rfl

theorem setH (n : Nat) (w : Word) (s : State) : HostFrame s (setH n w s) :=
  ⟨rfl, fun h => ⟨sparseSet_wf h.1, h.2⟩⟩

theorem setC (n : Nat) (x : C64) (s : State) : HostFrame s (setC n x s) :=
  ⟨rfl, fun h => ⟨h.1, sparseSet_wf h.2⟩⟩

theorem branch (b : Bool) (l : Nat) (s : State) : HostFrame s (branch b l s) := by
  cases b <;> exact of_temps rfl

theorem cfg (h : HostFrame s t) : t.cfg = s.cfg := by rw [h.same]
theorem mem (h : HostFrame s t) : t.mem = s.mem := by rw [h.same]
theorem busy (h : HostFrame s t) : t.busy = s.busy := by rw [h.same]

theorem isHazard (h : HostFrame s t) (a n : Nat) : isHazard t a n = isHazard s a n := by
  rw [h.same]
  rfl

end HostFrame

/-- Everything a host agent can do, but for moves of its own fields: log a model fault (`60_exceptions.md` R179), write a
register (`10_state.md` R22–R38), with `W` saying that it did so as the parameters allow, or store bytes (`20_memory.md` R50). -/
inductive HostEffect (W : Reg → Word → Prop) (s t : State) : Prop where
  | quiet (h : HostFrame s t)
  | logged (f : MFault) (u : State) (h : HostFrame s u) (e : t = logFault f u)
  | wrote (r : Reg) (v : Word) (u : State) (h : HostFrame s u) (w : s.cfg.wf → W r v) (e : writeReg r v u = .next t)
  | stored (a : Nat) (bs : List Byte) (u : State) (h : HostFrame s u) (hb : a + bs.length ≤ addressSpace)
      (hz : isHazard s a bs.length = false) (e : t = { u with mem := Memory.writeBytes u.mem a bs })

section Host

variable {s t u : State} {W W' : Reg → Word → Prop}

/-- Moves of the host's own fields before the effect belong to it. -/
theorem HostEffect.after (hf : HostFrame s u) (h : HostEffect W u t) (hw : ∀ r v, W r v → W' r v) : HostEffect W' s t := by
  cases h with
  | quiet h => exact .quiet (hf.trans h)
  | logged f x h e => exact .logged f x (hf.trans h) e
  | wrote r v x h w e => exact .wrote r v x (hf.trans h) (fun hc => hw r v (w (hf.cfg ▸ hc))) e
  | stored a bs x h hb hz e => exact .stored a bs x (hf.trans h) hb (hf.isHazard a _ ▸ hz) e

/-- An access to the window does what the access of the register does, or nothing, or is a model fault. -/
theorem regAccess_effect {host addr width : Nat} {act : Reg → State → Outcome State Fault Refusal}
    (h : regAccess host addr width act s = .next t)
    (hact : touchesWindow s.cfg addr width = true → accessFault host addr width s = none →
      act (regAt (addr - s.cfg.coreBase)) { s with regHost := some host } = .next t → HostEffect W s t) :
    HostEffect W s t := by
  unfold regAccess at h
  split at h
  · rename_i ht
    split at h
    · rename_i f hf
      cases h
      exact .logged f s (.refl s) rfl
    · rename_i hf
      exact hact ht hf h
  · cases h
    exact .quiet (.refl s)

/-- A register write at an address is a write to the register there, by a host that may access the window. -/
theorem regWrite_effect {host addr width : Nat} {v : Word}
    (h : regAccess host addr width (fun r u => writeReg r v u) s = .next t)
    (hw : width = 4 → ∀ r, addr = s.cfg.coreBase + regOffset r → MayAccess s host → W r v) : HostEffect W s t := by
  refine regAccess_effect h fun ht hf e => .wrote _ v _ (.of_temps rfl) (fun hc => ?_) e
  obtain ⟨h4, haddr, hmay⟩ := accessFault_eq_none hc ht hf
  exact hw h4 _ haddr hmay

theorem hostMemWrite_effect {a : Nat} {bs : List Byte} (h : hostMemWrite a bs s = .next t) : HostEffect W s t := by
  rcases hostMemWrite_cases a bs s with ⟨-, e⟩ | ⟨-, -, e⟩ | ⟨hb, hz, e⟩ <;> cases e.symm.trans h
  · exact .logged _ s (.refl s) rfl
  · exact .stored a bs s (.refl s) hb hz rfl

theorem hostMemRead_frame {a n : Nat} (h : hostMemRead a n s = .next t) : HostFrame s t := by
  rcases hostMemRead_cases a n s with ⟨-, e⟩ | ⟨-, e⟩ <;> cases e.symm.trans h
  exact .of_temps rfl

theorem hostAccess_effect {acc : HostAccess} (h : hostAccess acc s = .next t) :
    HostEffect (fun r v => ∃ host, acc = .regWrite host (s.cfg.coreBase + regOffset r) 4 v ∧ MayAccess s host) s t := by
  cases acc with
  | regWrite host addr width v =>
    simp only [hostAccess] at h
    exact regWrite_effect h fun hw r ha hm => ⟨host, by rw [hw, ha], hm⟩
  | regRead host addr width =>
    simp only [hostAccess] at h
    refine regAccess_effect h fun _ _ e => ?_
    cases e
    exact .quiet (.of_temps rfl)
  | memWrite a bs => exact hostMemWrite_effect h
  | memRead a n => exact .quiet (hostMemRead_frame h)

theorem hostLine_effect {line : HostLine} (h : hostLine line s = .next t) :
    HostEffect (fun r v => line = .wr r v ∧ MayAccess s programHost) s t := by
  have hn := HostFrame.nextLine s
  cases line with
  | wr r v =>
    simp only [hostLine] at h
    refine .after hn (regWrite_effect h fun _ r' ha hm => ?_) fun _ _ => id
    have hr : regOffset r = regOffset r' := Nat.add_left_cancel ha
    have hr : r = r' := by rw [← regAt_regOffset r, hr, regAt_regOffset]
    exact ⟨by rw [hr], hm⟩
  | rd r n =>
    simp only [hostLine] at h
    refine .after hn (regAccess_effect h fun _ _ e => ?_) fun _ _ => id
    cases e
    exact .quiet (HostFrame.trans (.of_temps rfl) (.setH _ _ _))
  | stc a x => exact .after hn (hostMemWrite_effect h) fun _ _ => id
  | ldc a n =>
    obtain ⟨u, hu, rfl⟩ := hostLine_ldc_eq_next.1 h
    exact .quiet ((hn.trans (hostMemRead_frame hu)).trans (.setC _ _ _))
  | label | fence =>
    cases h
    exact .quiet hn
  | bnz | bz =>
    cases h
    exact .quiet (.branch _ _ s)
  | halt =>
    cases h
    exact .quiet (.of_temps rfl)

theorem hostStep_effect (h : hostStep s = .next t) :
    HostEffect (fun r v => (s.halted = false ∧ s.prog[s.hpc]? = some (.wr r v)) ∧ MayAccess s programHost) s t := by
  unfold hostStep at h
  split at h
  · cases h
    exact .quiet (.refl s)
  · rename_i hh
    split at h
    · rename_i line hl
      refine .after (.refl s) (hostLine_effect h) fun r v ⟨e, hm⟩ => ⟨⟨Bool.eq_false_iff.2 hh, ?_⟩, hm⟩
      rw [hl, e]
    · cases h
      exact .quiet (.refl s)

end Host

/-- Everything a step with a next state can do, with who did it. -/
inductive StepEffect (s t : State) : Prop where
  | host (h : HostEffect (WritesReg s) s t)
  | engine (k : Nat) (u : State) (hm : EngineMoves s) (hf : HostFrame s u) (e : t = engineStep k u)
  | reset (u : State) (hr : Resets s) (hf : HostFrame s u) (e : t = resetEngine u)

variable {s t : State}

theorem handle_effect {e : Event} {es : List Event} (he : s.events = e :: es)
    (h : handle e { s with events := es } = .next t) : StepEffect s t := by
  have hf := HostFrame.events s es
  cases e with
  | host =>
    refine .host (.after hf (hostStep_effect h) fun r v ⟨⟨hh, hl⟩, hm⟩ => ?_)
    exact .inr ⟨⟨.inl ⟨es, he⟩, hh, hl⟩, hm⟩
  | access acc =>
    refine .host (.after hf (hostAccess_effect h) fun r v ⟨host, e, hm⟩ => ?_)
    exact .inl ⟨host, es, e ▸ he, hm⟩
  | engine k =>
    cases h
    exact .engine k _ (.inl ⟨k, es, he⟩) hf rfl
  | reset =>
    cases h
    exact .reset _ ⟨es, he⟩ hf rfl

theorem unscheduled_effect (he : s.events = []) (h : unscheduled s = .next t) : StepEffect s t := by
  unfold unscheduled at h
  split at h
  · rename_i hb
    cases h
    exact .engine 0 s (.inr ⟨he, hb⟩) (.refl s) rfl
  · rename_i hb
    refine .host (.after (.refl s) (hostStep_effect h) fun r v ⟨⟨hh, hl⟩, hm⟩ => ?_)
    exact .inr ⟨⟨.inr ⟨he, Bool.eq_false_iff.2 hb⟩, hh, hl⟩, hm⟩

theorem step_effect (h : step s = .next t) : StepEffect s t := by
  obtain ⟨-, hp⟩ := step_eq_next.1 h
  cases he : s.events with
  | nil => exact unscheduled_effect he (proceed_nil he ▸ hp)
  | cons e es => exact handle_effect he (proceed_cons he ▸ hp)

end Sys2Proof.Machine
end

section
/-! SUPPORT. Everything a command and a register write can do (`10_state.md` R22–R38, `60_exceptions.md` R160, R170, R172), said once. -/

namespace Sys2Proof.Machine

open Host

variable {s t : State} {w : Word} {i : Instr}

/-- A word that decodes is the encoding of its command, whose stage index fits its field (`30_encoding.md` R85, R86). -/
theorem decodeWord_eq_ok (h : decodeWord w = .ok i) : i.wf = true ∧ encodeWord i = w := by
  unfold decodeWord at h
  split at h
  · cases h
  rename_i hrsv
  have hidx : (idxField w).toNat < 256 := (idxField w).isLt
  have h1 : w.toNat / 2 ^ 16 = 0 := by
    rw [← rsv1Field_toNat, not_not.1 (not_or.1 hrsv).1]
    rfl
  have h0 : w.toNat / 2 ^ 4 % 2 ^ 4 = 0 := by
    rw [← rsv0Field_toNat, not_not.1 (not_or.1 hrsv).2]
    rfl
  have hok (j : Instr) (op : BitVec 4) (ho : opField w = op) (hj : j.wf = true)
      (he : (encodeWord j).toNat = 256 * (idxField w).toNat + op.toNat) : j.wf = true ∧ encodeWord j = w := by
    refine ⟨hj, BitVec.eq_of_toNat_eq ?_⟩
    have := opField_toNat w
    rw [ho] at this
    rw [he, idxField_toNat]
    omega
  split at h
  · cases h
    exact hok _ 1 ‹_› (decide_eq_true hidx) (encodeWord_r2c_toNat hidx)
  split at h
  · cases h
    exact hok _ 2 ‹_› (decide_eq_true hidx) (encodeWord_r2a_toNat hidx)
  split at h
  · cases h
    exact hok _ 3 ‹_› (decide_eq_true hidx) (encodeWord_r4_toNat hidx)
  split at h
  · split at h
    · rename_i hi
      cases h
      exact hok _ 4 ‹_› rfl (by rw [hi]; rfl)
    · cases h
  · cases h

/-- The `IDX` field of `256 * k + op` (`30_encoding.md` R80). -/
theorem idxField_of_toNat {k op : Nat} (hk : k < 256) (hop : op < 256) (h : w.toNat = 256 * k + op) :
    (idxField w).toNat = k := by
  rw [idxField_toNat, h]
  omega

/-- `desc.idx` is the `IDX` field of the command's word (`10_state.md` R39). -/
theorem commandDesc_idx (h : i.wf = true) (s : State) : (commandDesc i s).idx = (idxField (encodeWord i)).toNat := by
  cases i with
  | r2c k =>
    have hk : k < 256 := of_decide_eq_true h
    exact (idxField_of_toNat hk (by decide) (encodeWord_r2c_toNat hk)).symm
  | r2a k =>
    have hk : k < 256 := of_decide_eq_true h
    exact (idxField_of_toNat hk (by decide) (encodeWord_r2a_toNat hk)).symm
  | r4 k =>
    have hk : k < 256 := of_decide_eq_true h
    exact (idxField_of_toNat hk (by decide) (encodeWord_r4_toNat hk)).symm
  | init => rfl

/-- The state after the acceptance of a command (`60_exceptions.md` R160, R172). -/
def accepted (i : Instr) (s : State) : State :=
  accept (commandDesc i s) (commandDesc i s).groups (beginIssue (encodeWord i) s)

/-- Everything a command can do: dropped, faulted at its first failing check, or accepted with its full group set. -/
theorem exec_cases (i : Instr) (s : State) :
    (s.busy = true ∧ exec i s = .next (dropWrite s))
      ∨ (∃ c, s.busy = false ∧ failingCheck s (commandDesc i s) = some c
          ∧ exec i s = .next (takeFault c (beginIssue (encodeWord i) s)))
      ∨ (s.busy = false ∧ failingCheck s (commandDesc i s) = none ∧ exec i s = .next (accepted i s)) := by
  obtain ⟨enum, he, hg⟩ := exec_eq_command i s
  rcases command_cases (encodeWord i) (commandDesc i s) enum s with ⟨hb, e⟩ | ⟨c, hb, hc, e⟩ | ⟨hb, hc, e⟩ <;> rw [e] at he
  · exact .inl ⟨hb, he⟩
  · exact .inr (.inl ⟨c, hb, hc, he⟩)
  · have hn : (commandDesc i s).n = s.len := by cases i <;> rfl
    rw [hn, hg] at he
    exact .inr (.inr ⟨hb, hc, he⟩)

/-- The registers whose write an operation in progress drops (`10_state.md` R38). -/
def protectedRegs : List Reg := [.cmd, .len, .src, .dst, .tw, .twlen]

/-- Everything an aligned 32-bit write of `v` to the register `r` can do. -/
inductive RegWriteEffect (r : Reg) (v : Word) (s t : State) : Prop where
  | ignored (e : t = s)
  | dropped (hr : r ∈ protectedRegs) (hb : s.busy = true) (e : t = dropWrite s)
  | operand (hb : s.busy = false)
      (e : t = { s with len := t.len, src := t.src, dst := t.dst, tw := t.tw, twlen := t.twlen })
  | status (hr : r = .status) (e : t = writeStatus v s)
  | ctrl (e : t = writeCtrl v s)
  | faulted (c : Check) (hr : r = .cmd) (hb : s.busy = false) (e : t = takeFault c (beginIssue v s))
  | accepted (i : Instr) (hr : r = .cmd) (hb : s.busy = false) (hw : i.wf = true) (hv : encodeWord i = v)
      (hc : failingCheck s (commandDesc i s) = none) (e : t = accepted i s)

theorem unlessBusy_effect {r : Reg} {v : Word} {u : State} (h : unlessBusy s u = .next t) (hr : r ∈ protectedRegs)
    (hu : u = { s with len := u.len, src := u.src, dst := u.dst, tw := u.tw, twlen := u.twlen }) :
    RegWriteEffect r v s t := by
  unfold unlessBusy at h
  cases h
  split
  · exact .dropped hr ‹_› rfl
  · exact .operand (Bool.eq_false_iff.2 ‹_›) hu

theorem writeCmd_effect {v : Word} (h : writeCmd v s = .next t) : RegWriteEffect .cmd v s t := by
  have hr : Reg.cmd ∈ protectedRegs := by decide
  unfold writeCmd at h
  split at h
  · rename_i i hi
    obtain ⟨hw, hv⟩ := decodeWord_eq_ok hi
    rcases exec_cases i s with ⟨hb, e⟩ | ⟨c, hb, -, e⟩ | ⟨hb, hc, e⟩ <;> cases e.symm.trans h
    · exact .dropped hr hb rfl
    · exact .faulted c rfl hb (by rw [hv])
    · exact .accepted i rfl hb hw hv hc rfl
  · cases h
    rcases illegalCommand_cases v s with ⟨hb, e⟩ | ⟨hb, e⟩
    · exact .dropped hr hb e
    · exact .faulted _ rfl hb e

theorem writeReg_effect {r : Reg} {v : Word} (h : writeReg r v s = .next t) : RegWriteEffect r v s t := by
  cases r with
  | cmd => exact writeCmd_effect h
  | status =>
    cases h
    exact .status rfl rfl
  | ctrl =>
    cases h
    exact .ctrl rfl
  | len | src | dst | tw | twlen => exact unlessBusy_effect h (by decide) rfl
  | caps | reserved =>
    cases h
    exact .ignored rfl

/-- What a write to `STATUS` does, field by field (`10_state.md` R30). -/
theorem writeStatus_eq (v : Word) (s : State) :
    writeStatus v s = { s with
      done := if v.getLsbD 1 then false else s.done
      fault := if v.getLsbD 2 then false else s.fault
      cause := if v.getLsbD 2 then 0 else s.cause
      drop := if v.getLsbD 3 then false else s.drop } := by
  unfold writeStatus
  cases v.getLsbD 2 <;> rfl

end Sys2Proof.Machine
end

section
/-! SUPPORT. The invariant of the machine along every step (`10_state.md` R25–R40, R45). -/

namespace Sys2Proof.Machine

open Host

variable {s t u : State} {d : Desc}

/-! ### Memory lists only addresses of the space -/

/-- Every listed address lies in the address space (`20_memory.md` R51). -/
abbrev Memory.InSpace (m : Memory) : Prop := ∀ c ∈ m, c.1 < addressSpace

theorem writeBytes_inSpace {m : Memory} {a : Nat} {bs : List Byte} (h : m.InSpace) (hb : a + bs.length ≤ addressSpace) :
    (m.writeBytes a bs).InSpace := by
  intro c hc
  rcases Memory.mem_writeBytes hc with hc | ⟨-, hc⟩
  · exact h c hc
  · omega

/-- An element of a buffer that lies in the space is stored in the space. -/
theorem stC_inSpace {m : Memory} {base : Word} {n k : Nat} {x : C64} (h : m.InSpace)
    (hn : base.toNat + 8 * n ≤ addressSpace) (hk : k < n) : (stC m base k x).InSpace := by
  intro c hc
  rcases mem_stC hc with hc | ⟨-, hc⟩
  · exact h c hc
  · rw [elemAddr] at hc
    omega

section Group

variable {i o : Nat} (hd : failingCheck s d = none) (h : Memory.InSpace u.mem)

include hd h

theorem performBf2_inSpace (h1 : d.op.minLog = 1) (hg : .pair i o ∈ d.groups) :
    Memory.InSpace (performBf2 d i o u).mem := by
  have hlt := bfOut_lt hd hg
  have hout := outputs_mul_nPrime hd
  have hspace := dstR_le_addressSpace hd
  rw [h1] at hout
  exact stC_inSpace (stC_inSpace h hspace (by omega)) hspace (by omega)

theorem performBf4_inSpace (h2 : d.op.minLog = 2) (hg : .pair i o ∈ d.groups) :
    Memory.InSpace (performBf4 d i o u).mem := by
  have hlt := bfOut_lt hd hg
  have hout := outputs_mul_nPrime hd
  have hspace := dstR_le_addressSpace hd
  rw [h2] at hout
  exact stC_inSpace (stC_inSpace (stC_inSpace (stC_inSpace h hspace (by omega)) hspace (by omega)) hspace (by omega))
    hspace (by omega)

theorem groupInit_inSpace (hop : d.op = .init) (hg : .index o ∈ d.groups) : Memory.InSpace (groupInit d o u).mem := by
  have hlt := index_lt hop hg
  have hout := outputs_mul_nPrime hd
  have hspace := dstR_le_addressSpace hd
  rw [show d.op.minLog = 1 by rw [hop]; rfl] at hout
  exact stC_inSpace (stC_inSpace h hspace (by omega)) hspace (by omega)

/-- A group step of an admitted operation stores in the space (`20_memory.md` R60). -/
theorem performGroup_inSpace {g : Group} (hg : g ∈ d.groups) : Memory.InSpace (performGroup d g u).mem := by
  unfold performGroup
  split <;> rename_i hop
  · exact performBf2_inSpace hd h (by rw [hop]; rfl) hg
  · exact performBf2_inSpace hd h (by rw [hop]; rfl) hg
  · exact performBf4_inSpace hd h (by rw [hop]; rfl) hg
  · exact groupInit_inSpace hd h hop hg
  all_goals exact h

end Group

/-! ### The ways a state keeps the invariant -/

/-- An operation that changes, of what the invariant speaks of, memory alone. -/
theorem machineInv_of_memory (hi : MachineInv s) (hm : MemoryOk t)
    (e : t = { s with mem := t.mem, mfaults := t.mfaults, ie := t.ie, drop := t.drop, draws := t.draws }) :
    MachineInv t := by
  obtain ⟨hc, hs, he, -, hh⟩ := hi
  rw [e] at hm ⊢
  exact ⟨hc, hs, he, hm, hh⟩

theorem HostFrame.machineInv (h : HostFrame s t) (hi : MachineInv s) : MachineInv t := by
  obtain ⟨hc, hs, he, hm, hh⟩ := hi
  have ht := h.temps hh
  rw [h.same] at ht ⊢
  exact ⟨hc, hs, he, hm, ht⟩

/-- The latched descriptor of a busy engine (`10_state.md` R39). -/
theorem MachineInv.descOk (hi : MachineInv s) (hd : s.desc = some d) : DescOk s d := by
  obtain ⟨-, -, ⟨-, -, he⟩, -⟩ := hi
  exact he d hd

/-- A busy engine's command passed every check (`60_exceptions.md` R172). -/
theorem MachineInv.admitted (hi : MachineInv s) (hd : s.desc = some d) : failingCheck s d = none := by
  obtain ⟨-, -, -, -, hf, -⟩ := hi.descOk hd
  exact hf

theorem MachineInv.memoryOk (hi : MachineInv s) : MemoryOk s := by
  obtain ⟨-, -, -, hm, -⟩ := hi
  exact hm

/-- An idle engine has no descriptor and nothing pending (`10_state.md` R39, R40). -/
theorem MachineInv.idle (hi : MachineInv s) (hb : s.busy = false) : s.desc = none ∧ s.pending = [] := by
  obtain ⟨-, -, ⟨hd, hp, -⟩, -⟩ := hi
  exact ⟨by simpa [hb] using hd.symm, hp hb⟩

theorem engineOk_idle (hb : t.busy = false) (hd : t.desc = none) (hp : t.pending = []) : EngineOk t := by
  refine ⟨by rw [hb, hd]; rfl, fun _ => hp, fun d h => ?_⟩
  rw [hd] at h
  cases h

theorem Check.code_bounds (c : Check) : 1 ≤ c.code.toNat ∧ c.code.toNat ≤ 8 := by cases c <;> decide

/-! ### Register writes -/

theorem writeStatus_machineInv (v : Word) (hi : MachineInv s) : MachineInv (writeStatus v s) := by
  obtain ⟨hc, ⟨hbusy, hboth, hnone, hcode⟩, he, hm, hh⟩ := hi
  rw [writeStatus_eq]
  refine ⟨hc, ⟨fun hb => ?_, ?_, ?_, ?_⟩, he, hm, hh⟩
  · obtain ⟨hd, hf⟩ := hbusy hb
    simp [hd, hf]
  · simp only [Bool.if_false_left, Bool.and_eq_true]
    exact fun h => hboth ⟨h.1.2, h.2.2⟩
  · cases v.getLsbD 2
    · exact hnone
    · exact fun _ => rfl
  · cases v.getLsbD 2
    · exact hcode
    · exact fun h => absurd h Bool.false_ne_true

theorem operand_machineInv (hi : MachineInv s) (hb : s.busy = false)
    (e : t = { s with len := t.len, src := t.src, dst := t.dst, tw := t.tw, twlen := t.twlen }) : MachineInv t := by
  obtain ⟨hd, hp⟩ := hi.idle hb
  obtain ⟨hc, hs, -, hm, hh⟩ := hi
  rw [e]
  exact ⟨hc, hs, engineOk_idle hb hd hp, hm, hh⟩

/-- A failed issue leaves the engine idle with its code (`60_exceptions.md` R170). -/
theorem faulted_machineInv (c : Check) (w : Word) (hi : MachineInv s) (hb : s.busy = false) :
    MachineInv (takeFault c (beginIssue w s)) := by
  obtain ⟨hd, hp⟩ := hi.idle hb
  obtain ⟨hc, -, -, hm, hh⟩ := hi
  exact ⟨hc, ⟨fun h => absurd (hb.symm.trans h) Bool.false_ne_true, fun h => absurd h.1 Bool.false_ne_true,
    fun h => absurd h.symm Bool.false_ne_true, fun _ => c.code_bounds⟩, engineOk_idle hb hd hp, hm, hh⟩

/-- An accepted command latches what the registers say, and the full group set (`60_exceptions.md` R172). -/
theorem accepted_machineInv {i : Instr} (hw : i.wf = true) (hf : failingCheck s (commandDesc i s) = none)
    (hi : MachineInv s) : MachineInv (accepted i s) := by
  obtain ⟨hc, -, -, hm, hh⟩ := hi
  obtain ⟨hinstr, hlatch⟩ := commandDesc_instr i s
  refine ⟨hc, ⟨fun _ => ⟨rfl, rfl⟩, fun h => absurd h.1 Bool.false_ne_true, fun _ => rfl,
    fun h => absurd h Bool.false_ne_true⟩, ⟨rfl, fun h => absurd h.symm Bool.false_ne_true, fun d hd => ?_⟩, hm, hh⟩
  cases hd
  exact ⟨hlatch, by rw [hinstr]; rfl, commandDesc_idx hw s, by rw [hinstr]; exact hw, hf, Desc.groups_nodup _, fun _ h => h⟩

theorem writeReg_machineInv {r : Reg} {v : Word} (hi : MachineInv s) (h : writeReg r v s = .next t) : MachineInv t := by
  cases writeReg_effect h with
  | ignored e => exact e ▸ hi
  | dropped _ _ e => exact e ▸ machineInv_of_memory hi hi.memoryOk rfl
  | operand hb e => exact operand_machineInv hi hb e
  | status _ e => exact e ▸ writeStatus_machineInv v hi
  | ctrl e => exact e ▸ machineInv_of_memory hi hi.memoryOk rfl
  | faulted c _ hb e => exact e ▸ faulted_machineInv c v hi hb
  | accepted i _ _ hw _ hf e => exact e ▸ accepted_machineInv hw hf hi

/-! ### The agents -/

theorem hostEffect_machineInv {W : Reg → Word → Prop} (hi : MachineInv s) (h : HostEffect W s t) : MachineInv t := by
  cases h with
  | quiet h => exact h.machineInv hi
  | logged f u h e =>
    have hu := h.machineInv hi
    exact e ▸ machineInv_of_memory hu hu.memoryOk rfl
  | wrote r v u h _ e => exact writeReg_machineInv (h.machineInv hi) e
  | stored a bs u h hb _ e =>
    have hu := h.machineInv hi
    obtain ⟨hwf, hsp⟩ := hu.memoryOk
    exact e ▸ machineInv_of_memory hu ⟨Memory.writeBytes_wf hwf, writeBytes_inSpace hsp hb⟩ rfl

/-- A group leaves `pending`: it stays a set of the operation's groups (`60_exceptions.md` R173). -/
theorem erase_machineInv (g : Group) (hi : MachineInv s) (hb : s.busy = true) :
    MachineInv { s with pending := s.pending.erase g } := by
  obtain ⟨hc, hs, ⟨hd, -, he⟩, hm, hh⟩ := hi
  refine ⟨hc, hs, ⟨hd, fun h => absurd (h.symm.trans hb) Bool.false_ne_true, fun d hsome => ?_⟩, hm, hh⟩
  obtain ⟨hl, hcmd, hidx, hw, hf, hnd, hgs⟩ := he d hsome
  exact ⟨hl, hcmd, hidx, hw, hf, hnd.erase g, fun x hx => hgs x (List.mem_of_mem_erase hx)⟩

theorem performGroup_machineInv {g : Group} (hi : MachineInv u) (hd : failingCheck s d = none) (hg : g ∈ d.groups) :
    MachineInv (performGroup d g u) := by
  obtain ⟨hwf, hsp⟩ := hi.memoryOk
  refine machineInv_of_memory hi ⟨performGroup_wf hwf, performGroup_inSpace hd hsp hg⟩ ?_
  rw [performGroup_frame.same]

theorem complete_machineInv (hi : MachineInv s) (hb : s.busy = true) (hp : s.pending = []) : MachineInv (complete s) := by
  obtain ⟨hc, ⟨hbusy, -, hnone, hcode⟩, -, hm, hh⟩ := hi
  obtain ⟨-, hf⟩ := hbusy hb
  exact ⟨hc, ⟨fun h => absurd h Bool.false_ne_true, fun h => absurd (hf.symm.trans h.2) Bool.false_ne_true, hnone, hcode⟩,
    engineOk_idle rfl rfl hp, hm, hh⟩

theorem engineStep_machineInv (k : Nat) (hi : MachineInv s) : MachineInv (engineStep k s) := by
  rcases engineStep_cases k s with ⟨-, e⟩ | ⟨d, hb, -, hp, e⟩ | ⟨d, g, hb, hd, hg, e⟩ <;> rw [e]
  · exact hi
  · exact complete_machineInv hi hb hp
  · obtain ⟨-, -, -, -, hf, -, hgs⟩ := hi.descOk hd
    exact performGroup_machineInv (erase_machineInv g hi hb) hf (hgs g (chosenGroup_mem hg))

theorem resetEngine_inSpace (hi : MachineInv s) : Memory.InSpace (resetEngine s).mem := by
  obtain ⟨-, hsp⟩ := hi.memoryOk
  unfold resetEngine
  split
  · rename_i d _ hd
    refine writeBytes_inSpace hsp ?_
    rw [length_scrambleBytes]
    exact dstR_le_addressSpace (hi.admitted hd)
  · exact hsp

theorem resetEngine_machineInv (hi : MachineInv s) : MachineInv (resetEngine s) := by
  have hsp := resetEngine_inSpace hi
  obtain ⟨hc, -, -, ⟨hwf, -⟩, hh⟩ := hi
  have hm : MemoryOk (resetEngine s) := ⟨resetEngine_wf s hwf, hsp⟩
  rw [resetEngine_eq] at hm ⊢
  exact ⟨hc, ⟨fun h => absurd h Bool.false_ne_true, fun h => absurd h.1 Bool.false_ne_true, fun _ => rfl,
    fun h => absurd h Bool.false_ne_true⟩, engineOk_idle rfl rfl rfl, hm, hh⟩

theorem stepEffect_machineInv (hi : MachineInv s) (h : StepEffect s t) : MachineInv t := by
  cases h with
  | host h => exact hostEffect_machineInv hi h
  | engine k u _ hf e => exact e ▸ engineStep_machineInv k (hf.machineInv hi)
  | reset u _ hf e => exact e ▸ resetEngine_machineInv (hf.machineInv hi)

/-- Settles O54: a step is a host's effect, an engine step or reset, and each keeps the invariant. -/
theorem stepKeepsInv : Obligations.StepKeepsInv := fun _ _ hi h => stepEffect_machineInv hi (step_effect h)

/-- Settles O55: at power-on the engine is idle and nothing is listed. -/
theorem resetStateInv : Obligations.ResetStateInv := by
  exact ⟨by decide, by decide, engineOk_idle rfl rfl rfl, ⟨reset_mem_wf, by decide⟩, by decide⟩

end Sys2Proof.Machine
end

section
/-! SUPPORT. The outcomes of an issue (`60_exceptions.md` R160, R170–R172). -/

namespace Sys2Proof.Machine

open Host

variable {s t : State} {i : Instr}

theorem exec_accepted (hb : s.busy = false) (hf : failingCheck s (commandDesc i s) = none) :
    exec i s = .next (accepted i s) := by
  rcases exec_cases i s with ⟨hb', -⟩ | ⟨c, -, hc, -⟩ | ⟨-, -, e⟩
  · exact absurd (hb.symm.trans hb') Bool.false_ne_true
  · cases hf.symm.trans hc
  · exact e

theorem accepted_eq (i : Instr) (s : State) : accepted i s = { s with
    cmd := encodeWord i, done := false, fault := false, cause := 0, busy := true
    desc := some (commandDesc i s), pending := (commandDesc i s).groups } := rfl

/-- Settles O6: R120's conditions pass every check. -/
theorem r2cIssueAccepted : Obligations.R2cIssueAccepted := by
  intro idx s _ hb h
  have hg : (commandDesc (.r2c idx) s).groups = groupsR2c (s.len.toNat / 2) (s.len.toNat / 2 / 2 ^ idx) := by
    simp only [Desc.groups, commandDesc, latch, stride_eq_div, nPrime_eq_div, Op.minLog, pow_one]
  rw [exec_accepted (i := .r2c idx) hb (stageAdmitted_passes (op := .r2c) (by decide) h), accepted_eq, hg,
    encodeWord, shift_or _ (by decide)]
  rfl

/-- Settles O7: R120's conditions pass every check. -/
theorem r2aIssueAccepted : Obligations.R2aIssueAccepted := by
  intro idx s _ hb h
  have hg : (commandDesc (.r2a idx) s).groups = groupsR2a (s.len.toNat / 2) (s.len.toNat / 2 / 2 ^ idx) := by
    simp only [Desc.groups, commandDesc, latch, stride_eq_div, nPrime_eq_div, Op.minLog, pow_one]
  rw [exec_accepted (i := .r2a idx) hb (stageAdmitted_passes (op := .r2a) (by decide) h), accepted_eq, hg,
    encodeWord, shift_or _ (by decide)]
  rfl

/-- Settles O8: R140's conditions pass every check. -/
theorem r4IssueAccepted : Obligations.R4IssueAccepted := by
  intro idx s _ hb h
  have hg : (commandDesc (.r4 idx) s).groups = groupsR4 (s.len.toNat / 4) (s.len.toNat / 4 / 2 ^ idx) := by
    simp only [Desc.groups, commandDesc, latch, stride_eq_div, nPrime_eq_div, Op.minLog, Nat.reducePow]
  rw [exec_accepted (i := .r4 idx) hb (stageAdmitted_passes (op := .r4) (by decide) h), accepted_eq, hg,
    encodeWord, shift_or _ (by decide)]
  rfl

/-- Settles O9: R146's conditions pass every check. -/
theorem initIssueAccepted : Obligations.InitIssueAccepted := by
  intro s hb h
  have hg : (commandDesc .init s).groups = groupsInit (s.len.toNat / 2) := by
    simp only [Desc.groups, commandDesc, latch, nPrime_eq_div, Op.minLog, pow_one]
  rw [exec_accepted (i := .init) hb (initAdmitted_passes h), accepted_eq, hg]
  rfl

theorem exec_issueFrame (h : exec i s = .next t) : IssueFrame s t := by
  obtain ⟨enum, e, -⟩ := exec_eq_command i s
  cases e.symm.trans h
  exact command_issueFrame _ _ _ _

/-- Settles O11: the three cases of a command, and the frame of the issue step. -/
theorem issueOutcomesAndFrame : Obligations.IssueOutcomesAndFrame := by
  intro i s
  obtain ⟨t, ht⟩ := exec_next i s
  have hf := exec_issueFrame ht
  refine ⟨t, ht, ?_, hf.cfg, hf.len, hf.src, hf.dst, hf.tw, hf.twlen, hf.ie, hf.prog, hf.hpc, hf.halted, hf.h, hf.c,
    hf.regHost, hf.regData, hf.memData, hf.events, hf.draws, fun a => by rw [hf.mem]⟩
  rcases exec_cases i s with ⟨hb, e⟩ | ⟨c, hb, -, e⟩ | ⟨hb, -, e⟩ <;> cases e.symm.trans ht
  · exact .inl ⟨hb, rfl⟩
  · exact .inr (.inl ⟨hb, hb, rfl, rfl, rfl, rfl, rfl, rfl, rfl⟩)
  · exact .inr (.inr ⟨hb, rfl, rfl, rfl, rfl, rfl, rfl, rfl, rfl, rfl⟩)

/-- Settles O46: the fields that reset sets, and its stores, which lie in `DSTR`, apart from the inputs of an admitted stage. -/
theorem resetEvent : Obligations.ResetEvent := by
  rintro s es hi ⟨hstop, -, he⟩
  let u : State := { s with events := es }
  refine ⟨(resetEngine u).mem, (resetEngine u).draws, ?_, resetEngine_mem_idle u, fun d hd => ⟨fun a ha => ?_, ?_⟩⟩
  · rw [step_cons hstop he]
    exact congrArg Outcome.next (resetEngine_eq u)
  · exact read_resetEngine_outside u hd ha
  · exact fun hop a ha => read_resetEngine_outside u hd (dstR_apart (hi.admitted hd) hop ha)

end Sys2Proof.Machine
end

section
/-! SUPPORT. The register window (`10_state.md` R20–R38): every aligned 32-bit access is the access of the register at its offset. -/

namespace Sys2Proof.Machine

open Host

variable {s : State} {es : List Event} {h : Nat}

/-! ### Accesses at the offset of a register -/

theorem regOffset_aligned (r : Reg) : regOffset r % 4 = 0 ∧ regOffset r < 64 := by
  cases r with
  | reserved k =>
    simp only [regOffset]
    omega
  | _ => decide

theorem touchesWindow_regOffset (cfg : Config) (r : Reg) : touchesWindow cfg (cfg.coreBase + regOffset r) 4 = true := by
  obtain ⟨-, h64⟩ := regOffset_aligned r
  exact bytesMeet_iff.2 ⟨cfg.coreBase + regOffset r, by omega, by omega⟩

theorem accessFault_regOffset (hc : s.cfg.wf) (hm : MayAccess s h) (r : Reg) :
    accessFault h (s.cfg.coreBase + regOffset r) 4 s = none := by
  obtain ⟨h4, -⟩ := regOffset_aligned r
  obtain ⟨-, -, h64⟩ := hc
  have halign : ¬ (4 ≠ 4 ∨ (s.cfg.coreBase + regOffset r) % 4 ≠ 0) := by omega
  rw [accessFault, if_neg halign]
  rcases hm with hm | hm <;> simp [hm]

theorem regAccess_regOffset (hc : s.cfg.wf) (hm : MayAccess s h) (r : Reg)
    (act : Reg → State → Outcome State Fault Refusal) :
    regAccess h (s.cfg.coreBase + regOffset r) 4 act s = act r { s with regHost := some h } := by
  simp only [regAccess, touchesWindow_regOffset, accessFault_regOffset hc hm, Nat.add_sub_cancel_left,
    regAt_regOffset, if_true]

/-- The step of an aligned 32-bit write input. -/
theorem step_regWrite {r : Reg} {v : Word} (hn : NextInput s (.access (.regWrite h (s.cfg.coreBase + regOffset r) 4 v)) es)
    (hm : MayAccess s h) : step s = writeReg r v { s with events := es, regHost := some h } := by
  obtain ⟨hstop, hc, he⟩ := hn
  rw [step_cons hstop he]
  exact regAccess_regOffset (s := { s with events := es }) hc hm r fun r t => writeReg r v t

/-- The step of an aligned 32-bit read input. -/
theorem step_regRead {r : Reg} (hn : NextInput s (.access (.regRead h (s.cfg.coreBase + regOffset r) 4)) es)
    (hm : MayAccess s h) :
    step s = .next { s with
      events := es, regHost := some h, regData := readReg r { s with events := es, regHost := some h } } := by
  obtain ⟨hstop, hc, he⟩ := hn
  rw [step_cons hstop he]
  exact regAccess_regOffset (s := { s with events := es }) hc hm r fun r t => .next { t with regData := readReg r t }

theorem hostStep_line {line : HostLine} (hh : s.halted = false) (hl : s.prog[s.hpc]? = some line) :
    hostStep s = hostLine line s := by
  simp [hostStep, hh, hl]

/-- The step of a `wr` line. -/
theorem step_wr {r : Reg} {v : Word} (hn : NextInput s .host es) (hm : MayAccess s programHost) (hh : s.halted = false)
    (hl : s.prog[s.hpc]? = some (.wr r v)) :
    step s = writeReg r v { s with events := es, hpc := s.hpc + 1, regHost := some programHost } := by
  obtain ⟨hstop, hc, he⟩ := hn
  rw [step_cons hstop he]
  exact (hostStep_line (s := { s with events := es }) hh hl).trans
    (regAccess_regOffset (s := nextLine { s with events := es }) hc hm r fun r t => writeReg r v t)

/-! ### A legal word written to `CMD` -/

/-- Appending words is a sum of their numbers. -/
theorem append_toNat {m n : Nat} (x : BitVec m) (y : BitVec n) : (x ++ y).toNat = 2 ^ n * x.toNat + y.toNat := by
  rw [BitVec.toNat_append, ← Nat.shiftLeft_add_eq_or_of_lt y.isLt, Nat.shiftLeft_eq, Nat.mul_comm]

theorem wordOfBytes_bytesOfWord (w : Word) :
    wordOfBytes (w.extractLsb' 0 8) (w.extractLsb' 8 8) (w.extractLsb' 16 8) (w.extractLsb' 24 8) = w := by
  refine BitVec.eq_of_toNat_eq ?_
  have := w.isLt
  simp only [wordOfBytes, append_toNat, BitVec.extractLsb'_toNat, Nat.shiftRight_eq_div_pow]
  omega

theorem decodeWord_tableWord {nbits w : Nat} {i : Instr} (h : decodeTableWord nbits w = some i) :
    decodeWord (tableWord nbits w) = .ok i := by
  simp only [decodeTableWord, bytesOfWord, decode, wordOfBytes_bytesOfWord] at h
  cases hd : decodeWord (tableWord nbits w) with
  | error e => simp [hd] at h
  | ok j => simpa [hd] using h

theorem writeReg_cmd {w : Word} {i : Instr} (hd : decodeWord w = .ok i) (s : State) : writeReg .cmd w s = exec i s := by
  simp only [writeReg, writeCmd, hd]

/-- Settles O4: a write to `CMD`, by an input, by a host line, or placed by `withFetchWord`. -/
theorem stepRunsDecodedCommand : Obligations.StepRunsDecodedCommand := by
  refine ⟨fun s es h w i hn hm hd => ?_, fun s es w i hn hm hh hl hd => ?_, fun s nbits w i hstop hc hd => ?_⟩
  · rw [step_regWrite (r := .cmd) hn hm, writeReg_cmd hd]
  · rw [step_wr hn hm hh hl, writeReg_cmd hd]
    rfl
  · have hm : MayAccess (s.withFetchWord nbits w) (s.regHost.getD 0) := by
      cases hr : s.regHost with
      | none => exact .inl hr
      | some x => exact .inr hr
    rw [step_regWrite (s := s.withFetchWord nbits w) (r := .cmd) (es := s.events) ⟨hstop, hc, rfl⟩ hm,
      writeReg_cmd (decodeWord_tableWord hd)]
    rfl

/-! ### Writes -/

/-- The words of the window that ignore a write (`10_state.md` R22, R37). -/
def readOnlyRegs : List Reg := .caps :: (List.finRange 7).map .reserved

theorem mem_readOnlyRegs {off : Nat} (ho : off ∈ [0x20, 0x24, 0x28, 0x2C, 0x30, 0x34, 0x38, 0x3C]) :
    ∃ r ∈ readOnlyRegs, regOffset r = off := List.mem_map.1 (show off ∈ readOnlyRegs.map regOffset from ho)

theorem mem_protectedRegs {off : Nat} (ho : off ∈ [0x00, 0x0C, 0x10, 0x14, 0x18, 0x1C]) :
    ∃ r ∈ protectedRegs, regOffset r = off := List.mem_map.1 (show off ∈ protectedRegs.map regOffset from ho)

theorem writeReg_readOnly {r : Reg} (hr : r ∈ readOnlyRegs) (v : Word) (s : State) : writeReg r v s = .next s := by
  cases r with
  | caps | reserved => rfl
  | _ => simp [readOnlyRegs] at hr

theorem writeCmd_busy (w : Word) (hb : s.busy = true) : writeCmd w s = .next (dropWrite s) := by
  unfold writeCmd
  split
  · obtain ⟨enum, e, -⟩ := exec_eq_command _ s
    rw [e, command_busy hb]
  · rw [illegalCommand, if_pos hb]

/-- While busy a write to a register that the operation protects only sets `DROP` (`10_state.md` R38). -/
theorem writeReg_busy {r : Reg} (hr : r ∈ protectedRegs) (v : Word) (hb : s.busy = true) :
    writeReg r v s = .next (dropWrite s) := by
  cases r with
  | cmd => exact writeCmd_busy v hb
  | len | src | dst | tw | twlen => simp [writeReg, unlessBusy, hb]
  | _ => simp [protectedRegs] at hr

theorem ite_false_eq_and_not (b x : Bool) : (if b then false else x) = (x && !b) := by cases b <;> simp

theorem unlessBusy_idle {t : State} (hb : s.busy = false) : unlessBusy s t = .next t := by simp [unlessBusy, hb]

/-- Settles O15: the step is `writeStatus`, busy or not. -/
theorem statusWriteClears : Obligations.StatusWriteClears := by
  intro s es h v hn hm
  rw [step_regWrite (r := .status) hn hm]
  exact congrArg Outcome.next (writeStatus_eq v _)

/-- Settles O13: what each register's write does while busy. -/
theorem busyWritesDropped : Obligations.BusyWritesDropped := by
  intro s es h off v hn hm hb
  refine ⟨fun ho => ?_, ?_, ?_, fun ho => ?_⟩
  · obtain ⟨r, hr, rfl⟩ := mem_protectedRegs ho
    exact (step_regWrite hn hm).trans (writeReg_busy hr v hb)
  · rintro rfl
    rw [statusWriteClears s es h v hn hm]
    simp only [ite_false_eq_and_not, BitVec.ofNat_eq_ofNat]
  · rintro rfl
    exact step_regWrite (r := .ctrl) hn hm
  · obtain ⟨r, hr, rfl⟩ := mem_readOnlyRegs ho
    rw [step_regWrite hn hm, writeReg_readOnly hr]

/-- Settles O14: what each register's write does while idle. -/
theorem registerWrites : Obligations.RegisterWrites := by
  intro s es h off v hn hm
  refine ⟨?_, fun hb => ⟨?_, ?_, ?_, ?_, ?_⟩, fun ho => ?_⟩
  · rintro rfl
    exact step_regWrite (r := .ctrl) hn hm
  · rintro rfl
    exact (step_regWrite (r := .len) hn hm).trans (unlessBusy_idle hb)
  · rintro rfl
    exact (step_regWrite (r := .src) hn hm).trans (unlessBusy_idle hb)
  · rintro rfl
    exact (step_regWrite (r := .dst) hn hm).trans (unlessBusy_idle hb)
  · rintro rfl
    exact (step_regWrite (r := .tw) hn hm).trans (unlessBusy_idle hb)
  · rintro rfl
    exact (step_regWrite (r := .twlen) hn hm).trans (unlessBusy_idle hb)
  · obtain ⟨r, hr, rfl⟩ := mem_readOnlyRegs ho
    rw [step_regWrite hn hm, writeReg_readOnly hr]

/-! ### Reads -/

/-- The sixteen words of the window in the order of their offsets (`10_state.md` R22). -/
def windowRegs : List Reg := [.cmd, .status, .ctrl, .len, .src, .dst, .tw, .twlen] ++ readOnlyRegs

/-- Settles O16: the sixteen offsets and values are those of the registers. -/
theorem registerReads : Obligations.RegisterReads := by
  intro s es h off v hn hm ho
  obtain ⟨r, -, e⟩ := List.mem_map.1 (show (off, v) ∈ windowRegs.map fun r => (regOffset r, readReg r s) from ho)
  cases e
  rw [step_regRead hn hm]
  cases r <;> rfl

/-- Settles O17: each word is an append of its fields. -/
theorem registerWordFields : Obligations.RegisterWordFields := by
  refine ⟨fun s => ?_, fun s => ?_, fun s ⟨_, hmax, _⟩ => ?_⟩
  · simp only [statusWord, append_toNat, BitVec.toNat_ofBool, BitVec.toNat_ofNat]
    omega
  · cases hie : s.ie <;> simp [ctrlWord, hie]
  · simp only [capsWord, BitVec.toNat_setWidth, BitVec.toNat_ofNat]
    omega

/-! ### Bad accesses, and a machine with nothing to do -/

/-- A logged model fault is the stop of a log that had none. -/
theorem modelStop_append {f : MFault} (hs : modelStop s = none) : (s.mfaults ++ [f]).findSome? stopOf = stopOf f := by
  rw [List.findSome?_append, show s.mfaults.findSome? stopOf = none from hs]
  cases hf : stopOf f <;> simp [hf]

/-- Settles O18: such an access reaches `accessFault`, whose entry stops the machine. -/
theorem badAccessIsModelFault : Obligations.BadAccessIsModelFault := by
  intro s es h addr width v acc hacc ⟨hstop, hc, he⟩ hbad hw hlo hhi
  have ht : touchesWindow s.cfg addr width = true :=
    bytesMeet_iff.2 ⟨max addr s.cfg.coreBase, by omega, by omega⟩
  have hf : accessFault h addr width { s with events := es } = some (.mmioAccess addr width) := by
    rw [accessFault, if_pos hbad]
  constructor
  · rw [step_cons hstop he]
    rcases hacc with rfl | rfl <;> simp only [handle, hostAccess, regAccess, ht, hf, if_true] <;> rfl
  · exact step_of_modelStop (modelStop_append (f := .mmioAccess addr width) hstop)

theorem hostStep_done (h : s.halted = true ∨ s.prog[s.hpc]? = none) : hostStep s = .next s := by
  unfold hostStep
  split
  · rfl
  · rw [h.resolve_left ‹_›]

theorem step_at_rest (hs : modelStop s = none) (hb : s.busy = false) (he : s.events = [])
    (hh : s.halted = true ∨ s.prog[s.hpc]? = none) : step s = .next s := by
  rw [step_nil hs he, unscheduled, hb, if_neg Bool.false_ne_true, hostStep_done hh]

/-- Settles O47: reset's values, and a host step with nothing left to do. -/
theorem powerOnState : Obligations.PowerOnState :=
  ⟨by decide, fun _ => step_at_rest, step_at_rest rfl rfl rfl (.inr rfl)⟩

end Sys2Proof.Machine
end

section
/-! SUPPORT. The `STATUS` fields along every step (`10_state.md` R25–R30, `60_exceptions.md` R175, R176). -/

namespace Sys2Proof.Machine

variable {s t u : State}

/-- `BUSY`, `DONE`, `FAULT`, `DROP` and `CAUSE`. -/
def statusFields (s : State) : Bool × Bool × Bool × Bool × BitVec 8 := (s.busy, s.done, s.fault, s.drop, s.cause)

/-- Everything that can happen to the `STATUS` fields in one step, with the event that does it. -/
inductive StatusChange (s t : State) : Prop where
  | same (e : statusFields t = statusFields s)
  | dropped (r : Reg) (v : Word) (hr : r ∈ protectedRegs) (hb : s.busy = true) (w : s.cfg.wf → WritesReg s r v)
      (e : statusFields t = (s.busy, s.done, s.fault, true, s.cause))
  | cleared (v : Word) (w : s.cfg.wf → WritesReg s .status v)
      (e : statusFields t = (s.busy, if v.getLsbD 1 then false else s.done, if v.getLsbD 2 then false else s.fault,
        if v.getLsbD 3 then false else s.drop, if v.getLsbD 2 then 0 else s.cause))
  | faulted (hb : s.busy = false) (w : s.cfg.wf → WritesReg s .cmd t.cmd) (hlog : t.mfaults = s.mfaults ++ [.check t.cause])
      (e : statusFields t = (s.busy, false, true, s.drop, t.cause))
  | accepted (i : Instr) (hb : s.busy = false) (w : s.cfg.wf → WritesReg s .cmd t.cmd) (hd : t.desc = some (commandDesc i s))
      (hcmd : t.cmd = encodeWord i) (hc : failingCheck s (commandDesc i s) = none) (hm : t.mem = s.mem)
      (e : statusFields t = (true, false, false, s.drop, 0))
  | completed (hm : EngineMoves s) (hb : s.busy = true) (hp : s.pending = [])
      (e : statusFields t = (false, true, s.fault, s.drop, s.cause))
  | reset (hr : Resets s) (e : statusFields t = (false, false, false, false, 0))

/-! ### Every step is one of these -/

theorem HostFrame.statusFields (h : HostFrame s u) : statusFields u = statusFields s := by
  rw [h.same]
  rfl

theorem HostFrame.commandDesc (h : HostFrame s u) (i : Instr) : commandDesc i u = commandDesc i s := by
  rw [h.same]
  cases i <;> rfl

theorem HostFrame.failingCheck (h : HostFrame s u) (d : Desc) : failingCheck u d = failingCheck s d := by
  rw [h.same]
  rfl

/-- A register write after moves of the host's own fields. -/
theorem regWriteEffect_statusChange {r : Reg} {v : Word} (hf : HostFrame s u) (w : s.cfg.wf → WritesReg s r v)
    (h : RegWriteEffect r v u t) : StatusChange s t := by
  cases h with
  | ignored e | ctrl e =>
    subst e
    exact .same hf.statusFields
  | operand _ e =>
    rw [e]
    exact .same hf.statusFields
  | dropped hr hb e =>
    subst e
    exact .dropped r v hr (hf.busy ▸ hb) w (by rw [hf.same]; rfl)
  | status hr e =>
    subst e hr
    exact .cleared v w (by rw [hf.same, writeStatus_eq]; rfl)
  | faulted c hr hb e =>
    subst e hr
    exact .faulted (hf.busy ▸ hb) w (by rw [hf.same]; rfl) (by rw [hf.same]; rfl)
  | accepted i hr hb _ hv hc e =>
    subst e hr hv
    have hd := hf.commandDesc i
    rw [hf.failingCheck, hd] at hc
    exact .accepted i (hf.busy ▸ hb) w (congrArg some hd) rfl hc hf.mem (by rw [hf.same]; rfl)

theorem hostEffect_statusChange (h : HostEffect (WritesReg s) s t) : StatusChange s t := by
  cases h with
  | quiet h => exact .same h.statusFields
  | logged f u h e | stored _ _ u h _ _ e =>
    subst e
    exact .same h.statusFields
  | wrote r v u h w e => exact regWriteEffect_statusChange h w (writeReg_effect e)

theorem engineStep_statusChange (hm : EngineMoves s) (hf : HostFrame s u) (k : Nat) : StatusChange s (engineStep k u) := by
  rcases engineStep_cases k u with ⟨-, e⟩ | ⟨d, hb, -, hp, e⟩ | ⟨d, g, -, -, -, e⟩ <;> rw [e]
  · exact .same hf.statusFields
  · rw [hf.same] at hb hp
    exact .completed hm hb hp (by rw [hf.same]; rfl)
  · rw [performGroup_frame.same]
    exact .same hf.statusFields

theorem stepEffect_statusChange (h : StepEffect s t) : StatusChange s t := by
  cases h with
  | host h => exact hostEffect_statusChange h
  | engine k u hm hf e => exact e ▸ engineStep_statusChange hm hf k
  | reset u hr hf e =>
    rw [e, resetEngine_eq]
    exact .reset hr rfl

/-! ### What each rise and fall says -/

namespace StatusChange

variable (h : StatusChange s t)

include h

theorem of_busy_rises (h0 : s.busy = false) (h1 : t.busy = true) :
    (∃ i, t.desc = some (commandDesc i s) ∧ t.cmd = encodeWord i ∧ Machine.failingCheck s (commandDesc i s) = none
      ∧ t.mem = s.mem) ∧ (s.cfg.wf → WritesReg s .cmd t.cmd) := by
  cases h with
  | accepted i _ w hd hcmd hc hm _ => exact ⟨⟨i, hd, hcmd, hc, hm⟩, w⟩
  | _ => simp_all [statusFields]

theorem of_busy_falls (h0 : s.busy = true) (h1 : t.busy = false) :
    Resets s ∨ EngineMoves s ∧ s.pending = [] ∧ t.done = true := by
  cases h with
  | completed hm _ hp e => exact .inr ⟨hm, hp, by simp_all [statusFields]⟩
  | reset hr _ => exact .inl hr
  | _ => simp_all [statusFields]

theorem of_done_rises (h0 : s.done = false) (h1 : t.done = true) :
    EngineMoves s ∧ s.busy = true ∧ s.pending = [] ∧ t.busy = false := by
  cases h with
  | completed hm hb hp e => exact ⟨hm, hb, hp, by simp_all [statusFields]⟩
  | _ => simp_all [statusFields]

theorem of_done_falls (hc : s.cfg.wf) (h0 : s.done = true) (h1 : t.done = false) :
    Resets s ∨ (s.busy = false ∧ WritesReg s .cmd t.cmd) ∨ ∃ v, WritesReg s .status v ∧ v.getLsbD 1 = true := by
  cases h with
  | cleared v w e => exact .inr (.inr ⟨v, w hc, by simp_all [statusFields]⟩)
  | faulted hb w _ _ | accepted _ hb w _ _ _ _ _ => exact .inr (.inl ⟨hb, w hc⟩)
  | reset hr _ => exact .inl hr
  | _ => simp_all [statusFields]

theorem of_fault_rises (h0 : s.fault = false) (h1 : t.fault = true) :
    (s.busy = false ∧ t.mfaults = s.mfaults ++ [.check t.cause]) ∧ (s.cfg.wf → WritesReg s .cmd t.cmd) := by
  cases h with
  | faulted hb w hlog _ => exact ⟨⟨hb, hlog⟩, w⟩
  | _ => simp_all [statusFields]

theorem of_fault_falls (hc : s.cfg.wf) (h0 : s.fault = true) (h1 : t.fault = false) :
    Resets s ∨ (s.busy = false ∧ WritesReg s .cmd t.cmd) ∨ ∃ v, WritesReg s .status v ∧ v.getLsbD 2 = true := by
  cases h with
  | cleared v w e => exact .inr (.inr ⟨v, w hc, by simp_all [statusFields]⟩)
  | accepted _ hb w _ _ _ _ _ => exact .inr (.inl ⟨hb, w hc⟩)
  | reset hr _ => exact .inl hr
  | _ => simp_all [statusFields]

theorem of_drop_rises (h0 : s.drop = false) (h1 : t.drop = true) :
    s.busy = true ∧ (s.cfg.wf → ∃ r ∈ protectedRegs, ∃ v, WritesReg s r v) := by
  cases h with
  | dropped r v hr hb w _ => exact ⟨hb, fun hc => ⟨r, hr, v, w hc⟩⟩
  | _ => simp_all [statusFields]

theorem of_drop_falls (hc : s.cfg.wf) (h0 : s.drop = true) (h1 : t.drop = false) :
    Resets s ∨ ∃ v, WritesReg s .status v ∧ v.getLsbD 3 = true := by
  cases h with
  | cleared v w e => exact .inr ⟨v, w hc, by simp_all [statusFields]⟩
  | reset hr _ => exact .inl hr
  | _ => simp_all [statusFields]

theorem of_cause_changes (hc : s.cfg.wf) (hne : t.cause ≠ s.cause) :
    (Resets s ∧ t.cause = 0) ∨ (s.busy = false ∧ WritesReg s .cmd t.cmd ∧ (t.cause = 0 ∨ t.fault = true))
      ∨ ∃ v, WritesReg s .status v ∧ v.getLsbD 2 = true ∧ t.cause = 0 := by
  cases h with
  | cleared v w e =>
    have hcause : t.cause = if v.getLsbD 2 then 0 else s.cause := congrArg (fun p => p.2.2.2.2) e
    cases hv : v.getLsbD 2 <;> rw [hv] at hcause
    · exact absurd hcause hne
    · exact .inr (.inr ⟨v, w hc, hv, hcause⟩)
  | faulted hb w _ e => exact .inr (.inl ⟨hb, w hc, .inr (by simp_all [statusFields])⟩)
  | accepted _ hb w _ _ _ _ e => exact .inr (.inl ⟨hb, w hc, .inl (by simp_all [statusFields])⟩)
  | reset hr e => exact .inl ⟨hr, by simp_all [statusFields]⟩
  | _ => simp_all [statusFields]

end StatusChange

/-- Settles O57: each clause is what one rise, fall or change leaves of the cases of `StatusChange`. -/
theorem statusRisesOnlyAsRuled : Obligations.StatusRisesOnlyAsRuled := by
  intro s t hst
  have h := stepEffect_statusChange (step_effect hst)
  refine ⟨fun h0 h1 => (h.of_busy_rises h0 h1).1, fun h0 h1 => (h.of_busy_falls h0 h1).imp_right And.right,
    fun h0 h1 => (h.of_done_rises h0 h1).2, fun h0 h1 => (h.of_fault_rises h0 h1).1,
    fun h0 h1 => (h.of_drop_rises h0 h1).1, fun hc => ?_⟩
  exact ⟨fun h0 h1 => (h.of_busy_rises h0 h1).2 hc, fun h0 h1 => (h.of_busy_falls h0 h1).imp_right And.left,
    fun h0 h1 => (h.of_done_rises h0 h1).1, h.of_done_falls hc, fun h0 h1 => (h.of_fault_rises h0 h1).2 hc,
    h.of_fault_falls hc, fun h0 h1 => (h.of_drop_rises h0 h1).2 hc, h.of_drop_falls hc, h.of_cause_changes hc⟩

end Sys2Proof.Machine
end

section
/-! SUPPORT. Host accesses to system memory (`20_memory.md` R50–R53, `70_reset_and_hazards.md` R197): the bytes a host write stores and
a host read returns, busy or idle. -/

namespace Sys2Proof.Machine

open Host

variable {s t : State} {es : List Event}

/-! ### The step of a memory access -/

theorem step_memWrite {a : Word} {bs : List Byte} (hn : NextInput s (.access (.memWrite a bs)) es) :
    step s = hostMemWrite a.toNat bs { s with events := es } := by
  obtain ⟨hstop, -, he⟩ := hn
  exact step_cons hstop he

theorem step_memRead {a : Word} {n : Nat} (hn : NextInput s (.access (.memRead a n)) es) :
    step s = hostMemRead a.toNat n { s with events := es } := by
  obtain ⟨hstop, -, he⟩ := hn
  exact step_cons hstop he

theorem hostMemWrite_beyond {a : Nat} {bs : List Byte} (h : addressSpace < a + bs.length) :
    hostMemWrite a bs s = .fault .noSuchAddress := by simp [hostMemWrite, h]

theorem hostMemRead_beyond {a n : Nat} (h : addressSpace < a + n) : hostMemRead a n s = .fault .noSuchAddress := by
  simp [hostMemRead, h]

/-- Settles O41: the address bound is the first thing either access looks at. -/
theorem hostAccessBeyondMemoryStops : Obligations.HostAccessBeyondMemoryStops :=
  ⟨fun _ _ _ _ hn h => (step_memWrite hn).trans (hostMemWrite_beyond h),
    fun _ _ _ _ hn h => (step_memRead hn).trans (hostMemRead_beyond h)⟩

/-! ### Writes -/

/-- A write is a hazard exactly when it covers a byte of a used region of the running operation (`70_reset_and_hazards.md` R197). -/
theorem isHazard_iff {a n : Nat} :
    isHazard s a n = true
      ↔ s.busy = true ∧ ∃ d, s.desc = some d ∧ ∃ r ∈ d.used, ∃ x, (a ≤ x ∧ x < a + n) ∧ r.has x = true := by
  cases hb : s.busy
  · simp [isHazard_idle hb]
  · cases hd : s.desc with
    | none => simp [isHazard, busyRegions, hb, hd]
    | some d => simp only [isHazard, busyRegions, hb, hd, List.any_eq_true, bytesMeet_iff, Region.has_iff, true_and,
        Option.some.injEq, exists_eq_left']

theorem hostMemWrite_stores {a : Nat} {bs : List Byte} (hb : a + bs.length ≤ addressSpace)
    (hz : isHazard s a bs.length = false) :
    hostMemWrite a bs s = .next { s with mem := Memory.writeBytes s.mem a bs } := by
  simp [hostMemWrite, Nat.not_lt.2 hb, hz]

/-- The stored bytes, by their place. -/
theorem read_writeBytes_getElem {m : Memory} {a j : Nat} {bs : List Byte} (hj : j < bs.length) :
    (Memory.writeBytes m a bs).read (a + j) = bs[j] := by
  rw [Memory.read_writeBytes, if_pos (by omega), Nat.add_sub_cancel_left, List.getD_eq_getElem _ _ hj]

/-- Settles O38: such a write is no hazard, so its bytes are stored. -/
theorem hostWriteStores : Obligations.HostWriteStores := by
  intro s es a bs hn hb hclear
  have hz : isHazard { s with events := es } a.toNat bs.length = false := by
    rw [← Bool.not_eq_true, isHazard_iff]
    rintro ⟨hbusy, d, hd, r, hr, x, ⟨hlo, hhi⟩, hx⟩
    exact absurd ((hclear d r x hbusy hd hr hlo hhi).symm.trans hx) Bool.false_ne_true
  exact ⟨_, (step_memWrite hn).trans (hostMemWrite_stores hb hz), fun j hj => read_writeBytes_getElem hj,
    fun x hx => Memory.read_writeBytes_outside hx⟩

/-! ### Reads -/

theorem inBusyDst_eq_false {a : Nat} (h : ∀ d, s.busy = true → s.desc = some d → d.dstR.has a = false) :
    inBusyDst s a = false := by
  unfold inBusyDst
  split
  · exact h _ ‹_› ‹_›
  · rfl

@[simp] theorem length_hostBytes (s : State) (k a n : Nat) : (hostBytes s k a n).length = n := by
  induction n generalizing k a with
  | zero => rfl
  | succ n ih => simp [hostBytes, ih]

/-- A byte of a read that lies outside `DSTR` of a running operation is the current one (`70_reset_and_hazards.md` R197). -/
theorem hostBytes_getElem_current {k a n j : Nat} (hj : j < (hostBytes s k a n).length)
    (hout : inBusyDst s (a + j) = false) : (hostBytes s k a n)[j] = Memory.read s.mem (a + j) := by
  induction n generalizing k a j with
  | zero => simp [hostBytes] at hj
  | succ n ih =>
    cases j with
    | zero => exact if_neg (Bool.eq_false_iff.1 hout)
    | succ j =>
      have e : a + (j + 1) = a + 1 + j := by omega
      rw [e] at hout ⊢
      exact ih (Nat.lt_of_succ_lt_succ hj) hout

theorem hostMemRead_next {a n : Nat} (h : a + n ≤ addressSpace) :
    hostMemRead a n s = .next { s with memData := hostBytes s s.draws a n
                                       draws := s.draws + (if s.busy then n else 0) } := by
  simp only [hostMemRead, gt_iff_lt, Nat.not_lt.2 h, if_false]

/-- Settles O40: a byte of a host read is drawn only inside `DSTR` of a running operation. -/
theorem hostReadReturnsCurrent : Obligations.HostReadReturnsCurrent := by
  intro s es a n hn hle
  refine ⟨_, _, (step_memRead hn).trans (hostMemRead_next hle), length_hostBytes _ _ _ _, fun hb => by simp [hb],
    fun j hj hout => hostBytes_getElem_current hj (inBusyDst_eq_false hout)⟩

end Sys2Proof.Machine
end

section
/-! SUPPORT. The host's element lines `st.c` and `ld.c` (`30_encoding.md` R89): the eight bytes of an element in memory
(`00_scope.md` R11, `20_memory.md` R52, R53). -/

namespace Sys2Proof.Machine

open Host

variable {s t : State} {es : List Event} {a : Word} {x : C64} {n : Nat}

/-! ### The bytes of an element -/

/-- The bytes of an element: `re`, then `im`, each least significant byte first (`20_memory.md` R52, R53). -/
def elemBytes (x : C64) : List Byte :=
  (List.range 4).map (fun j => x.re.extractLsb' (8 * j) 8) ++ (List.range 4).map (fun j => x.im.extractLsb' (8 * j) 8)

@[simp] theorem length_elemBytes (x : C64) : (elemBytes x).length = 8 := rfl

theorem elemBytes_re {j : Nat} (hj : j < 4) : (elemBytes x)[j]? = some (x.re.extractLsb' (8 * j) 8) := by
  simp [elemBytes, List.getElem?_append_left, hj]

theorem elemBytes_im {j : Nat} (hj : j < 4) : (elemBytes x)[4 + j]? = some (x.im.extractLsb' (8 * j) 8) := by
  simp [elemBytes, List.getElem?_append_right, hj]

/-- The little-endian bytes of a word's number are its eight-bit fields. -/
theorem bytesOfNat_toNat {w : Nat} (v : BitVec w) (n k : Nat) :
    bytesOfNat n (v.toNat / 2 ^ k) = (List.range n).map fun j => v.extractLsb' (k + 8 * j) 8 := by
  induction n generalizing k with
  | zero => rfl
  | succ n ih =>
    rw [bytesOfNat, List.range_succ_eq_map, List.map_cons, List.map_map, Nat.div_div_eq_div_mul,
      show 2 ^ k * 256 = 2 ^ (k + 8) from (pow_add 2 k 8).symm, ih, ← Nat.shiftRight_eq_div_pow]
    congr 1
    exact List.map_congr_left fun j _ => by rw [Function.comp_apply, show k + 8 * j.succ = k + 8 + 8 * j by omega]

/-- `st.c` stores the bytes of its element. -/
theorem bytesOfNat_c64ToNat (x : C64) : bytesOfNat 8 (c64ToNat x) = elemBytes x := by
  have h := bytesOfNat_toNat (x.im ++ x.re) 8 0
  rw [pow_zero, Nat.div_one] at h
  have h8 : List.range 8 = List.range 4 ++ (List.range 4).map (4 + ·) := rfl
  rw [c64ToNat, h, h8, List.map_append, List.map_map, elemBytes]
  congr 1 <;> refine List.map_congr_left fun j hj => ?_
  · have hlt := List.mem_range.1 hj
    rw [BitVec.extractLsb'_append_eq_of_add_le (by omega), Nat.zero_add]
  · rw [Function.comp_apply, BitVec.extractLsb'_append_eq_of_le (by omega), show 0 + 8 * (4 + j) - 32 = 8 * j by omega]

theorem natOfBytes_lt (bs : List Byte) : natOfBytes bs < 256 ^ bs.length := by
  induction bs with
  | nil => simp [natOfBytes]
  | cons b bs ih =>
    have hb := b.isLt
    rw [natOfBytes, List.length_cons, pow_succ]
    omega

theorem bytesOfNat_natOfBytes (bs : List Byte) : bytesOfNat bs.length (natOfBytes bs) = bs := by
  induction bs with
  | nil => rfl
  | cons b bs ih =>
    have hb := b.isLt
    rw [natOfBytes, List.length_cons, bytesOfNat, show (b.toNat + 256 * natOfBytes bs) / 256 = natOfBytes bs by omega, ih]
    congr 1
    exact BitVec.eq_of_toNat_eq (by rw [BitVec.toNat_ofNat]; omega)

theorem c64ToNat_c64OfNat {v : Nat} (h : v < 256 ^ 8) : c64ToNat (c64OfNat v) = v := by
  rw [c64ToNat, append_toNat]
  simp only [c64OfNat, BitVec.extractLsb'_toNat, BitVec.toNat_ofNat, Nat.shiftRight_eq_div_pow]
  omega

/-- The element that `ld.c` makes of eight bytes has these bytes. -/
theorem elemBytes_c64OfNat {bs : List Byte} (h : bs.length = 8) : elemBytes (c64OfNat (natOfBytes bs)) = bs := by
  have hlt := natOfBytes_lt bs
  rw [h] at hlt
  rw [← bytesOfNat_c64ToNat, c64ToNat_c64OfNat hlt, ← h, bytesOfNat_natOfBytes]

theorem c64OfNat_elemBytes (x : C64) : c64OfNat (natOfBytes (elemBytes x)) = x := by
  rw [← bytesOfNat_c64ToNat, natOfBytes_bytesOfNat, Nat.mod_eq_of_lt c64ToNat_lt, c64OfNat_c64ToNat]

/-! ### The steps of the two lines -/

theorem step_hostLine {line : HostLine} (hn : NextInput s .host es) (hh : s.halted = false)
    (hl : s.prog[s.hpc]? = some line) : step s = hostLine line { s with events := es } := by
  obtain ⟨hstop, -, he⟩ := hn
  exact (step_cons hstop he).trans (hostStep_line hh hl)

theorem step_stc (hn : NextInput s .host es) (hh : s.halted = false) (hl : s.prog[s.hpc]? = some (.stc a x)) :
    step s = hostMemWrite a.toNat (elemBytes x) { s with events := es, hpc := s.hpc + 1 } := by
  rw [step_hostLine hn hh hl, ← bytesOfNat_c64ToNat]
  rfl

/-- What `ld.c` does where its eight bytes lie in memory. -/
theorem step_ldc (hn : NextInput s .host es) (hh : s.halted = false) (hl : s.prog[s.hpc]? = some (.ldc a n))
    (h : hostMemRead a.toNat 8 { s with events := es, hpc := s.hpc + 1 } = .next t) :
    step s = .next (setC n (c64OfNat (natOfBytes t.memData)) t) := by
  rw [step_hostLine hn hh hl]
  exact hostLine_ldc_next h

theorem step_ldc_beyond (hn : NextInput s .host es) (hh : s.halted = false)
    (hl : s.prog[s.hpc]? = some (.ldc a n)) (h : addressSpace < a.toNat + 8) : step s = .fault .noSuchAddress := by
  rw [step_hostLine hn hh hl]
  simp only [hostLine, hostMemRead_beyond h]

/-- On an idle engine a read of eight bytes right after an `st.c` returns the element's. -/
theorem hostBytes_writeBytes_elem {m : Memory} {k : Nat} (hb : s.busy = false)
    (hm : s.mem = Memory.writeBytes m a.toNat (elemBytes x)) : hostBytes s k a.toNat 8 = elemBytes x := by
  rw [hostBytes_eq_readBytes fun b _ _ => inBusyDst_idle hb, hm]
  exact Memory.readBytes_writeBytes (elemBytes x)

theorem stc_steps_as_memWrite (hn : NextInput s .host es) (hh : s.halted = false)
    (hl : s.prog[s.hpc]? = some (.stc a x)) :
    step s = step { s with events := .access (.memWrite a (elemBytes x)) :: es, hpc := s.hpc + 1 } := by
  rw [step_stc hn hh hl]
  obtain ⟨hstop, hc, -⟩ := hn
  exact (step_memWrite (s := { nextLine s with events := .access (.memWrite a (elemBytes x)) :: es }) ⟨hstop, hc, rfl⟩).symm

/-- `ld.c` is the read of eight bytes, which go into its temporary alone. -/
theorem ldc_steps_as_memRead (hn : NextInput s .host es) (hh : s.halted = false)
    (hl : s.prog[s.hpc]? = some (.ldc a n)) (h : a.toNat + 8 ≤ addressSpace) :
    ∃ t, step { s with events := .access (.memRead a 8) :: es, hpc := s.hpc + 1 } = .next t
      ∧ t.c = s.c ∧ t.memData.length = 8 ∧ step s = .next (setC n (c64OfNat (natOfBytes t.memData)) t) := by
  have hr := hostMemRead_next (s := { s with events := es, hpc := s.hpc + 1 }) h
  have ⟨hstop, hc, _⟩ := hn
  exact ⟨_, (step_memRead (s := { nextLine s with events := .access (.memRead a 8) :: es }) ⟨hstop, hc, rfl⟩).trans hr, rfl,
    length_hostBytes _ _ _ _, step_ldc hn hh hl hr⟩

/-- On an idle engine `ld.c` brings a stored element back. -/
theorem ldc_returns_stored {m : Memory} (hn : NextInput s .host es) (hb : s.busy = false) (hh : s.halted = false)
    (hl : s.prog[s.hpc]? = some (.ldc a n)) (hle : a.toNat + 8 ≤ addressSpace)
    (hm : s.mem = Memory.writeBytes m a.toNat (elemBytes x)) :
    ∃ u, step s = .next u ∧ getC u n = x ∧ u.hpc = s.hpc + 1 ∧ u.mem = s.mem := by
  let v : State := { s with events := es, hpc := s.hpc + 1 }
  have hx : hostBytes v v.draws a.toNat 8 = elemBytes x := hostBytes_writeBytes_elem hb hm
  refine ⟨_, step_ldc hn hh hl (hostMemRead_next (s := v) hle), ?_, rfl, rfl⟩
  rw [getC_setC, if_pos rfl]
  exact (congrArg (c64OfNat ∘ natOfBytes) hx).trans (c64OfNat_elemBytes x)

/-- Settles O42: an element and its eight bytes determine each other. -/
theorem storeElementThenLoad : Obligations.StoreElementThenLoad := by
  refine ⟨fun s es a x => stc_steps_as_memWrite, fun s es a n hn hh hl => ⟨step_ldc_beyond hn hh hl, fun hle => ?_⟩, ?_⟩
  · obtain ⟨t, ht, hc, hlen, hu⟩ := ldc_steps_as_memRead hn hh hl hle
    have hbytes := elemBytes_c64OfNat hlen
    refine ⟨t, _, ht, hu, rfl, fun k hk => ?_, fun j hj => ?_⟩
    · rw [getC_setC, if_neg hk, getC, hc, getC]
    · rw [getC_setC, if_pos rfl, ← elemBytes_re hj, ← elemBytes_im hj, hbytes]
      exact ⟨rfl, rfl⟩
  · intro s es a x n hn hb hh hl hl' hle
    have hw := hostMemWrite_stores (s := { s with events := .host :: es, hpc := s.hpc + 1 }) (a := a.toNat)
      (bs := elemBytes x) hle (isHazard_idle hb)
    let t : State := { s with
      events := .host :: es, hpc := s.hpc + 1, mem := Memory.writeBytes s.mem a.toNat (elemBytes x) }
    have hbyte {j : Nat} (hj : j < 8) : Memory.read t.mem (a.toNat + j) = (elemBytes x)[j] :=
      read_writeBytes_getElem hj
    have ⟨hstop, hcfg, _⟩ := hn
    obtain ⟨u, hu, hc, hpc, hmem⟩ := ldc_returns_stored (s := t) ⟨hstop, hcfg, rfl⟩ hb hh hl' hle rfl
    refine ⟨t, u, (step_stc hn hh hl).trans hw, hu, hc, hpc, hmem, fun j hj => ?_, fun j hj => ?_,
      fun b hout => Memory.read_writeBytes_outside hout⟩
    · exact (hbyte (by omega)).trans (List.getElem_eq_iff _ |>.2 (elemBytes_re hj))
    · rw [Nat.add_assoc]
      exact (hbyte (by omega)).trans (List.getElem_eq_iff _ |>.2 (elemBytes_im hj))

end Sys2Proof.Machine
end

section
/-! SUPPORT. Who changes memory, and where (`20_memory.md` R51, R60, R61, R66; `70_reset_and_hazards.md` R191, R192, R197, R201): the
engine and reset inside `DSTR` of the running operation, a host at the bytes it stores. -/

namespace Sys2Proof.Machine

open Host

variable {s t u : State} {d : Desc} {a : Nat}

/-! ### The engine -/

/-- An element of the destination stored: the bytes outside `DSTR` read as before (`20_memory.md` R60). -/
theorem read_stC_outside_dstR {m : Memory} {k : Nat} {x : C64} (ha : d.dstR.has a = false) (hk : k < d.n.toNat) :
    (stC m d.dstB k x).read a = m.read a := by
  rw [Region.has_eq_false, Desc.dstR] at ha
  exact read_stC_outside (by simp only [elemAddr]; omega)

section Group

variable {i o : Nat} (hd : failingCheck s d = none) (ha : d.dstR.has a = false)

include hd ha

theorem read_performBf2_outside (h1 : d.op.minLog = 1) (hg : .pair i o ∈ d.groups) :
    Memory.read (performBf2 d i o u).mem a = Memory.read u.mem a := by
  have hlt := bfOut_lt hd hg
  have hout := outputs_mul_nPrime hd
  rw [h1] at hout
  rw [performBf2_mem, read_stC_outside_dstR ha (by omega), read_stC_outside_dstR ha (by omega)]

theorem read_performBf4_outside (h2 : d.op.minLog = 2) (hg : .pair i o ∈ d.groups) :
    Memory.read (performBf4 d i o u).mem a = Memory.read u.mem a := by
  have hlt := bfOut_lt hd hg
  have hout := outputs_mul_nPrime hd
  rw [h2] at hout
  rw [performBf4_mem, read_stC_outside_dstR ha (by omega), read_stC_outside_dstR ha (by omega),
    read_stC_outside_dstR ha (by omega), read_stC_outside_dstR ha (by omega)]

theorem read_groupInit_outside (hop : d.op = .init) (hg : .index o ∈ d.groups) :
    Memory.read (groupInit d o u).mem a = Memory.read u.mem a := by
  have hlt := index_lt hop hg
  have hout := outputs_mul_nPrime hd
  rw [show d.op.minLog = 1 by rw [hop]; rfl] at hout
  rw [groupInit_mem, read_stC_outside_dstR ha (by omega), read_stC_outside_dstR ha (by omega)]

/-- A group step of an admitted operation writes only inside `DSTR` (`20_memory.md` R60, R61). -/
theorem read_performGroup_outside {g : Group} (hg : g ∈ d.groups) :
    Memory.read (performGroup d g u).mem a = Memory.read u.mem a := by
  unfold performGroup
  split <;> rename_i hop
  · exact read_performBf2_outside hd ha (by rw [hop]; rfl) hg
  · exact read_performBf2_outside hd ha (by rw [hop]; rfl) hg
  · exact read_performBf4_outside hd ha (by rw [hop]; rfl) hg
  · exact read_groupInit_outside hd ha hop hg
  all_goals rfl

end Group

theorem read_engineStep_outside (hi : MachineInv s) (hd : s.desc = some d) (ha : d.dstR.has a = false) (k : Nat) :
    Memory.read (engineStep k s).mem a = Memory.read s.mem a := by
  rcases engineStep_cases k s with ⟨-, e⟩ | ⟨d', -, -, -, e⟩ | ⟨d', g, -, hd', hg, e⟩ <;> rw [e]
  · rfl
  · cases hd.symm.trans hd'
    obtain ⟨-, -, -, -, hf, -, hgs⟩ := hi.descOk hd
    exact read_performGroup_outside hf ha (hgs g (chosenGroup_mem hg))

theorem engineStep_idle {k : Nat} (hb : s.busy = false) : engineStep k s = s := by simp [engineStep, hb]

/-- What no engine step changes (`60_exceptions.md` R173, R174, R185). -/
theorem engineStep_frame (k : Nat) (s : State) :
    engineStep k s = { s with
      pending := (engineStep k s).pending, mem := (engineStep k s).mem, draws := (engineStep k s).draws
      busy := (engineStep k s).busy, done := (engineStep k s).done, desc := (engineStep k s).desc } := by
  rcases engineStep_cases k s with ⟨-, e⟩ | ⟨d, -, -, -, e⟩ | ⟨d, g, -, -, -, e⟩ <;> rw [e]
  · rfl
  · rw [performGroup_frame.same]

/-- Settles O31: every group of an admitted operation stores elements of its destination. -/
theorem engineWritesOnlyDestination : Obligations.EngineWritesOnlyDestination := by
  rintro s es k hi ⟨hstop, -, he⟩
  let u : State := { s with events := es }
  have hu : MachineInv u := (HostFrame.events s es).machineInv hi
  exact ⟨engineStep k u, step_cons hstop he, engineStep_frame k u, engineStep_idle (s := u) (k := k),
    fun d a hd ha => read_engineStep_outside hu hd ha k⟩

/-! ### What a host's effect does to memory -/

theorem writeReg_mem {r : Reg} {v : Word} (h : writeReg r v s = .next t) : t.mem = s.mem := by
  cases writeReg_effect h with
  | operand _ e => rw [e]
  | status _ e => rw [e, writeStatus_mem]
  | ignored e | dropped _ _ e | ctrl e | faulted _ _ _ e | accepted _ _ _ _ _ _ e => exact e ▸ rfl

/-- A host leaves memory as it is, or stores bytes that touch no used region of a running operation
(`70_reset_and_hazards.md` R197). -/
theorem HostEffect.mem_cases {W : Reg → Word → Prop} (h : HostEffect W s t) :
    t.mem = s.mem ∨ ∃ b bs, isHazard s b bs.length = false ∧ t.mem = Memory.writeBytes s.mem b bs := by
  cases h with
  | quiet h => exact .inl h.mem
  | logged f u h e => exact .inl (e ▸ h.mem)
  | wrote r v u h _ e => exact .inl ((writeReg_mem e).trans h.mem)
  | stored b bs u h _ hz e => exact .inr ⟨b, bs, hz, by rw [e, h.mem]⟩

/-- A byte of a used region is in no write that is not a hazard. -/
theorem read_hostEffect_used {W : Reg → Word → Prop} {r : Region} (h : HostEffect W s t) (hb : s.busy = true)
    (hd : s.desc = some d) (hr : r ∈ d.used) (ha : r.has a = true) : Memory.read t.mem a = Memory.read s.mem a := by
  rcases h.mem_cases with e | ⟨b, bs, hz, e⟩ <;> rw [e]
  refine Memory.read_writeBytes_outside ?_
  by_contra hin
  exact Bool.eq_false_iff.1 hz (isHazard_iff.2 ⟨hb, d, hd, r, hr, a, by omega, ha⟩)

/-- Settles O58: the inputs of an admitted stage lie outside `DSTR`, and in used regions. -/
theorem inputsStableWhileBusy : Obligations.InputsStableWhileBusy := by
  intro s t d a hi hb hd hop ha hs
  have hout : d.dstR.has a = false := dstR_apart (hi.admitted hd) hop ha
  cases step_effect hs with
  | host h =>
    have hused := Desc.used_of_stage hop
    rcases ha with ha | ha <;> exact read_hostEffect_used h hb hd (by simp [hused]) ha
  | engine k u _ hf e =>
    have hu : u.desc = some d := by rw [hf.same, hd]
    rw [e, read_engineStep_outside (hf.machineInv hi) hu hout, hf.mem]
  | reset u _ hf e =>
    have hu : u.desc = some d := by rw [hf.same, hd]
    rw [e, read_resetEngine_outside u hu hout, hf.mem]

/-- Settles O60: every store keeps the canonical form. -/
theorem stepKeepsMemoryCanonical : Obligations.StepKeepsMemoryCanonical := by
  intro s t hw hs
  cases step_effect hs with
  | host h =>
    rcases h.mem_cases with e | ⟨b, bs, -, e⟩ <;> rw [e]
    · exact hw
    · exact Memory.writeBytes_wf hw
  | engine k u _ hf e => exact e ▸ engineStep_wf (hf.mem ▸ hw)
  | reset u _ hf e => exact e ▸ resetEngine_wf u (hf.mem ▸ hw)

/-! ### Which inputs of a host change a byte -/

theorem regAccess_mem {host addr width : Nat} {act : Reg → State → Outcome State Fault Refusal}
    (hact : ∀ r u v, act r u = .next v → v.mem = u.mem) (h : regAccess host addr width act s = .next t) :
    t.mem = s.mem := by
  rcases regAccess_cases host addr width act s with ⟨-, e⟩ | ⟨f, -, e⟩ | ⟨-, e⟩ <;> rw [e] at h
  · cases h
    rfl
  · cases h
    rfl
  · exact hact _ { s with regHost := some host } _ h

/-- A byte that a host memory write changes is one it covers. -/
theorem hostMemWrite_covers {b : Nat} {bs : List Byte} (h : hostMemWrite b bs s = .next t)
    (hne : Memory.read t.mem a ≠ Memory.read s.mem a) : b ≤ a ∧ a < b + bs.length := by
  by_contra hout
  refine hne ?_
  rcases hostMemWrite_cases b bs s with ⟨-, e⟩ | ⟨-, -, e⟩ | ⟨-, -, e⟩ <;> cases e.symm.trans h
  · rfl
  · exact Memory.read_writeBytes_outside (by omega)

/-- Only `memWrite` changes a byte, and only one it covers. -/
theorem hostAccess_covers {acc : HostAccess} (h : hostAccess acc s = .next t)
    (hne : Memory.read t.mem a ≠ Memory.read s.mem a) :
    ∃ b bs, acc = .memWrite b bs ∧ b.toNat ≤ a ∧ a < b.toNat + bs.length := by
  have hsame (e : t.mem = s.mem) : False := hne (by rw [e])
  cases acc with
  | regWrite host addr width v => exact (hsame (regAccess_mem (fun _ _ _ => writeReg_mem) h)).elim
  | regRead host addr width =>
    simp only [hostAccess] at h
    refine (hsame (regAccess_mem (fun _ _ _ e => ?_) h)).elim
    cases e
    rfl
  | memWrite b bs => exact ⟨b, bs, rfl, hostMemWrite_covers h hne⟩
  | memRead b n => exact (hsame (hostMemRead_frame h).mem).elim

/-- Only `st.c` changes a byte, and only one of its element's (`30_encoding.md` R89). -/
theorem hostLine_covers {line : HostLine} (h : hostLine line s = .next t)
    (hne : Memory.read t.mem a ≠ Memory.read s.mem a) :
    ∃ b x, line = .stc b x ∧ b.toNat ≤ a ∧ a < b.toNat + 8 := by
  have hsame (e : t.mem = s.mem) : False := hne (by rw [e])
  cases line with
  | wr r v => exact (hsame (regAccess_mem (s := nextLine s) (fun _ _ _ => writeReg_mem) h)).elim
  | rd r n =>
    simp only [hostLine] at h
    refine (hsame (regAccess_mem (s := nextLine s) (fun _ _ _ e => ?_) h)).elim
    cases e
    rfl
  | stc b x =>
    have hc := hostMemWrite_covers (s := nextLine s) h hne
    rw [length_bytesOfNat] at hc
    exact ⟨b, x, rfl, hc⟩
  | ldc b n =>
    obtain ⟨u, hu, rfl⟩ := hostLine_ldc_eq_next.1 h
    exact (hsame (hostMemRead_frame hu).mem).elim
  | label | fence | halt =>
    cases h
    exact (hsame rfl).elim
  | bnz | bz =>
    cases h
    exact (hsame (HostFrame.branch _ _ s).mem).elim

theorem hostStep_covers (h : hostStep s = .next t) (hne : Memory.read t.mem a ≠ Memory.read s.mem a) :
    ∃ b x, s.halted = false ∧ s.prog[s.hpc]? = some (.stc b x) ∧ b.toNat ≤ a ∧ a < b.toNat + 8 := by
  unfold hostStep at h
  split at h
  · cases h
    exact absurd rfl hne
  rename_i hh
  split at h
  · rename_i line hl
    obtain ⟨b, x, rfl, hc⟩ := hostLine_covers h hne
    exact ⟨b, x, Bool.eq_false_iff.2 hh, hl, hc⟩
  · cases h
    exact absurd rfl hne

/-- Settles O59: an idle engine and its reset leave memory as it is, and of a host's inputs only stores change it. -/
theorem idleMemoryChangedOnlyByHost : Obligations.IdleMemoryChangedOnlyByHost := by
  intro s t a hb hs hne
  obtain ⟨-, hp⟩ := step_eq_next.1 hs
  cases he : s.events with
  | nil =>
    rw [proceed_nil he, unscheduled, hb, if_neg Bool.false_ne_true] at hp
    obtain ⟨b, x, hh, hl, hc⟩ := hostStep_covers hp hne
    exact .inr ⟨b, x, .inl rfl, hh, hl, hc⟩
  | cons e es =>
    rw [proceed_cons he] at hp
    let u : State := { s with events := es }
    cases e with
    | host =>
      obtain ⟨b, x, hh, hl, hc⟩ := hostStep_covers (s := u) hp hne
      exact .inr ⟨b, x, .inr ⟨es, rfl⟩, hh, hl, hc⟩
    | access acc =>
      obtain ⟨b, bs, rfl, hc⟩ := hostAccess_covers (s := u) hp hne
      exact .inl ⟨b, bs, es, rfl, hc⟩
    | engine k =>
      cases hp
      exact absurd (by rw [engineStep_idle (s := u) hb]) hne
    | reset =>
      cases hp
      exact absurd (by rw [resetEngine_mem_idle u hb]) hne

end Sys2Proof.Machine
end

section
/-! SUPPORT. The command word (`30_encoding.md` R80–R87, R90): a word decodes to a command exactly when it is the encoding of that
well-formed command. -/

namespace Sys2Proof.Machine

variable {w : Word} {i : Instr}

/-! ### Decoding inverts encoding -/

/-- The command with operation code `op` and stage index `k` (`30_encoding.md` R81, R82). -/
def opCommand (op k : Nat) : Instr :=
  match op with
  | 1 => .r2c k
  | 2 => .r2a k
  | 3 => .r4 k
  | _ => .init

/-- `op` and `k` are the `OP` and `IDX` fields of a command: `INIT`, which is 4, has no stage index (`30_encoding.md` R81–R84). -/
abbrev CommandFields (op k : Nat) : Prop := 1 ≤ op ∧ op ≤ 4 ∧ k < 256 ∧ (op = 4 → k = 0)

/-- A well-formed command is that of its fields, and its word is the number `256 * k + op` (`30_encoding.md` R86). -/
theorem encodeWord_fields (h : i.wf = true) :
    ∃ op k, CommandFields op k ∧ opCommand op k = i ∧ (encodeWord i).toNat = 256 * k + op := by
  cases i with
  | r2c k =>
    have hk : k < 256 := of_decide_eq_true h
    exact ⟨1, k, by omega, rfl, encodeWord_r2c_toNat hk⟩
  | r2a k =>
    have hk : k < 256 := of_decide_eq_true h
    exact ⟨2, k, by omega, rfl, encodeWord_r2a_toNat hk⟩
  | r4 k =>
    have hk : k < 256 := of_decide_eq_true h
    exact ⟨3, k, by omega, rfl, encodeWord_r4_toNat hk⟩
  | init => exact ⟨4, 0, by omega, rfl, encodeWord_init_toNat⟩

/-- The fields of the word `256 * k + op` (`30_encoding.md` R80). -/
theorem fields_of_toNat {op k : Nat} (hk : k < 256) (hop : op < 16) (h : w.toNat = 256 * k + op) :
    rsv1Field w = 0 ∧ rsv0Field w = 0 ∧ opField w = BitVec.ofNat 4 op ∧ (idxField w).toNat = k := by
  refine ⟨BitVec.eq_of_toNat_eq ?_, BitVec.eq_of_toNat_eq ?_, BitVec.eq_of_toNat_eq ?_,
    idxField_of_toNat hk (by omega) h⟩
  · rw [rsv1Field_toNat, h]
    exact Nat.div_eq_of_lt (by omega)
  · rw [rsv0Field_toNat, h]
    change _ = 0
    omega
  · rw [opField_toNat, h, BitVec.toNat_ofNat]
    omega

/-- The word `256 * k + op` decodes to the command with these fields. -/
theorem decodeWord_of_fields {op k : Nat} (hc : CommandFields op k) (h : w.toNat = 256 * k + op) :
    decodeWord w = .ok (opCommand op k) := by
  obtain ⟨hlo, hhi, hk, hinit⟩ := hc
  obtain ⟨h1, h0, ho, hi⟩ := fields_of_toNat hk (by omega) h
  have hidx : op = 4 → idxField w = 0 := fun h4 => BitVec.eq_of_toNat_eq (hi.trans (hinit h4))
  interval_cases op <;> simp [decodeWord, opCommand, h1, h0, ho, hi, hidx]

theorem decodeWord_encodeWord (h : i.wf = true) : decodeWord (encodeWord i) = .ok i := by
  obtain ⟨op, k, hc, rfl, hn⟩ := encodeWord_fields h
  exact decodeWord_of_fields hc hn

theorem encodeBytes_eq (i : Instr) : encodeBytes i = bytesOfWord (encodeWord i) := by
  simp [encodeBytes, encode]

/-- A word's bytes at the front of a stream are read as that word. -/
theorem decode_bytesOfWord_append (h : decodeWord w = .ok i) (rest : List Byte) :
    decode (bytesOfWord w ++ rest) = .ok (i, rest) := by
  simp only [bytesOfWord, List.cons_append, List.nil_append, decode, wordOfBytes_bytesOfWord, h]

/-- Settles O2: the four bytes are read as the encoded word, which decodes to the command. -/
theorem decodeOfEncode : Obligations.DecodeOfEncode := by
  intro i rest hw
  rw [encodeBytes_eq]
  exact decode_bytesOfWord_append (decodeWord_encodeWord hw) rest

/-! ### The legal words -/

/-- The `OP` and `IDX` of a legal word are those of a command, and its reserved fields are 0. -/
theorem legalWord_fields (h : LegalWord w) :
    CommandFields (w.toNat % 2 ^ 4) (w.toNat / 2 ^ 8 % 2 ^ 8)
      ∧ w.toNat = 256 * (w.toNat / 2 ^ 8 % 2 ^ 8) + w.toNat % 2 ^ 4 := by
  obtain ⟨h1, h0, hlo, hhi, hinit⟩ := h
  exact ⟨⟨hlo, hhi, Nat.mod_lt _ (by decide), hinit⟩, by omega⟩

/-- A legal word decodes to the command that its `OP` chooses, with the stage index `w[15:8]`. -/
theorem decodeWord_of_legalWord {op : Nat} (ho : w.toNat % 2 ^ 4 = op) (h : LegalWord w) :
    decodeWord w = .ok (opCommand op (w.toNat / 2 ^ 8 % 2 ^ 8)) := by
  obtain ⟨hc, hn⟩ := legalWord_fields h
  rw [ho] at hc hn
  exact decodeWord_of_fields hc hn

theorem legalWord_encodeWord (h : i.wf = true) : LegalWord (encodeWord i) := by
  obtain ⟨op, k, ⟨hlo, hhi, hk, hinit⟩, -, hn⟩ := encodeWord_fields h
  rw [LegalWord, hn]
  omega

theorem legalWord_iff_decodes : LegalWord w ↔ ∃ i, decodeWord w = .ok i := by
  refine ⟨fun h => ⟨_, decodeWord_of_legalWord rfl h⟩, ?_⟩
  rintro ⟨i, hd⟩
  obtain ⟨hw, rfl⟩ := decodeWord_eq_ok hd
  exact legalWord_encodeWord hw

/-- Settles O3: a legal word is the number of a command's fields, and both ways a word and its command have the same fields. -/
theorem commandWordRoundTrip : Obligations.CommandWordRoundTrip := by
  refine ⟨fun w => ⟨legalWord_iff_decodes, ?_, ?_, ?_, ?_, fun _ => decodeWord_eq_ok⟩,
    fun _ => decodeWord_encodeWord,
    fun _ hk => ⟨encodeWord_r2c_toNat hk, encodeWord_r2a_toNat hk, encodeWord_r4_toNat hk⟩, rfl⟩
  all_goals exact decodeWord_of_legalWord

/-- Settles O1: the decoder run on the ten words. -/
theorem workedEncodingsDecode : Obligations.WorkedEncodingsDecode := by
  unfold Obligations.WorkedEncodingsDecode
  decide

/-- Settles O45: `OP` lies below the stage index, so the sum is the bitwise OR. -/
theorem pseudoInstructionWords : Obligations.PseudoInstructionWords := by
  intro k _
  have hsum {op : Nat} (h : op < 2 ^ 8) : (k <<< 8) + op = (k <<< 8) ||| op := Nat.shiftLeft_add_eq_or_of_lt h k
  refine ⟨?_, ?_, ?_, rfl⟩
  · rw [pseudoR2c, hsum (by decide), encodeWord]
  · rw [pseudoR2a, hsum (by decide), encodeWord]
  · rw [pseudoR4, hsum (by decide), encodeWord]

/-! ### An illegal word written to `CMD` -/

theorem writeReg_cmd_illegal (h : ¬ LegalWord w) (s : State) : writeReg .cmd w s = .next (illegalCommand w s) := by
  cases hd : decodeWord w with
  | ok i => exact absurd (legalWord_iff_decodes.2 ⟨i, hd⟩) h
  | error e => simp only [writeReg, writeCmd, hd]

/-- Settles O5: the word does not decode, so an idle engine takes the first check's fault. -/
theorem illegalCommandFaults : Obligations.IllegalCommandFaults := by
  intro s es h w hn hm hb hw
  rw [step_regWrite (r := .cmd) hn hm, writeReg_cmd_illegal hw, illegalCommand, if_neg (by simp [hb])]
  rfl

end Sys2Proof.Machine
end

section
/-! SUPPORT. The host's control and register lines (`30_encoding.md` R89). -/

namespace Sys2Proof.Machine

variable {s : State} {es : List Event}

/-! ### Labels and branches -/

/-- The first line that defines the label is its line. -/
theorem labelLine_eq {prog : List HostLine} {l j : Nat} (hj : prog[j]? = some (.label l))
    (hfirst : ∀ i, i < j → prog[i]? ≠ some (.label l)) : labelLine prog l = j := by
  obtain ⟨hlt, hat⟩ := List.getElem?_eq_some_iff.1 hj
  refine (List.findIdx_eq hlt).2 ⟨by simp [hat], fun i hi => ?_⟩
  have hne := hfirst i hi
  rw [List.getElem?_eq_getElem (hi.trans hlt)] at hne
  simpa using hne

/-- Where no line defines the label its line is the end of the program (log 13). -/
theorem labelLine_of_not_mem {prog : List HostLine} {l : Nat} (h : HostLine.label l ∉ prog) :
    labelLine prog l = prog.length := by
  refine List.findIdx_eq_length_of_false fun x hx => ?_
  rw [beq_eq_false_iff_ne]
  rintro rfl
  exact h hx

theorem branch_eq (taken : Bool) (l : Nat) (s : State) :
    branch taken l s = { s with hpc := if taken then labelLine s.prog l else s.hpc + 1 } := by
  cases taken <;> rfl

theorem step_bnz {n l : Nat} {m : Word} (hn : NextInput s .host es) (hh : s.halted = false)
    (hl : s.prog[s.hpc]? = some (.bnz n m l)) :
    step s = .next { s with
      events := es, hpc := if getH s n &&& m ≠ 0 then labelLine s.prog l else s.hpc + 1 } := by
  rw [step_hostLine hn hh hl, hostLine, branch_eq]
  simp only [bne_iff_ne]
  rfl

theorem step_bz {n l : Nat} {m : Word} (hn : NextInput s .host es) (hh : s.halted = false)
    (hl : s.prog[s.hpc]? = some (.bz n m l)) :
    step s = .next { s with
      events := es, hpc := if getH s n &&& m = 0 then labelLine s.prog l else s.hpc + 1 } := by
  rw [step_hostLine hn hh hl, hostLine, branch_eq]
  simp only [beq_iff_eq]
  rfl

/-- Settles O43: a branch goes to the line of its label, which is the first that defines it or the end of the program. -/
theorem hostControlLines : Obligations.HostControlLines := by
  intro s es line hn hh hl
  refine ⟨fun l hline => ?_, ?_, ?_, ?_, ?_, ?_⟩
  · rw [step_hostLine hn hh hl]
    rcases hline with rfl | rfl <;> rfl
  · rintro n m l j rfl hj hfirst
    rw [step_bnz hn hh hl, labelLine_eq hj hfirst]
  · rintro n m l j rfl hj hfirst
    rw [step_bz hn hh hl, labelLine_eq hj hfirst]
  · rintro n m l rfl hno
    rw [step_bnz hn hh hl, labelLine_of_not_mem hno]
  · rintro n m l rfl hno
    rw [step_bz hn hh hl, labelLine_of_not_mem hno]
  · rintro rfl
    rw [step_hostLine hn hh hl]
    rfl

/-! ### Register lines -/

/-- A `wr` line is the input of its register write, made from the next line; nothing is asked of the other hosts. -/
theorem wr_steps_as_regWrite {r : Reg} {v : Word} (hn : NextInput s .host es) (hh : s.halted = false)
    (hl : s.prog[s.hpc]? = some (.wr r v)) :
    step s = step { s with
      events := .access (.regWrite programHost (s.cfg.coreBase + regOffset r) 4 v) :: es, hpc := s.hpc + 1 } := by
  have ⟨hstop, _, _⟩ := hn
  rw [step_hostLine hn hh hl]
  exact (step_cons (s := { nextLine s with
    events := .access (.regWrite programHost (s.cfg.coreBase + regOffset r) 4 v) :: es }) hstop rfl).symm

/-- No register's word depends on the host's line counter, its inputs or who owns the window. -/
theorem readReg_host_fields (r : Reg) (s : State) (es : List Event) (pc : Nat) (o : Option Nat) :
    readReg r { s with events := es, hpc := pc, regHost := o } = readReg r s := by
  cases r <;> rfl

/-- The step of an `rd` line. -/
theorem step_rd {r : Reg} {n : Nat} (hn : NextInput s .host es) (hm : MayAccess s programHost) (hh : s.halted = false)
    (hl : s.prog[s.hpc]? = some (.rd r n)) :
    step s = .next (setH n (readReg r s) { s with
      events := es, hpc := s.hpc + 1, regHost := some programHost, regData := readReg r s }) := by
  have ⟨_, hc, _⟩ := hn
  rw [step_hostLine hn hh hl, hostLine]
  refine (regAccess_regOffset (s := nextLine { s with events := es }) hc hm r _).trans ?_
  simp only [nextLine, readReg_host_fields]

/-- Settles O44: `wr` is its register write, and `rd` writes one temporary. -/
theorem hostRegisterLines : Obligations.HostRegisterLines := by
  refine fun s es hn hh => ⟨fun r v => wr_steps_as_regWrite hn hh, fun r n hm hl => ?_⟩
  refine ⟨_, step_rd hn hm hh hl, rfl, ?_, fun k hk => ?_⟩
  · rw [getH_setH, if_pos rfl]
  · rw [getH_setH, if_neg hk]
    rfl

end Sys2Proof.Machine
end

section
/-! SUPPORT. The patterns of binary32 as numbers (`40_complex64.md` R100, R103): sign, bits 30:0, and the magnitude as a
function of bits 30:0 alone. -/

namespace Sys2Proof.Machine

/-- Bits 30:0 as a number: the patterns of one sign, zero to NaN, in their order. -/
def f32Body (x : F32) : Nat := x.toNat % 2 ^ 31

variable {x y : F32} {neg : Bool} {p : Nat}

theorem f32Exp_eq (x : F32) : f32Exp x = f32Body x / 2 ^ 23 := by
  rw [f32Exp, f32Body, BitVec.extractLsb'_toNat, Nat.shiftRight_eq_div_pow]
  omega

theorem f32Frac_eq (x : F32) : f32Frac x = f32Body x % 2 ^ 23 := by
  rw [f32Frac, f32Body, BitVec.extractLsb'_toNat, Nat.shiftRight_zero]
  omega

theorem f32Sign_eq (x : F32) : f32Sign x = decide (2 ^ 31 ≤ x.toNat) := BitVec.msb_eq_decide x

theorem f32Body_lt (x : F32) : f32Body x < 2 ^ 31 := Nat.mod_lt _ (by decide)

/-- A pattern is its sign and bits 30:0. -/
theorem f32_ext (hs : f32Sign x = f32Sign y) (hb : f32Body x = f32Body y) : x = y := by
  rw [f32Sign_eq, f32Sign_eq, decide_eq_decide] at hs
  rw [f32Body, f32Body] at hb
  exact BitVec.eq_of_toNat_eq (by omega)

/-! ### The classes of R100 -/

theorem isFinite_iff : isFinite x = true ↔ f32Body x < 0x7F800000 := by
  have := f32Body_lt x
  rw [isFinite, f32Exp_eq, bne_iff_ne]
  omega

theorem isInf_iff : isInf x = true ↔ f32Body x = 0x7F800000 := by
  have := f32Body_lt x
  rw [isInf, f32Exp_eq, f32Frac_eq, Bool.and_eq_true, beq_iff_eq, beq_iff_eq]
  omega

theorem isNaN_iff : isNaN x = true ↔ 0x7F800000 < f32Body x := by
  have := f32Body_lt x
  rw [isNaN, f32Exp_eq, f32Frac_eq, Bool.and_eq_true, beq_iff_eq, bne_iff_ne]
  omega

theorem isZero_iff : isZero x = true ↔ f32Body x = 0 := by
  rw [isZero, f32Exp_eq, f32Frac_eq, Bool.and_eq_true, beq_iff_eq, beq_iff_eq]
  omega

theorem isNaN_eq_false_of_isFinite (h : isFinite x = true) : isNaN x = false := by
  rw [← Bool.not_eq_true, isNaN_iff]
  exact (isFinite_iff.1 h).not_gt

theorem isInf_eq_false_of_isFinite (h : isFinite x = true) : isInf x = false := by
  rw [← Bool.not_eq_true, isInf_iff]
  exact (isFinite_iff.1 h).ne

theorem isNaN_eq_false_of_isInf (h : isInf x = true) : isNaN x = false := by
  rw [← Bool.not_eq_true, isNaN_iff]
  exact (isInf_iff.1 h).not_gt

theorem isZero_eq_false_of_isInf (h : isInf x = true) : isZero x = false := by
  rw [← Bool.not_eq_true, isZero_iff, isInf_iff.1 h]
  decide

theorem isQuietNaN_iff : isQuietNaN x = true ↔ 0x7FC00000 ≤ f32Body x := by
  have := f32Body_lt x
  rw [isQuietNaN, Bool.and_eq_true, isNaN_iff, BitVec.getLsbD, Nat.testBit_eq_decide_div_mod_eq, decide_eq_true_iff]
  rw [f32Body] at *
  omega

/-! ### Packing and negation -/

theorem packF32_toNat (h : p < 2 ^ 31) : (packF32 neg p).toNat = (if neg then 2 ^ 31 else 0) + p := by
  rw [packF32, BitVec.toNat_ofNat, Nat.mod_eq_of_lt]
  split <;> omega

theorem f32Sign_packF32 (h : p < 2 ^ 31) : f32Sign (packF32 neg p) = neg := by
  rw [f32Sign_eq, packF32_toNat h]
  cases neg
  · simpa using h
  · simp

theorem f32Body_packF32 (h : p < 2 ^ 31) : f32Body (packF32 neg p) = p := by
  rw [f32Body, packF32_toNat h]
  split <;> omega

theorem fneg_getLsbD_31 (x : F32) : (fneg x).getLsbD 31 = !x.getLsbD 31 := by
  rw [fneg, BitVec.getLsbD_xor, show (0x80000000 : F32).getLsbD 31 = true by decide, Bool.xor_true]

theorem fneg_getLsbD_of_lt {j : Nat} (h : j < 31) : (fneg x).getLsbD j = x.getLsbD j := by
  have hmask : ∀ j < 31, (0x80000000 : F32).getLsbD j = false := by decide
  rw [fneg, BitVec.getLsbD_xor, hmask j h, Bool.xor_false]

@[simp] theorem f32Sign_fneg (x : F32) : f32Sign (fneg x) = !f32Sign x := fneg_getLsbD_31 x

@[simp] theorem f32Body_fneg (x : F32) : f32Body (fneg x) = f32Body x := by
  rw [f32Body, fneg, BitVec.toNat_xor, Nat.xor_mod_two_pow]
  exact Nat.xor_zero _

@[simp] theorem isFinite_fneg (x : F32) : isFinite (fneg x) = isFinite x := by
  rw [Bool.eq_iff_iff, isFinite_iff, isFinite_iff, f32Body_fneg]

@[simp] theorem isInf_fneg (x : F32) : isInf (fneg x) = isInf x := by
  rw [Bool.eq_iff_iff, isInf_iff, isInf_iff, f32Body_fneg]

@[simp] theorem isNaN_fneg (x : F32) : isNaN (fneg x) = isNaN x := by
  rw [Bool.eq_iff_iff, isNaN_iff, isNaN_iff, f32Body_fneg]

/-! ### Quiet NaNs (R102) -/

theorem quietNaN_toNat (d : BitVec 23) :
    (quietNaN d).toNat = d.toNat / 2 ^ 22 * 2 ^ 31 + 0x7FC00000 + d.toNat % 2 ^ 22 := by
  have hd := d.isLt
  simp only [quietNaN, BitVec.toNat_append, ← Nat.shiftLeft_add_eq_or_of_lt (BitVec.isLt _)]
  simp only [BitVec.extractLsb'_toNat, BitVec.toNat_ofNat, Nat.shiftLeft_eq, Nat.shiftRight_eq_div_pow]
  omega

theorem isQuietNaN_quietNaN (d : BitVec 23) : isQuietNaN (quietNaN d) = true := by
  rw [isQuietNaN_iff, f32Body, quietNaN_toNat]
  omega

theorem exists_quietNaN_eq (h : isQuietNaN x = true) : ∃ d, quietNaN d = x := by
  have hx := x.isLt
  rw [isQuietNaN_iff, f32Body] at h
  refine ⟨BitVec.ofNat 23 (x.toNat / 2 ^ 31 * 2 ^ 22 + x.toNat % 2 ^ 22), BitVec.eq_of_toNat_eq ?_⟩
  rw [quietNaN_toNat, BitVec.toNat_ofNat]
  omega

theorem isQuietNaN_nanResult (k : Nat) : isQuietNaN (nanResult k) = true := isQuietNaN_quietNaN _

/-! ### The magnitude of bits 30:0 -/

/-- The magnitude of bits 30:0 in units of `2^-149`, with no bound on the exponent: infinity's pattern stands for `2^128` here, the
value after the largest finite one (R100). -/
def bodyMag (p : Nat) : Nat := if p / 2 ^ 23 = 0 then p % 2 ^ 23 else (2 ^ 23 + p % 2 ^ 23) * 2 ^ (p / 2 ^ 23 - 1)

theorem f32Mag_eq (x : F32) : f32Mag x = bodyMag (f32Body x) := by
  rw [f32Mag, f32Exp_eq, f32Frac_eq, Nat.shiftLeft_eq, bodyMag]

/-- The pattern of significand `q` with last place `2^t`; a carry out of the significand is the next exponent. -/
theorem bodyMag_place {t q : Nat} (hq : q ≤ 2 ^ 24) (hn : t = 0 ∨ 2 ^ 23 ≤ q) : bodyMag (t * 2 ^ 23 + q) = q * 2 ^ t := by
  rw [bodyMag]
  rcases Nat.lt_or_ge q (2 ^ 23) with hsub | hnorm
  · obtain rfl : t = 0 := by omega
    rw [if_pos (by omega)]
    omega
  · rcases hq.lt_or_eq with hlt | rfl
    · rw [if_neg (by omega), show (t * 2 ^ 23 + q) / 2 ^ 23 - 1 = t by omega,
        show 2 ^ 23 + (t * 2 ^ 23 + q) % 2 ^ 23 = q by omega]
    · rw [if_neg (by omega), show (t * 2 ^ 23 + 2 ^ 24) / 2 ^ 23 - 1 = t + 1 by omega,
        show 2 ^ 23 + (t * 2 ^ 23 + 2 ^ 24) % 2 ^ 23 = 2 ^ 23 by omega]
      ring

theorem bodyMag_strictMono : StrictMono bodyMag := by
  refine strictMono_nat_of_lt_succ fun p => ?_
  obtain ⟨t, q, rfl, hq, hn⟩ : ∃ t q, p = t * 2 ^ 23 + q ∧ q < 2 ^ 24 ∧ (t = 0 ∨ 2 ^ 23 ≤ q) :=
    ⟨p / 2 ^ 23 - 1, p - (p / 2 ^ 23 - 1) * 2 ^ 23, by omega, by omega, by omega⟩
  rw [bodyMag_place hq.le hn, Nat.add_assoc, bodyMag_place hq (by omega)]
  exact Nat.mul_lt_mul_of_pos_right (Nat.lt_succ_self q) (Nat.two_pow_pos t)

end Sys2Proof.Machine
end

section
/-! SUPPORT. Rounding to nearest, ties to even, on an increasing sequence of values, and `roundMag` as a case of it
(`40_complex64.md` R101). -/

namespace Sys2Proof.Machine

/-! ### The nearest of an increasing sequence of values -/

/-- No value of `f` lies nearer to `n` than that of `p`, and where another lies as near, `p` is even. -/
def NearestEven (f : Nat → Nat) (n p : Nat) : Prop :=
  ∀ p', ((f p : Int) - n).natAbs ≤ ((f p' : Int) - n).natAbs
    ∧ (((f p : Int) - n).natAbs = ((f p' : Int) - n).natAbs → p' = p ∨ p % 2 = 0)

section Nearest

variable {f : Nat → Nat} {n p : Nat}

/-- Between two neighbours the lower is nearest below the midpoint. -/
theorem nearestEven_lower (hf : StrictMono f) (hlo : f p ≤ n) (hmid : 2 * n ≤ f p + f (p + 1))
    (heven : 2 * n = f p + f (p + 1) → p % 2 = 0) : NearestEven f n p := by
  intro p'
  rcases lt_trichotomy p' p with h | rfl | h
  · have := hf h
    omega
  · simp
  · have : f (p + 1) ≤ f p' := hf.monotone h
    omega

/-- Between two neighbours the upper is nearest above the midpoint. -/
theorem nearestEven_upper (hf : StrictMono f) (hhi : n ≤ f (p + 1)) (hmid : f p + f (p + 1) ≤ 2 * n)
    (hodd : 2 * n = f p + f (p + 1) → p % 2 = 1) : NearestEven f n (p + 1) := by
  intro p'
  rcases lt_trichotomy p' (p + 1) with h | rfl | h
  · have := hf.monotone (Nat.le_of_lt_succ h)
    omega
  · simp
  · have := hf h
    omega

/-- Rounding passes an odd `m` exactly from the midpoint above it on. -/
theorem NearestEven.lt_iff (h : NearestEven f n p) (hf : StrictMono f) {m : Nat} (hm : m % 2 = 1) :
    m < p ↔ f m + f (m + 1) ≤ 2 * n := by
  obtain ⟨hnear, htie⟩ := h (m + 1)
  obtain ⟨hnear', htie'⟩ := h m
  have hgap : f m < f (m + 1) := hf (Nat.lt_succ_self m)
  rcases Nat.lt_or_ge m p with hp | hp
  · have : f (m + 1) ≤ f p := hf.monotone hp
    omega
  · have := hf.monotone hp
    rcases hp.lt_or_eq with hlt | rfl
    · have := hf hlt
      omega
    · omega

/-- The nearest value to 0 is 0 where 0 is a value. -/
theorem NearestEven.eq_zero (h : NearestEven f 0 p) (hf : f 0 = 0) : f p = 0 := by
  have := (h 0).1
  omega

end Nearest

/-! ### The patterns as such a sequence -/

/-- The magnitude of bits 30:0 in units of `2^-(149 + u)`. -/
def scaledMag (u p : Nat) : Nat := bodyMag p * 2 ^ u

theorem scaledMag_strictMono (u : Nat) : StrictMono (scaledMag u) :=
  bodyMag_strictMono.mul_const (Nat.two_pow_pos u)

theorem scaledMag_zero (u : Nat) : scaledMag u 0 = 0 := Nat.zero_mul _

theorem scaledMag_inj {u p q : Nat} (h : scaledMag u p = scaledMag u q) : p = q := (scaledMag_strictMono u).injective h

theorem scaledMag_place {u t q : Nat} (hq : q ≤ 2 ^ 24) (hn : t = 0 ∨ 2 ^ 23 ≤ q) :
    scaledMag u (t * 2 ^ 23 + q) = q * 2 ^ (t + u) := by
  rw [scaledMag, bodyMag_place hq hn, Nat.mul_assoc, ← Nat.pow_add]

/-- Twice the midpoint between the largest finite magnitude and the value that infinity's place would have. -/
theorem scaledMag_overflow (u : Nat) :
    scaledMag u 0x7F7FFFFF + scaledMag u (0x7F7FFFFF + 1) = (2 ^ 25 - 1) * 2 ^ (253 + u) := by
  have hmax := scaledMag_place (u := u) (t := 253) (q := 2 ^ 24 - 1) (by decide) (by decide)
  have htop := scaledMag_place (u := u) (t := 253) (q := 2 ^ 24) (by decide) (by decide)
  simp only [Nat.reduceMul, Nat.reducePow, Nat.reduceSub, Nat.reduceAdd] at hmax htop ⊢
  omega

/-- The place `roundMag` keeps bits from: the significand has at most 24 bits, and 24 unless the place is the lowest. -/
theorem roundMag_significand (n u : Nat) :
    n / 2 ^ max u (n.log2 - 23) < 2 ^ 24
      ∧ (max u (n.log2 - 23) = u ∨ 2 ^ 23 ≤ n / 2 ^ max u (n.log2 - 23)) := by
  constructor
  · rw [Nat.div_lt_iff_lt_mul (Nat.two_pow_pos _), ← Nat.pow_add]
    exact Nat.lt_log2_self.trans_le (Nat.pow_le_pow_right (by decide) (by omega))
  · rcases Nat.le_total (n.log2 - 23) u with h | h
    · exact .inl (max_eq_left h)
    · rcases Nat.eq_zero_or_pos (n.log2 - 23) with h0 | h0
      · exact .inl (by omega)
      · right
        rw [max_eq_right h, Nat.le_div_iff_mul_le (Nat.two_pow_pos _), ← Nat.pow_add,
          show 23 + (n.log2 - 23) = n.log2 by omega]
        exact Nat.log2_self_le (by rintro rfl; simp at h0)

/-- `roundMag` answers the nearest pattern, or infinity where that lies above the finite ones. -/
theorem roundMag_nearestEven (n u : Nat) :
    ∃ p, roundMag n u = min p 0x7F800000 ∧ NearestEven (scaledMag u) n p := by
  obtain ⟨hq, hn⟩ := roundMag_significand n u
  have hr := Nat.mod_lt n (Nat.two_pow_pos (max u (n.log2 - 23)))
  have hdiv := Nat.div_add_mod' n (2 ^ max u (n.log2 - 23))
  have hu : u ≤ max u (n.log2 - 23) := le_max_left _ _
  simp only [roundMag, Nat.shiftRight_eq_div_pow, Nat.shiftLeft_eq, Nat.one_mul]
  generalize max u (n.log2 - 23) = sh at *
  generalize n / 2 ^ sh = q at *
  obtain ⟨t, rfl⟩ := Nat.exists_eq_add_of_le' hu
  have hlo := scaledMag_place (u := u) hq.le (t := t) (by omega)
  have hhi := scaledMag_place (u := u) (t := t) (q := q + 1) (by omega) (by omega)
  rw [← Nat.add_assoc, Nat.succ_mul] at hhi
  rw [Nat.add_sub_cancel, show n - q * 2 ^ (t + u) = n % 2 ^ (t + u) by omega]
  split
  case isTrue hup =>
    rw [Bool.or_eq_true, Bool.and_eq_true, decide_eq_true_iff, beq_iff_eq, beq_iff_eq] at hup
    refine ⟨t * 2 ^ 23 + q + 1, by rw [Nat.add_assoc], nearestEven_upper (scaledMag_strictMono u) ?_ ?_ ?_⟩ <;> omega
  case isFalse hup =>
    rw [Bool.or_eq_true, Bool.and_eq_true, decide_eq_true_iff, beq_iff_eq, beq_iff_eq] at hup
    refine ⟨_, rfl, nearestEven_lower (scaledMag_strictMono u) ?_ ?_ ?_⟩ <;> omega

theorem roundMag_zero (u : Nat) : roundMag 0 u = 0 := by
  obtain ⟨p, hp, hnear⟩ := roundMag_nearestEven 0 u
  have h0 : p = 0 := scaledMag_inj ((hnear.eq_zero (scaledMag_zero u)).trans (scaledMag_zero u).symm)
  rw [hp, h0]
  rfl

theorem roundMag_lt (n u : Nat) : roundMag n u < 2 ^ 31 :=
  (min_le_right _ _).trans_lt (by decide)

/-! ### Signed values -/

theorem getLsbD_zero_eq_false_iff (x : F32) : x.getLsbD 0 = false ↔ f32Body x % 2 = 0 := by
  rw [BitVec.getLsbD, Nat.testBit_eq_decide_div_mod_eq, decide_eq_false_iff_not, f32Body]
  omega

/-- The value of a sign and a magnitude. -/
def withSign (neg : Bool) (m : Nat) : Int := if neg then -(m : Int) else m

@[simp] theorem withSign_true (m : Nat) : withSign true m = -(m : Int) := rfl

@[simp] theorem withSign_false (m : Nat) : withSign false m = m := rfl

theorem f32Val_eq_withSign (x : F32) : f32Val x = withSign (f32Sign x) (bodyMag (f32Body x)) := by
  rw [f32Val, f32Mag_eq, withSign]

theorem f32Val_scaled (x : F32) (u : Nat) :
    f32Val x * 2 ^ u = withSign (f32Sign x) (scaledMag u (f32Body x)) := by
  rw [f32Val_eq_withSign, scaledMag]
  cases f32Sign x <;> simp

section Signed

variable {e : Int} {neg neg' : Bool}

theorem natAbs_withSign_sub (hneg : e ≠ 0 → neg = decide (e < 0)) (m : Nat) :
    (withSign neg m - e).natAbs = ((m : Int) - e.natAbs).natAbs := by
  cases neg
  · rw [false_eq_decide_iff] at hneg
    rw [withSign_false]
    omega
  · rw [true_eq_decide_iff] at hneg
    rw [withSign_true]
    omega

/-- Magnitudes are no farther apart than the values. -/
theorem natAbs_sub_natAbs_le (neg' : Bool) (m : Nat) (e : Int) :
    ((m : Int) - e.natAbs).natAbs ≤ (withSign neg' m - e).natAbs := by
  cases neg'
  · rw [withSign_false]
    omega
  · rw [withSign_true]
    omega

/-- A value as far from a non-zero `e` as its magnitude is from that of `e` has the sign of `e`, or is zero. -/
theorem withSign_eq_of_natAbs_sub (he : e ≠ 0) (hneg : neg = decide (e < 0)) {m : Nat}
    (h : (withSign neg' m - e).natAbs = ((m : Int) - e.natAbs).natAbs) : withSign neg' m = withSign neg m := by
  rcases Bool.eq_or_eq_not neg' neg with rfl | rfl
  · rfl
  · cases neg
    · rw [false_eq_decide_iff] at hneg
      rw [Bool.not_false, withSign_true] at *
      rw [withSign_false]
      omega
    · rw [true_eq_decide_iff] at hneg
      rw [Bool.not_true, withSign_false] at *
      rw [withSign_true]
      omega

/-- A value nearest in magnitude is nearest among the values of both signs, if it has the sign of a non-zero `e`. -/
theorem NearestEven.signed {f : Nat → Nat} {p : Nat} (h : NearestEven f e.natAbs p) (h0 : f 0 = 0)
    (hneg : e ≠ 0 → neg = decide (e < 0)) (neg' : Bool) (p' : Nat) :
    (withSign neg (f p) - e).natAbs ≤ (withSign neg' (f p') - e).natAbs
      ∧ ((withSign neg (f p) - e).natAbs = (withSign neg' (f p') - e).natAbs →
          withSign neg' (f p') = withSign neg (f p) ∨ p % 2 = 0) := by
  obtain ⟨hle, htie⟩ := h p'
  have hmag := natAbs_sub_natAbs_le neg' (f p') e
  rw [natAbs_withSign_sub hneg]
  refine ⟨hle.trans hmag, fun heq => (htie (by omega)).imp_left ?_⟩
  rintro rfl
  rcases eq_or_ne e 0 with rfl | he
  · rw [h.eq_zero h0]
    cases neg <;> cases neg' <;> rfl
  · exact withSign_eq_of_natAbs_sub he (hneg he) heq.symm

end Signed

/-- A pattern packed from the sign of the exact value and its rounded magnitude is correctly rounded. -/
theorem correctlyRounded_packF32 {u : Nat} {e : Int} {neg : Bool} (hneg : e ≠ 0 → neg = decide (e < 0)) :
    CorrectlyRounded u e (packF32 neg (roundMag e.natAbs u)) := by
  obtain ⟨p, hp, hnear⟩ := roundMag_nearestEven e.natAbs u
  have hbody := f32Body_packF32 (neg := neg) (roundMag_lt e.natAbs u)
  have hsign := f32Sign_packF32 (neg := neg) (roundMag_lt e.natAbs u)
  generalize packF32 neg (roundMag e.natAbs u) = r at *
  rw [hp] at hbody
  refine ⟨?_, ?_, fun he => hsign.trans (hneg he), fun z hr _ => ?_⟩
  · rw [← Bool.not_eq_true, isNaN_iff]
    omega
  · rw [isInf_iff, ← scaledMag_overflow, ← hnear.lt_iff (scaledMag_strictMono u) (by decide)]
    omega
  · obtain rfl : f32Body r = p := by
      rw [isFinite_iff] at hr
      omega
    have hval : f32Val z * 2 ^ u = f32Val r * 2 ^ u ↔ f32Val z = f32Val r := mul_left_inj' (by positivity)
    rw [getLsbD_zero_eq_false_iff, ← hval, f32Val_scaled, f32Val_scaled, hsign]
    exact hnear.signed (scaledMag_zero u) hneg _ _

end Sys2Proof.Machine
end

section
/-! SUPPORT. The binary32 operations (`40_complex64.md` R101–R104): correct rounding of finite operands, special values, negation
and the rotation by −i, and the vectors of R112. -/

namespace Sys2Proof.Machine

variable {x y : F32} {k : Nat}

/-! ### Finite operands -/

theorem f32Val_fneg (x : F32) : f32Val (fneg x) = -f32Val x := by
  rw [f32Val_eq_withSign, f32Val_eq_withSign, f32Sign_fneg, f32Body_fneg]
  cases f32Sign x <;> simp

theorem natAbs_f32Val (x : F32) : (f32Val x).natAbs = f32Mag x := by
  rw [f32Val]
  split <;> omega

theorem f32Val_eq_zero_iff : f32Val x = 0 ↔ f32Body x = 0 := by
  rw [← Int.natAbs_eq_zero, natAbs_f32Val, f32Mag_eq]
  exact bodyMag_strictMono.injective.eq_iff' rfl

/-- The sign of a finite sum: that of a non-zero value, and of zeros the sign both have (R101). -/
def sumSign (x y : F32) : Bool :=
  if f32Val x + f32Val y = 0 then f32Sign x && f32Sign y else decide (f32Val x + f32Val y < 0)

theorem fadd_of_isFinite (hx : isFinite x = true) (hy : isFinite y = true) :
    fadd k x y = packF32 (sumSign x y) (roundMag (f32Val x + f32Val y).natAbs 0) := by
  simp only [fadd, isNaN_eq_false_of_isFinite hx, isNaN_eq_false_of_isFinite hy, isInf_eq_false_of_isFinite hx,
    isInf_eq_false_of_isFinite hy, Bool.or_false, Bool.false_eq_true, if_false, sumSign]
  split
  case isTrue h => rw [h, Int.natAbs_zero, roundMag_zero]
  case isFalse => rfl

theorem fmul_of_isFinite (hx : isFinite x = true) (hy : isFinite y = true) :
    fmul k x y = packF32 (f32Sign x != f32Sign y) (roundMag (f32Val x * f32Val y).natAbs 149) := by
  simp only [fmul, isNaN_eq_false_of_isFinite hx, isNaN_eq_false_of_isFinite hy, isInf_eq_false_of_isFinite hx,
    isInf_eq_false_of_isFinite hy, Bool.or_false, Bool.false_eq_true, if_false, Int.natAbs_mul, natAbs_f32Val]

theorem fadd_correctlyRounded (hx : isFinite x = true) (hy : isFinite y = true) :
    CorrectlyRounded 0 (f32Val x + f32Val y) (fadd k x y) := by
  rw [fadd_of_isFinite hx hy]
  exact correctlyRounded_packF32 fun h => if_neg h

/-- Two patterns with bit 31 set have the sum 0 only as two zeros. -/
theorem eq_negZero_of_add_eq_zero (hx : f32Sign x = true) (hy : f32Sign y = true) (h : f32Val x + f32Val y = 0) :
    x = 0x80000000 := by
  have hx0 : f32Val x = 0 := by
    rw [f32Val, if_pos hx, f32Val, if_pos hy] at h
    rw [f32Val, if_pos hx]
    omega
  exact f32_ext hx (f32Val_eq_zero_iff.1 hx0)

theorem fadd_exact_zero (hx : isFinite x = true) (hy : isFinite y = true) (h : f32Val x + f32Val y = 0) :
    fadd k x y = if x = 0x80000000 ∧ y = 0x80000000 then 0x80000000 else 0 := by
  have hsign : sumSign x y = true ↔ x = 0x80000000 ∧ y = 0x80000000 := by
    rw [sumSign, if_pos h, Bool.and_eq_true]
    refine ⟨fun ⟨hx, hy⟩ => ⟨eq_negZero_of_add_eq_zero hx hy h, eq_negZero_of_add_eq_zero hy hx (by omega)⟩, ?_⟩
    rintro ⟨rfl, rfl⟩
    decide
  rw [fadd_of_isFinite hx hy, h, Int.natAbs_zero, roundMag_zero]
  simp only [← hsign]
  cases sumSign x y <;> rfl

theorem fneg_eq_negZero_iff : fneg y = 0x80000000 ↔ y = 0 := by
  rw [fneg]
  exact xor_right_eq_self_iff

/-- Settles O49: a sum is packed from its sign and its rounded magnitude, and a difference is the sum with the negation. -/
theorem addSubCorrectlyRounded : Obligations.AddSubCorrectlyRounded := by
  intro k x y hx hy
  have hy' : isFinite (fneg y) = true := (isFinite_fneg y).trans hy
  refine ⟨fadd_correctlyRounded hx hy, ?_, fadd_exact_zero hx hy, ?_⟩
  · rw [sub_eq_add_neg, ← f32Val_fneg]
    exact fadd_correctlyRounded hx hy'
  · rw [sub_eq_add_neg, ← f32Val_fneg]
    simp only [← fneg_eq_negZero_iff (y := y)]
    exact fadd_exact_zero hx hy'

theorem f32Val_mul (x y : F32) : f32Val x * f32Val y = withSign (f32Sign x != f32Sign y) (f32Mag x * f32Mag y) := by
  simp only [f32Val_eq_withSign, f32Mag_eq]
  cases f32Sign x <;> cases f32Sign y <;> simp

theorem eq_decide_withSign_neg {neg : Bool} {m : Nat} (h : withSign neg m ≠ 0) : neg = decide (withSign neg m < 0) := by
  cases neg
  · rw [false_eq_decide_iff, withSign_false]
    omega
  · rw [withSign_true] at *
    rw [true_eq_decide_iff]
    omega

/-- Settles O50: a product is packed from the XOR of the signs and its rounded magnitude. -/
theorem mulCorrectlyRounded : Obligations.MulCorrectlyRounded := by
  intro k x y hx hy
  rw [fmul_of_isFinite hx hy, f32Val_mul]
  exact ⟨correctlyRounded_packF32 eq_decide_withSign_neg, f32Sign_packF32 (roundMag_lt _ _)⟩

/-! ### Infinities and NaNs -/

theorem isNaN_eq_false_of_isZero (h : isZero x = true) : isNaN x = false := by
  rw [← Bool.not_eq_true, isNaN_iff, isZero_iff.1 h]
  decide

theorem isNaN_of_isQuietNaN (h : isQuietNaN x = true) : isNaN x = true := (Bool.and_eq_true_iff.1 h).1

theorem fmul_comm (k : Nat) (x y : F32) : fmul k x y = fmul k y x := by
  rw [fmul, fmul, Bool.or_comm (isNaN x), Bool.or_comm (isInf x), Bool.or_comm (isZero x), Nat.mul_comm (f32Mag x),
    show (f32Sign x != f32Sign y) = (f32Sign y != f32Sign x) from Bool.xor_comm _ _]

theorem isQuietNaN_fadd (h : isNaN x = true ∨ isNaN y = true) : isQuietNaN (fadd k x y) = true := by
  rw [fadd, if_pos (by rwa [Bool.or_eq_true])]
  exact isQuietNaN_nanResult k

theorem isQuietNaN_fsub (h : isNaN x = true ∨ isNaN y = true) : isQuietNaN (fsub k x y) = true :=
  isQuietNaN_fadd (by rwa [isNaN_fneg])

theorem isQuietNaN_fmul (h : isNaN x = true ∨ isNaN y = true) : isQuietNaN (fmul k x y) = true := by
  rw [fmul, if_pos (by rwa [Bool.or_eq_true])]
  exact isQuietNaN_nanResult k

theorem fadd_of_isInf (hx : isInf x = true) (hy : isNaN y = false) :
    fadd k x y = if isInf y && f32Sign x != f32Sign y then nanResult k else x := by
  simp only [fadd, isNaN_eq_false_of_isInf hx, hy, hx, Bool.or_false, Bool.false_eq_true, if_false, if_true]

theorem fadd_isInf_same (hx : isInf x = true) (hy : isInf y = true) (h : f32Sign x = f32Sign y) : fadd k x y = x := by
  rw [fadd_of_isInf hx (isNaN_eq_false_of_isInf hy), if_neg (by simp [h])]

/-- Infinities of opposite signs have no sum. -/
theorem isQuietNaN_fadd_isInf_opposite (hx : isInf x = true) (hy : isInf y = true) (h : f32Sign x ≠ f32Sign y) :
    isQuietNaN (fadd k x y) = true := by
  rw [fadd_of_isInf hx (isNaN_eq_false_of_isInf hy), if_pos (by simp [h, hy])]
  exact isQuietNaN_nanResult k

theorem fadd_isInf_isFinite (hx : isInf x = true) (hy : isFinite y = true) : fadd k x y = x := by
  rw [fadd_of_isInf hx (isNaN_eq_false_of_isFinite hy), if_neg (by simp [isInf_eq_false_of_isFinite hy])]

theorem fadd_isFinite_isInf (hx : isFinite x = true) (hy : isInf y = true) : fadd k x y = y := by
  simp only [fadd, isNaN_eq_false_of_isFinite hx, isNaN_eq_false_of_isInf hy, isInf_eq_false_of_isFinite hx, hy,
    Bool.or_false, Bool.false_eq_true, if_false, if_true]

theorem fmul_of_isInf (hx : isInf x = true) (hy : isNaN y = false) :
    fmul k x y = if isZero y then nanResult k else packF32 (f32Sign x != f32Sign y) 0x7F800000 := by
  simp only [fmul, isNaN_eq_false_of_isInf hx, hy, hx, isZero_eq_false_of_isInf hx, Bool.or_false, Bool.true_or,
    Bool.false_or, Bool.false_eq_true, if_false, if_true]

theorem isQuietNaN_fmul_isInf_isZero (hx : isInf x = true) (hy : isZero y = true) : isQuietNaN (fmul k x y) = true := by
  rw [fmul_of_isInf hx (isNaN_eq_false_of_isZero hy), if_pos hy]
  exact isQuietNaN_nanResult k

/-- Settles O51: the cases of each operation on an infinity or a NaN; a difference is the sum with the negation. -/
theorem specialValues : Obligations.SpecialValues := by
  refine ⟨fun k x y h => ⟨isQuietNaN_fadd h, isQuietNaN_fsub h, isQuietNaN_fmul h⟩,
    fun k x y hx hy h => ⟨fadd_isInf_same hx hy h, ?_⟩,
    fun k x y hx hy h => ⟨?_, isQuietNaN_fadd_isInf_opposite hx hy h⟩,
    fun k x y hx hy => ?_,
    fun k x y hx hy => ⟨isQuietNaN_fmul_isInf_isZero hx hy, ?_⟩,
    fun k x y hx hn hz => ?_, isQuietNaN_quietNaN, fun _ => exists_quietNaN_eq⟩
  · exact isQuietNaN_fadd_isInf_opposite hx (by rwa [isInf_fneg]) (by simp [h])
  · exact fadd_isInf_same hx (by rwa [isInf_fneg]) (by rwa [f32Sign_fneg, Bool.eq_not])
  · exact ⟨fadd_isInf_isFinite hx hy, fadd_isFinite_isInf hy hx, fadd_isInf_isFinite hx (by rwa [isFinite_fneg]),
      fadd_isFinite_isInf hy (by rwa [isInf_fneg])⟩
  · rw [fmul_comm]
    exact isQuietNaN_fmul_isInf_isZero hx hy
  · rw [fmul_comm k y x, fmul_of_isInf hx hn, hz, if_neg Bool.false_ne_true, isInf_iff, f32Body_packF32 (by decide),
      f32Sign_packF32 (by decide)]
    exact ⟨rfl, rfl, rfl⟩

/-! ### Negation, rotation, and fixed operands -/

/-- The lanes of a `cmul` whose products are the same for every draw. -/
theorem cmul_re_eq {x t : C64} {p q : F32} (hp : ∀ j, fmul j x.re t.re = p) (hq : ∀ j, fmul j x.im t.im = q) :
    (cmul k x t).re = fsub (k + 4) p q := by
  rw [cmul, hp, hq]

theorem cmul_im_eq {x t : C64} {p q : F32} (hp : ∀ j, fmul j x.im t.re = p) (hq : ∀ j, fmul j x.re t.im = q) :
    (cmul k x t).im = fadd (k + 5) p q := by
  rw [cmul, hp, hq]

/-- Settles O52: the negation bit by bit, and the corner cases by evaluation, product by product. -/
theorem negateAndRotate : Obligations.NegateAndRotate := by
  refine ⟨fun x => ⟨fneg_getLsbD_31 x, fun j => fneg_getLsbD_of_lt⟩,
    fun x => ⟨rfl, fneg_getLsbD_31 x.re, fun j => fneg_getLsbD_of_lt⟩, rfl, rfl, rfl, rfl, fun k => ?_, rfl,
    fun k => ⟨?_, ?_⟩⟩
  · exact congrArg₂ C64.mk (cmul_re_eq (p := 0) (q := 0) (fun _ => rfl) (fun _ => rfl))
      (cmul_im_eq (p := 0x80000000) (q := 0xBF800000) (fun _ => rfl) (fun _ => rfl))
  · exact isQuietNaN_fsub (.inl (isNaN_of_isQuietNaN (isQuietNaN_fmul_isInf_isZero rfl rfl)))
  · exact cmul_im_eq (p := 0) (q := 0xFF800000) (fun _ => rfl) (fun _ => rfl)

/-- Settles O53: each row by evaluation, `cmul` product by product, and the NaN lanes as R101 gives them. -/
theorem datapathVectors : Obligations.DatapathVectors := by
  intro k
  refine ⟨rfl, rfl, rfl, rfl, rfl, rfl, rfl, ?_, ?_, ?_, ?_, ?_, rfl, rfl, rfl⟩
  · exact isQuietNaN_fadd_isInf_opposite rfl rfl (by decide)
  · exact congrArg₂ C64.mk (cmul_re_eq (p := 0x3F800919) (q := 0x3F801A60) (fun _ => rfl) (fun _ => rfl))
      (cmul_im_eq (p := 0x3F800C66) (q := 0x3F801713) (fun _ => rfl) (fun _ => rfl))
  · exact congrArg₂ C64.mk (cmul_re_eq (p := 0x80000000) (q := 0x80000000) (fun _ => rfl) (fun _ => rfl))
      (cmul_im_eq (p := 0x80000000) (q := 0x80000000) (fun _ => rfl) (fun _ => rfl))
  · exact cmul_re_eq (p := 0x7F800000) (q := 0) (fun _ => rfl) (fun _ => rfl)
  · exact isQuietNaN_fadd (.inr (isNaN_of_isQuietNaN (isQuietNaN_fmul_isInf_isZero rfl rfl)))

end Sys2Proof.Machine
end

section
/-! SUPPORT. The groups of a radix-2 stage and the elements they touch (`41_radix2.md` R121–R126), and what carries over to `R4` and
`INIT` (`42_radix4.md` R141, R144, R146). -/

namespace Sys2Proof.Machine

variable {a b i o half σ : Nat}

/-! ### Masks of low bits (`41_radix2.md` R124, R125) -/

theorem clearBits_mask (o b : Nat) : clearBits o (2 ^ b - 1) = 2 ^ b * (o / 2 ^ b) := by
  refine Nat.eq_of_testBit_eq fun j => ?_
  rw [clearBits, Nat.testBit_xor, Nat.testBit_and, Nat.testBit_two_pow_sub_one, Nat.testBit_two_pow_mul,
    Nat.testBit_div_two_pow]
  by_cases h : j < b
  · simp [h]
  · simp [h, Nat.le_of_not_lt h]

/-- An offset below the stride meets no bit of a multiple of the stride: their OR is their sum (`41_radix2.md` R125). -/
theorem or_eq_add_of_dvd (hi : 2 ^ b ∣ i) (ho : o < 2 ^ b) : i ||| o = i + o := by
  obtain ⟨j, rfl⟩ := hi
  exact (Nat.two_pow_add_eq_or_of_lt ho j).symm

theorem bfOut_eq_add (hi : 2 ^ b ∣ i) (ho : o < 2 ^ b) : bfOut i o = i + o := or_eq_add_of_dvd hi ho

theorem bf2In_eq_add (hi : 2 ^ b ∣ i) (ho : o < 2 ^ b) : bf2In i o = 2 * i + o := by
  rw [bf2In, or_eq_add_of_dvd (hi.mul_right 2) ho, Nat.mul_comm]

/-- A block start and an offset are recovered from their OR (`41_radix2.md` R124). -/
theorem clearBits_or_mask (hi : 2 ^ b ∣ i) (ho : o < 2 ^ b) : clearBits (i ||| o) (2 ^ b - 1) = i := by
  obtain ⟨j, rfl⟩ := hi
  rw [clearBits_mask, or_eq_add_of_dvd ⟨j, rfl⟩ ho, Nat.mul_add_div (Nat.two_pow_pos b), Nat.div_eq_of_lt ho, Nat.add_zero]

theorem or_and_mask (hi : 2 ^ b ∣ i) (ho : o < 2 ^ b) : (i ||| o) &&& (2 ^ b - 1) = o := by
  obtain ⟨j, rfl⟩ := hi
  rw [or_eq_add_of_dvd ⟨j, rfl⟩ ho, Nat.and_two_pow_sub_one_eq_mod, Nat.mul_add_mod, Nat.mod_eq_of_lt ho]

/-! ### The group sets (`41_radix2.md` R121, `42_radix4.md` R141, R146) -/

theorem mem_stepRange_iff (hσ : 0 < σ) : i ∈ stepRange 0 half σ ↔ i < half ∧ σ ∣ i := by
  refine ⟨lt_of_mem_stepRange, ?_⟩
  rintro ⟨hi, j, rfl⟩
  refine List.mem_map.2 ⟨j, List.mem_range.2 ?_, by rw [Nat.zero_add, Nat.mul_comm]⟩
  rw [Nat.lt_div_iff_mul_lt hσ, Nat.mul_comm j σ]
  omega

/-- The block starts below a multiple of the stride. -/
theorem stepRange_mul (n : Nat) (hσ : 0 < σ) : stepRange 0 (n * σ) σ = (List.range n).map (· * σ) := by
  have hn : (n * σ - 0 + σ - 1) / σ = n := by
    rw [Nat.sub_zero, Nat.add_sub_assoc hσ, Nat.add_comm, Nat.add_mul_div_right _ _ hσ,
      Nat.div_eq_of_lt (Nat.sub_lt hσ Nat.one_pos), Nat.zero_add]
  simp only [stepRange, hn, Nat.zero_add]

theorem pair_mem_groupsR2c_iff (hσ : 0 < σ) : .pair i o ∈ groupsR2c half σ ↔ i < half ∧ σ ∣ i ∧ o < σ := by
  constructor
  · intro h
    obtain ⟨_, _, e, h⟩ := mem_groupsR2c h
    cases e
    exact h
  · rintro ⟨hi, hd, ho⟩
    exact List.mem_flatMap.2 ⟨i, (mem_stepRange_iff hσ).2 ⟨hi, hd⟩, List.mem_map.2 ⟨o, List.mem_range.2 ho, rfl⟩⟩

theorem index_not_mem_groupsR2c : .index o ∉ groupsR2c half σ := by
  intro h
  obtain ⟨_, _, e, -⟩ := mem_groupsR2c h
  cases e

theorem length_groupsR2c (hσ : 0 < σ) (hd : σ ∣ half) : (groupsR2c half σ).length = half := by
  obtain ⟨n, rfl⟩ := hd
  rw [Nat.mul_comm σ n]
  simp [groupsR2c, stepRange_mul n hσ, List.length_flatMap, Function.comp_def]

/-- The pairs of a block start and an offset: the same set is `G2` and `G4`. -/
theorem groupsR2c_spec (hσ : 0 < σ) (hd : σ ∣ half) :
    (∀ i o, .pair i o ∈ groupsR2c half σ ↔ i < half ∧ σ ∣ i ∧ o < σ) ∧ (∀ o, .index o ∉ groupsR2c half σ)
      ∧ (groupsR2c half σ).Nodup ∧ (groupsR2c half σ).length = half :=
  ⟨fun _ _ => pair_mem_groupsR2c_iff hσ, fun _ => index_not_mem_groupsR2c, groupsR2c_nodup _ _, length_groupsR2c hσ hd⟩

/-- Settles O21: `G2` and `G4` are the same list of their own `N'` and stride. -/
theorem groupSetsAreG2G4GI : Obligations.GroupSetsAreG2G4GI :=
  ⟨fun _ _ hσ hd => groupsR2c_spec hσ hd, fun _ _ hσ hd => groupsR2c_spec hσ hd,
    fun h => ⟨fun o => by simp [groupsInit], fun i o => by simp [groupsInit], groupsInit_nodup h, by simp [groupsInit]⟩⟩

/-- `R2A` splits each `o` into a group of `R2C` (`41_radix2.md` R124). -/
theorem split_mem_groupsR2c (ho : o < 2 ^ a) :
    .pair (clearBits o (2 ^ b - 1)) (o &&& (2 ^ b - 1)) ∈ groupsR2c (2 ^ a) (2 ^ b) := by
  rw [pair_mem_groupsR2c_iff (Nat.two_pow_pos b), clearBits_mask, Nat.and_two_pow_sub_one_eq_mod]
  exact ⟨(Nat.mul_div_le o _).trans_lt ho, Nat.dvd_mul_right _ _, Nat.mod_lt _ (Nat.two_pow_pos b)⟩

/-- A group of `R2C` is the split of its OR (`41_radix2.md` R124). -/
theorem or_of_mem_groupsR2c (hba : b ≤ a) (h : .pair i o ∈ groupsR2c (2 ^ a) (2 ^ b)) :
    (i ||| o) < 2 ^ a ∧ clearBits (i ||| o) (2 ^ b - 1) = i ∧ (i ||| o) &&& (2 ^ b - 1) = o := by
  obtain ⟨hi, hd, ho⟩ := (pair_mem_groupsR2c_iff (Nat.two_pow_pos b)).1 h
  exact ⟨Nat.or_lt_two_pow hi (ho.trans_le (Nat.pow_le_pow_right Nat.two_pos hba)), clearBits_or_mask hd ho,
    or_and_mask hd ho⟩

theorem groupsR2a_perm_groupsR2c (hba : b ≤ a) : (groupsR2a (2 ^ a) (2 ^ b)).Perm (groupsR2c (2 ^ a) (2 ^ b)) := by
  refine (List.perm_ext_iff_of_nodup (groupsR2a_nodup _ _) (groupsR2c_nodup _ _)).2 fun g => ?_
  simp only [groupsR2a, List.mem_map, List.mem_range]
  constructor
  · rintro ⟨o, ho, rfl⟩
    exact split_mem_groupsR2c ho
  · intro h
    obtain ⟨i, o, rfl, -⟩ := mem_groupsR2c h
    obtain ⟨hlt, hi, ho⟩ := or_of_mem_groupsR2c hba h
    exact ⟨i ||| o, hlt, by rw [hi, ho]⟩

/-- Settles O22: splitting by the mask and taking the OR are inverse. -/
theorem r2aGroupsAreR2cGroups : Obligations.R2aGroupsAreR2cGroups := fun _ b hba =>
  ⟨groupsR2a_perm_groupsR2c hba, fun o ho => ⟨clearBits_or_and o (2 ^ b - 1), split_mem_groupsR2c ho⟩,
    fun _ _ => or_of_mem_groupsR2c hba⟩

/-! ### The elements that the groups cover (`41_radix2.md` R125) -/

/-- Over the groups of `R2C`, what depends on the first output alone runs through `[0, half)`: `R2A`'s enumeration. -/
theorem flatMap_groupsR2c_perm (hba : b ≤ a) {f : Group → List Nat} {h : Nat → List Nat}
    (hf : ∀ i o, f (.pair i o) = h (bfOut i o)) :
    ((groupsR2c (2 ^ a) (2 ^ b)).flatMap f).Perm ((List.range (2 ^ a)).flatMap h) := by
  refine ((groupsR2a_perm_groupsR2c hba).flatMap_right f).symm.trans (.of_eq ?_)
  rw [groupsR2a, List.flatMap_map]
  simp only [hf, bfOut, clearBits_or_and]

/-- Pairs `m` apart that start at `s, …, s + m - 1` fill the `2 * m` indices from `s` on. -/
theorem flatMap_pairs_perm (s m : Nat) :
    ((List.range m).flatMap fun j => [s + j, s + j + m]).Perm (List.range' s (2 * m)) := by
  refine (List.flatMap_append_perm (List.range m) (fun j => [s + j]) (fun j => [s + j + m])).symm.trans (.of_eq ?_)
  rw [← List.map_eq_flatMap, ← List.map_eq_flatMap, Nat.two_mul, ← List.range'_append_1, List.range'_eq_map_range,
    List.range'_eq_map_range]
  simp only [Nat.add_right_comm s]

/-- Blocks of `w` indices side by side fill the indices up to the end of the last. -/
theorem flatMap_blocks (n w : Nat) : (List.range n).flatMap (fun j => List.range' (j * w) w) = List.range (n * w) := by
  induction n with
  | zero => simp
  | succ n ih =>
    rw [List.range_succ, List.flatMap_append, ih, List.flatMap_singleton, Nat.succ_mul, List.range_add,
      List.range'_eq_map_range]

/-- The inputs of the block that starts at `i` (`41_radix2.md` R125). -/
theorem block_reads_perm (hi : 2 ^ b ∣ i) :
    ((List.range (2 ^ b)).flatMap fun o => radix2Reads (2 ^ b) (.pair i o)).Perm (List.range' (2 * i) (2 * 2 ^ b)) := by
  refine .trans (.of_eq (List.flatMap_congr fun o ho => ?_)) (flatMap_pairs_perm (2 * i) (2 ^ b))
  rw [radix2Reads, bf2In_eq_add hi (List.mem_range.1 ho)]

/-- The inputs of a radix-2 stage, block after block (`41_radix2.md` R125). -/
theorem reads_perm (hba : b ≤ a) :
    ((groupsR2c (2 ^ a) (2 ^ b)).flatMap (radix2Reads (2 ^ b))).Perm (List.range (2 * 2 ^ a)) := by
  obtain ⟨n, hn⟩ := Nat.pow_dvd_pow 2 hba
  rw [hn, Nat.mul_comm (2 ^ b) n, groupsR2c, stepRange_mul n (Nat.two_pow_pos b), List.flatMap_assoc, List.flatMap_map,
    Nat.mul_left_comm, ← flatMap_blocks]
  refine .flatMap_left _ fun j _ => ?_
  rw [List.flatMap_map, Nat.mul_left_comm]
  exact block_reads_perm (Nat.dvd_mul_left _ j)

/-- Settles O23: the inputs block by block, the outputs in the enumeration of `R2A`. -/
theorem radix2IndexFacts : Obligations.Radix2IndexFacts := by
  refine ⟨fun a b hba => ⟨fun i o h => ?_, fun i _ hi => ⟨?_, ?_⟩, reads_perm hba, ?_, ?_, ?_⟩, by decide, by decide,
    by decide, by decide, by decide⟩
  · obtain ⟨-, hi, ho⟩ := (pair_mem_groupsR2c_iff (Nat.two_pow_pos b)).1 h
    exact ⟨bf2In_eq_add hi ho, bfOut_eq_add hi ho⟩
  · rw [List.range'_eq_map_range]
    exact List.map_congr_left fun o ho => bf2In_eq_add hi (List.mem_range.1 ho)
  · rw [List.range'_eq_map_range]
    exact List.map_congr_left fun o ho => by rw [bf2In_eq_add hi (List.mem_range.1 ho), Nat.add_right_comm]
  · refine (flatMap_groupsR2c_perm hba (h := fun o => [o]) fun _ _ => rfl).trans (.of_eq ?_)
    exact List.flatMap_singleton' _
  · refine (flatMap_groupsR2c_perm hba (h := fun o => [o + 2 ^ a]) fun _ _ => rfl).trans (.of_eq ?_)
    rw [← List.map_eq_flatMap, List.range'_eq_map_range]
    exact List.map_congr_left fun o _ => Nat.add_comm _ _
  · refine (flatMap_groupsR2c_perm hba (h := fun o => [o, o + 2 ^ a]) fun _ _ => rfl).trans ?_
    simpa [List.range_eq_range'] using flatMap_pairs_perm 0 (2 ^ a)

/-! ### The twiddles that the groups read (`41_radix2.md` R126, `42_radix4.md` R144) -/

/-- The last block starts one stride before the end. -/
theorem le_sub_of_dvd (hi : i < half) (hσi : σ ∣ i) (hσh : σ ∣ half) : i ≤ half - σ := by
  have := Nat.le_of_dvd (Nat.sub_pos_of_lt hi) (Nat.dvd_sub hσh hσi)
  omega

theorem last_mem_groupsR2c (hσ : 0 < σ) (hle : σ ≤ half) (hd : σ ∣ half) :
    .pair (half - σ) 0 ∈ groupsR2c half σ :=
  (pair_mem_groupsR2c_iff hσ).2 ⟨Nat.sub_lt (hσ.trans_le hle) hσ, Nat.dvd_sub hd dvd_rfl, hσ⟩

/-- Settles O26: the largest block start is `N' - stride`. -/
theorem twiddleReadsBounded : Obligations.TwiddleReadsBounded := by
  constructor
  · rintro n idx half σ hh hσh hσ hd
    refine ⟨fun i o h => ?_, 0, last_mem_groupsR2c hσ (hσh ▸ Nat.div_le_self _ _) hd⟩
    obtain ⟨hi, hσi, -⟩ := (pair_mem_groupsR2c_iff hσ).1 h
    exact ⟨le_sub_of_dvd hi hσi hd, by rwa [twReq, Nat.shiftRight_eq_div_pow, pow_one, ← hh]⟩
  · rintro n idx q σ hq hσq hσ hd
    have htw : twReq .r4 n idx = 3 * (q - σ) + 1 := by
      rw [twReq, stride_eq_div, Nat.shiftRight_eq_div_pow, hσq, hq]
      rfl
    have hle : σ ≤ q := hσq ▸ Nat.div_le_self _ _
    refine ⟨fun i o h => ?_, ⟨q - σ, 0, last_mem_groupsR2c hσ hle hd, by rw [htw]; rfl⟩, by omega⟩
    obtain ⟨hi, hσi, -⟩ := (pair_mem_groupsR2c_iff hσ).1 h
    have := le_sub_of_dvd hi hσi hd
    omega

end Sys2Proof.Machine
end

section
/-! SUPPORT. What one group of any operation stores (`60_exceptions.md` R173): the elements it writes, the values it computes and the
elements these come from (`41_radix2.md` R121, R125, `42_radix4.md` R141, R143, R146, R147). -/

namespace Sys2Proof.Machine

variable {s u : State} {d d₁ d₂ : Desc} {g g' : Group} {m m₁ m₂ : Memory} {i o j k : Nat}

/-! ### Several elements stored in one buffer -/

/-- Store the values at the indices, in turn. -/
def storeElems (m : Memory) (base : Word) : List Nat → List C64 → Memory
  | j :: js, x :: xs => storeElems (stC m base j x) base js xs
  | _, _ => m

theorem ldC_storeElems_of_not_mem {base : Word} {js : List Nat} {xs : List C64} (h : j ∉ js) :
    ldC (storeElems m base js xs) base j = ldC m base j := by
  induction js generalizing m xs with
  | nil => rfl
  | cons i js ih =>
    obtain ⟨hne, hjs⟩ := not_or.1 (mt List.mem_cons.2 h)
    cases xs with
    | nil => rfl
    | cons x xs => exact (ih hjs).trans (ldC_stC_ne hne)

/-- Reading back the stored elements. -/
theorem map_ldC_storeElems {base : Word} {js : List Nat} {xs : List C64} (hnd : js.Nodup) (hl : js.length = xs.length) :
    js.map (ldC (storeElems m base js xs) base) = xs := by
  induction js generalizing m xs with
  | nil => exact (List.eq_nil_of_length_eq_zero hl.symm).symm
  | cons j js ih =>
    obtain ⟨hj, hjs⟩ := List.nodup_cons.1 hnd
    cases xs with
    | nil => cases hl
    | cons x xs =>
      rw [storeElems, List.map_cons, ldC_storeElems_of_not_mem hj, ldC_stC, ih hjs (Nat.succ.inj hl)]

theorem read_storeElems_outside {base : Word} {js : List Nat} {xs : List C64} {a : Nat} (h : outsideElems base js a) :
    (storeElems m base js xs).read a = m.read a := by
  induction js generalizing m xs with
  | nil => rfl
  | cons j js ih =>
    obtain ⟨hj, hjs⟩ := List.forall_mem_cons.1 h
    cases xs with
    | nil => rfl
    | cons x xs => exact (ih hjs).trans (read_stC_outside hj)

/-! ### The stores of a group -/

/-- The elements of the destination that a group of the operation writes. -/
def groupWrites (d : Desc) : Group → List Nat :=
  match d.op with
  | .r2c => radix2Writes (nPrime d.op d.n.toNat)
  | .r2a => radix2Writes (nPrime d.op d.n.toNat)
  | .r4 => radix4Writes (nPrime d.op d.n.toNat)
  | .init => initElements (nPrime d.op d.n.toNat)

/-- The values that a group of the operation computes from memory, in the order of `groupWrites`. -/
def groupValues (k : Nat) (d : Desc) (g : Group) (m : Memory) : List C64 :=
  match d.op, g with
  | .r2c, .pair i o => [(bf2Values k d i o m).1, (bf2Values k d i o m).2]
  | .r2a, .pair i o => [(bf2Values k d i o m).1, (bf2Values k d i o m).2]
  | .r4, .pair i o =>
    [(bf4Values k d i o m).1, (bf4Values k d i o m).2.1, (bf4Values k d i o m).2.2.1, (bf4Values k d i o m).2.2.2]
  | .init, .index o => [(initValues k d o m).1, (initValues k d o m).2]
  | _, _ => []

/-- A group step of the model stores these values at these elements. -/
theorem performGroup_mem :
    (performGroup d g u).mem = storeElems u.mem d.dstB (groupWrites d g) (groupValues u.draws d g u.mem) := by
  obtain ⟨op, n, idx, srcB, dstB, twB⟩ := d
  cases op <;> cases g <;> rfl

theorem length_groupValues : (groupWrites d g).length = (groupValues k d g m).length := by
  unfold groupWrites groupValues
  cases d.op <;> cases g <;> rfl

/-! ### The groups of an admitted operation -/

/-- The first element of the destination that a group writes. -/
def Group.base : Group → Nat
  | .pair i o => bfOut i o
  | .index o => o

/-- `N'` and the stride of an admitted stage are powers of two (`60_exceptions.md` R163, R164). -/
theorem stage_dims (h : failingCheck s d = none) (hop : d.op ≠ .init) :
    ∃ a b, b ≤ a ∧ nPrime d.op d.n.toNat = 2 ^ a ∧ stride d.op d.n.toNat d.idx = 2 ^ b := by
  obtain ⟨a, ha⟩ := nPrime_eq_two_pow h hop
  have hidx := failingCheck_eq_none_iff.1 h .badIdx
  simp only [CheckFails, not_and, not_or] at hidx
  obtain ⟨h0, -⟩ := hidx hop
  rw [stride, ha, Nat.shiftRight_eq_div_pow] at h0 ⊢
  have hle : d.idx ≤ a := (Nat.pow_le_pow_iff_right Nat.one_lt_two).1 (Nat.div_ne_zero_iff.1 h0).2
  exact ⟨a, a - d.idx, Nat.sub_le _ _, rfl, Nat.pow_div hle Nat.two_pos⟩

/-- The groups of every stage are the pairs of `G2` of its `N'` and stride (`41_radix2.md` R124, `42_radix4.md` R141). -/
theorem stage_groups_perm (h : failingCheck s d = none) (hop : d.op ≠ .init) :
    d.groups.Perm (groupsR2c (nPrime d.op d.n.toNat) (stride d.op d.n.toNat d.idx)) := by
  obtain ⟨a, b, hba, hP, hσ⟩ := stage_dims h hop
  unfold Desc.groups
  cases e : d.op <;> simp only [e] at hP hσ ⊢
  case r2c => exact .refl _
  case r2a =>
    rw [hP, hσ]
    exact groupsR2a_perm_groupsR2c hba
  case r4 => exact .refl _
  case init => exact absurd e hop

/-- Splitting by a mask keeps the first output (`41_radix2.md` R123, R124). -/
theorem groupsR2a_map_base (half σ : Nat) : (groupsR2a half σ).map Group.base = List.range half := by
  rw [groupsR2a, List.map_map]
  refine (List.map_congr_left fun o _ => ?_).trans (List.map_id _)
  exact clearBits_or_and o (σ - 1)

/-- Each index below `N'` is the first output of exactly one group (`41_radix2.md` R125, `42_radix4.md` R143, R147). -/
theorem groups_base_perm (h : failingCheck s d = none) :
    (d.groups.map Group.base).Perm (List.range (nPrime d.op d.n.toNat)) := by
  by_cases hop : d.op = .init
  · refine .of_eq ?_
    simp only [Desc.groups, hop, groupsInit, List.map_map]
    exact List.map_id _
  · obtain ⟨a, b, hba, hP, hσ⟩ := stage_dims h hop
    have hg := stage_groups_perm h hop
    rw [hP, hσ] at hg
    rw [hP, ← groupsR2a_map_base _ (2 ^ b)]
    exact (hg.trans (groupsR2a_perm_groupsR2c hba).symm).map _

theorem base_lt (h : failingCheck s d = none) (hg : g ∈ d.groups) : g.base < nPrime d.op d.n.toNat :=
  List.mem_range.1 ((groups_base_perm h).mem_iff.1 (List.mem_map_of_mem hg))

theorem exists_base_eq (h : failingCheck s d = none) (hj : j < nPrime d.op d.n.toNat) : ∃ g ∈ d.groups, g.base = j :=
  List.mem_map.1 ((groups_base_perm h).mem_iff.2 (List.mem_range.2 hj))

theorem base_injOn (h : failingCheck s d = none) (hg : g ∈ d.groups) (hg' : g' ∈ d.groups) (e : g.base = g'.base) : g = g' :=
  List.inj_on_of_nodup_map ((groups_base_perm h).nodup_iff.2 List.nodup_range) hg hg' e

/-- A group of a stage is a pair, and one of `G2`. -/
theorem stage_group_cases (h : failingCheck s d = none) (hop : d.op ≠ .init) (hg : g ∈ d.groups) :
    ∃ a b i o, g = .pair i o ∧ nPrime d.op d.n.toNat = 2 ^ a ∧ stride d.op d.n.toNat d.idx = 2 ^ b ∧ b ≤ a
      ∧ i < 2 ^ a ∧ 2 ^ b ∣ i ∧ o < 2 ^ b := by
  obtain ⟨a, b, hba, hP, hσ⟩ := stage_dims h hop
  have hm := (stage_groups_perm h hop).mem_iff.1 hg
  rw [hP, hσ] at hm
  obtain ⟨i, o, rfl, hi, hd, ho⟩ := mem_groupsR2c hm
  exact ⟨a, b, i, o, rfl, hP, hσ, hba, hi, hd, ho⟩

theorem init_group_cases (hop : d.op = .init) (hg : g ∈ d.groups) : ∃ o, g = .index o := by
  simp only [Desc.groups, hop, groupsInit, List.mem_map] at hg
  obtain ⟨o, -, rfl⟩ := hg
  exact ⟨o, rfl⟩

/-! ### The elements that a group writes -/

/-- A group writes elements `N'` apart (`41_radix2.md` R121, `42_radix4.md` R141, R146). -/
theorem groupWrites_eq (h : failingCheck s d = none) (hg : g ∈ d.groups) :
    groupWrites d g = (List.range (2 ^ d.op.minLog)).map fun q => g.base + q * nPrime d.op d.n.toNat := by
  by_cases hop : d.op = .init
  · obtain ⟨o, rfl⟩ := init_group_cases hop hg
    simp [groupWrites, hop, initElements, Op.minLog, Group.base, List.range_succ]
  · obtain ⟨-, -, i, o, rfl, -⟩ := stage_group_cases h hop hg
    cases e : d.op
    case init => exact absurd e hop
    all_goals simp [groupWrites, e, radix2Writes, radix4Writes, Op.minLog, Group.base, List.range_succ]

/-- The place of an element among the groups: the remainder by `N'` is the first output of its group. -/
theorem mem_groupWrites_iff (h : failingCheck s d = none) (hg : g ∈ d.groups) :
    j ∈ groupWrites d g ↔ j < d.n.toNat ∧ j % nPrime d.op d.n.toNat = g.base := by
  have hlt := base_lt h hg
  have hn := outputs_mul_nPrime h
  rw [groupWrites_eq h hg]
  simp only [List.mem_map, List.mem_range]
  generalize nPrime d.op d.n.toNat = P at hlt hn ⊢
  rw [← hn]
  have hP : 0 < P := by omega
  constructor
  · rintro ⟨q, hq, rfl⟩
    refine ⟨?_, by rw [Nat.add_mul_mod_self_right, Nat.mod_eq_of_lt hlt]⟩
    calc g.base + q * P < P + q * P := Nat.add_lt_add_right hlt _
      _ = (q + 1) * P := by rw [Nat.succ_mul, Nat.add_comm]
      _ ≤ _ := Nat.mul_le_mul_right _ hq
  · rintro ⟨hj, e⟩
    exact ⟨j / P, (Nat.div_lt_iff_lt_mul hP).2 hj, by rw [← e, Nat.mul_comm, Nat.mod_add_div]⟩

/-- Every element of the destination is written by a group (`41_radix2.md` R125, `42_radix4.md` R143, R147). -/
theorem exists_group_writing (h : failingCheck s d = none) (hj : j < d.n.toNat) : ∃ g ∈ d.groups, j ∈ groupWrites d g := by
  have hn := outputs_mul_nPrime h
  have hP : 0 < nPrime d.op d.n.toNat := Nat.pos_of_ne_zero fun e => by simp [e] at hn; omega
  obtain ⟨g, hg, e⟩ := exists_base_eq h (Nat.mod_lt j hP)
  exact ⟨g, hg, (mem_groupWrites_iff h hg).2 ⟨hj, e.symm⟩⟩

/-- No element is written by two groups. -/
theorem eq_of_mem_groupWrites (h : failingCheck s d = none) (hg : g ∈ d.groups) (hg' : g' ∈ d.groups)
    (hj : j ∈ groupWrites d g) (hj' : j ∈ groupWrites d g') : g = g' :=
  base_injOn h hg hg' (((mem_groupWrites_iff h hg).1 hj).2.symm.trans ((mem_groupWrites_iff h hg').1 hj').2)

theorem groupWrites_nodup (h : failingCheck s d = none) (hg : g ∈ d.groups) : (groupWrites d g).Nodup := by
  rw [groupWrites_eq h hg]
  have hP : 0 < nPrime d.op d.n.toNat := (Nat.zero_le _).trans_lt (base_lt h hg)
  exact List.nodup_range.map fun q q' e => Nat.eq_of_mul_eq_mul_right hP (Nat.add_left_cancel e)

/-! ### The elements that a group reads -/

/-- What a group reads is the same in both memories: the source and the table of a stage, the group's own elements of `INIT`
(`20_memory.md` R66, `42_radix4.md` R147). -/
structure SameInputs (g : Group) (d₁ d₂ : Desc) (m₁ m₂ : Memory) : Prop where
  op : d₁.op = d₂.op
  n : d₁.n = d₂.n
  idx : d₁.idx = d₂.idx
  source : d₁.op ≠ .init → ∀ j, j < d₁.n.toNat → ldC m₁ d₁.srcB j = ldC m₂ d₂.srcB j
  table : d₁.op ≠ .init → ∀ j, j < twReq d₁.op d₁.n.toNat d₁.idx → ldC m₁ d₁.twB j = ldC m₂ d₂.twB j
  buffer : d₁.op = .init → ∀ j ∈ groupWrites d₁ g, ldC m₁ d₁.dstB j = ldC m₂ d₂.dstB j

theorem bf4In_eq_add {b : Nat} (hi : 2 ^ b ∣ i) (ho : o < 2 ^ b) : bf4In i o = 4 * i + o := by
  rw [bf4In, or_eq_add_of_dvd (hi.mul_right 4) ho, Nat.mul_comm]

section Congr

variable (hi : SameInputs g d₁ d₂ m₁ m₂) (k : Nat)

include hi

theorem bf2Values_congr (hop : d₁.op ≠ .init) (htw : i < twReq d₁.op d₁.n.toNat d₁.idx)
    (hsrc : bf2In i o + stride d₁.op d₁.n.toNat d₁.idx < d₁.n.toNat) : bf2Values k d₁ i o m₁ = bf2Values k d₂ i o m₂ := by
  have hsrc' {q : Nat} (hq : q ≤ bf2In i o + stride d₁.op d₁.n.toNat d₁.idx) := hi.source hop q (hq.trans_lt hsrc)
  rw [bf2Values, bf2Values, ← hi.op, ← hi.n, ← hi.idx, hi.table hop _ htw, hsrc' (Nat.le_add_right _ _), hsrc' le_rfl]

theorem bf4Values_congr (hop : d₁.op ≠ .init) (htw : 3 * i < twReq d₁.op d₁.n.toNat d₁.idx)
    (hsrc : bf4In i o + 3 * stride d₁.op d₁.n.toNat d₁.idx < d₁.n.toNat) :
    bf4Values k d₁ i o m₁ = bf4Values k d₂ i o m₂ := by
  have htw' {q : Nat} (hq : q ≤ 3 * i) := hi.table hop q (hq.trans_lt htw)
  have hsrc' {q : Nat} (hq : q ≤ bf4In i o + 3 * stride d₁.op d₁.n.toNat d₁.idx) := hi.source hop q (hq.trans_lt hsrc)
  rw [bf4Values, bf4Values, ← hi.op, ← hi.n, ← hi.idx, htw' (by omega : i ≤ 3 * i), htw' (by omega : 2 * i ≤ 3 * i),
    htw' le_rfl, hsrc' (Nat.le_add_right _ _), hsrc' (by omega), hsrc' (by omega), hsrc' le_rfl]

theorem initValues_congr (hop : d₁.op = .init) (hw : groupWrites d₁ g = [o, o + nPrime d₁.op d₁.n.toNat]) :
    initValues k d₁ o m₁ = initValues k d₂ o m₂ := by
  rw [initValues, initValues, ← hi.op, ← hi.n, hi.buffer hop o (by simp [hw]), hi.buffer hop (o + _) (by simp [hw])]

/-- What a group computes depends on what it reads alone (`20_memory.md` R66). -/
theorem groupValues_congr (h : failingCheck s d₁ = none) (hg : g ∈ d₁.groups) :
    groupValues k d₁ g m₁ = groupValues k d₂ g m₂ := by
  have hop₂ := hi.op
  by_cases hop : d₁.op = .init
  · obtain ⟨o, rfl⟩ := init_group_cases hop hg
    have hw : groupWrites d₁ (.index o) = [o, o + nPrime d₁.op d₁.n.toNat] := by simp [groupWrites, hop, initElements]
    rw [hop] at hop₂
    simp only [groupValues, hop, ← hop₂, initValues_congr hi k hop hw]
  · obtain ⟨a, b, i, o, rfl, hP, hσ, hba, hlt, hdvd, ho⟩ := stage_group_cases h hop hg
    have hle : 2 ^ b ≤ 2 ^ a := Nat.pow_le_pow_right Nat.two_pos hba
    have hlast := le_sub_of_dvd hlt hdvd (Nat.pow_dvd_pow 2 hba)
    have hn := outputs_mul_nPrime h
    rw [hP] at hn
    have two (e : 2 ^ d₁.op.minLog = 2) (htw : twReq d₁.op d₁.n.toNat d₁.idx = nPrime d₁.op d₁.n.toNat) :
        bf2Values k d₁ i o m₁ = bf2Values k d₂ i o m₂ := by
      rw [e] at hn
      exact bf2Values_congr hi k hop (by omega) (by rw [bf2In_eq_add hdvd ho, hσ]; omega)
    have four (e : 2 ^ d₁.op.minLog = 4)
        (htw : twReq d₁.op d₁.n.toNat d₁.idx = 3 * (nPrime d₁.op d₁.n.toNat - stride d₁.op d₁.n.toNat d₁.idx) + 1) :
        bf4Values k d₁ i o m₁ = bf4Values k d₂ i o m₂ := by
      rw [e] at hn
      exact bf4Values_congr hi k hop (by omega) (by rw [bf4In_eq_add hdvd ho, hσ]; omega)
    cases e : d₁.op <;> simp only [e] at hop₂ two four
    case r2c => simp only [groupValues, e, ← hop₂, two rfl rfl]
    case r2a => simp only [groupValues, e, ← hop₂, two rfl rfl]
    case r4 => simp only [groupValues, e, ← hop₂, four rfl rfl]
    case init => exact absurd e hop

end Congr

end Sys2Proof.Machine
end

section
/-! SUPPORT. The engine's steps on an accepted operation (`60_exceptions.md` R173, R174): one group, then the whole run under any
order of the groups. -/

namespace Sys2Proof.Machine

open Host

variable {s t u : State} {es : List Event} {d : Desc} {g : Group} {m : Memory} {k : Nat} {ks : List Nat}

/-! ### One step -/

theorem MachineInv.busy_of_desc (hi : MachineInv s) (hd : s.desc = some d) : s.busy = true := by
  obtain ⟨-, -, ⟨hb, -⟩, -⟩ := hi
  rw [hb, hd]
  rfl

theorem MachineInv.pending_mem_groups (hi : MachineInv s) (hd : s.desc = some d) (hg : g ∈ s.pending) : g ∈ d.groups := by
  obtain ⟨-, -, -, -, -, -, hgs⟩ := hi.descOk hd
  exact hgs g hg

theorem MachineInv.pending_nodup (hi : MachineInv s) (hd : s.desc = some d) : s.pending.Nodup := by
  obtain ⟨-, -, -, -, -, hnd, -⟩ := hi.descOk hd
  exact hnd

theorem engineStep_group (hb : s.busy = true) (hd : s.desc = some d) (hg : chosenGroup k s = some g) :
    engineStep k s = performGroup d g { s with pending := s.pending.erase g } := by
  simp only [engineStep, hb, hd, hg, if_true]

theorem engineStep_complete (hb : s.busy = true) (hd : s.desc = some d) (hp : s.pending = []) :
    engineStep k s = complete s := by
  simp only [engineStep, hb, hd, chosenGroup_eq_none.2 hp, if_true]

/-- The step that performs the chosen group (`60_exceptions.md` R173). -/
theorem step_group (hi : MachineInv s) (hstop : modelStop s = none) (he : s.events = .engine k :: es)
    (hd : s.desc = some d) (hg : chosenGroup k s = some g) :
    step s = .next (performGroup d g { s with events := es, pending := s.pending.erase g }) :=
  (step_cons hstop he).trans (congrArg Outcome.next (engineStep_group (hi.busy_of_desc hd) hd hg))

/-- The step that finds nothing pending completes (`60_exceptions.md` R174). -/
theorem step_complete (hi : MachineInv s) (hstop : modelStop s = none) (he : s.events = .engine k :: es)
    (hd : s.desc = some d) (hp : s.pending = []) : step s = .next (complete { s with events := es }) :=
  (step_cons hstop he).trans (congrArg Outcome.next (engineStep_complete (hi.busy_of_desc hd) hd hp))

/-- The values of a group stand where it writes them, and no other byte changes. -/
theorem performGroup_stores (h : failingCheck s d = none) (hg : g ∈ d.groups) :
    (groupWrites d g).map (ldC (performGroup d g u).mem d.dstB) = groupValues u.draws d g u.mem
      ∧ ∀ a, outsideElems d.dstB (groupWrites d g) a → Memory.read (performGroup d g u).mem a = Memory.read u.mem a := by
  rw [performGroup_mem]
  exact ⟨map_ldC_storeElems (groupWrites_nodup h hg) length_groupValues, fun a => read_storeElems_outside⟩

/-- The elements of every other group stay. -/
theorem ldC_performGroup_other {g' : Group} {j : Nat} (h : failingCheck s d = none) (hg : g ∈ d.groups)
    (hg' : g' ∈ d.groups) (hne : g' ≠ g) (hj : j ∈ groupWrites d g') :
    ldC (performGroup d g u).mem d.dstB j = ldC u.mem d.dstB j := by
  rw [performGroup_mem]
  exact ldC_storeElems_of_not_mem fun hj' => hne (eq_of_mem_groupWrites h hg' hg hj hj')

/-! ### The radix-2 group (`41_radix2.md` R121) -/

theorem radix2_dims (hop : d.op = .r2c ∨ d.op = .r2a) :
    nPrime d.op d.n.toNat = d.n.toNat / 2 ∧ stride d.op d.n.toNat d.idx = d.n.toNat / 2 / 2 ^ d.idx := by
  rw [stride_eq_div, nPrime_eq_div]
  rcases hop with hop | hop <;> rw [hop] <;> exact ⟨rfl, rfl⟩

theorem radix2_groupWrites (hop : d.op = .r2c ∨ d.op = .r2a) (i o : Nat) :
    groupWrites d (.pair i o) = [bfOut i o, bfOut i o + d.n.toNat / 2] := by
  rw [← (radix2_dims hop).1]
  rcases hop with hop | hop <;> simp only [groupWrites, hop, radix2Writes]

/-- The two values of `BF2` (`41_radix2.md` R121). -/
theorem radix2_groupValues (hop : d.op = .r2c ∨ d.op = .r2a) (i o : Nat) :
    groupValues k d (.pair i o) m =
      [cadd (k + 6) (ldC m d.srcB (bf2In i o))
          (cmul k (ldC m d.srcB (bf2In i o + d.n.toNat / 2 / 2 ^ d.idx)) (ldC m d.twB i)),
        csub (k + 8) (ldC m d.srcB (bf2In i o))
          (cmul k (ldC m d.srcB (bf2In i o + d.n.toNat / 2 / 2 ^ d.idx)) (ldC m d.twB i))] := by
  rw [← (radix2_dims hop).2]
  rcases hop with hop | hop <;> simp only [groupValues, hop, bf2Values, bf2]

/-- Settles O27: the group's two stores, and what they leave. -/
theorem radix2GroupStep : Obligations.Radix2GroupStep := by
  rintro s es k d i o hi ⟨hstop, -, he⟩ hd hop hg
  have hmem := hi.pending_mem_groups hd (chosenGroup_mem hg)
  let u : State := { s with events := es, pending := s.pending.erase (.pair i o) }
  obtain ⟨hvals, hout⟩ := performGroup_stores (u := u) (hi.admitted hd) hmem
  rw [radix2_groupWrites hop, radix2_groupValues hop] at hvals
  rw [radix2_groupWrites hop] at hout
  obtain ⟨hsum, hdiff⟩ := List.cons_eq_cons.1 hvals
  refine ⟨(performGroup d (.pair i o) u).mem, ?_, hsum, (List.cons_eq_cons.1 hdiff).1, hout⟩
  rw [step_group hi hstop he hd hg]
  rcases hop with hop | hop <;> simp only [performGroup, hop] <;> rfl

/-! ### The run -/

theorem core_run_succ (h : step s = .next t) (n : Nat) : core.run (n + 1) s = core.run n t := by
  have h' : core.step s = .next t := h
  simp only [Core.run, h']

/-- An operation in progress from memory `m`: what is pending has its elements as they were, what is performed has its values, for
some draws, where it writes them, and nothing outside the destination has changed. -/
structure Progress (m : Memory) (d : Desc) (u : State) : Prop where
  inv : MachineInv u
  running : modelStop u = none
  desc : u.desc = some d
  outside : ∀ a, d.dstR.has a = false → Memory.read u.mem a = Memory.read m a
  waiting : ∀ g ∈ u.pending, ∀ j ∈ groupWrites d g, ldC u.mem d.dstB j = ldC m d.dstB j
  performed : ∀ g ∈ d.groups, g ∉ u.pending → ∃ k, (groupWrites d g).map (ldC u.mem d.dstB) = groupValues k d g m

/-- An operation that has ended: every group's values, computed from memory `m`, stand in the destination. -/
structure OperationResult (m : Memory) (d : Desc) (t : State) : Prop where
  idle : t.busy = false
  done : t.done = true
  outside : ∀ a, d.dstR.has a = false → Memory.read t.mem a = Memory.read m a
  stored : ∀ g ∈ d.groups, ∃ k, (groupWrites d g).map (ldC t.mem d.dstB) = groupValues k d g m

/-- An element of a region that lies outside the destination. -/
theorem ldC_of_outside {m' : Memory} {base : Word} {n j : Nat}
    (hout : ∀ a, d.dstR.has a = false → Memory.read m a = Memory.read m' a)
    (hapart : ∀ a, Region.has (base.toNat, n) a = true → d.dstR.has a = false) (hj : j < n) :
    ldC m base j = ldC m' base j := by
  refine ldC_congr fun a h1 h2 => hout a (hapart a (Region.has_iff.2 ?_))
  rw [elemAddr] at h1 h2
  exact ⟨by omega, by omega⟩

namespace Progress

/-- A pending group still reads what it read at issue (`20_memory.md` R66, `42_radix4.md` R147). -/
theorem sameInputs (h : Progress m d u) (hg : g ∈ u.pending) : SameInputs g d d u.mem m where
  op := rfl
  n := rfl
  idx := rfl
  source hop _ hj := ldC_of_outside h.outside (fun _ ha => dstR_apart (h.inv.admitted h.desc) hop (.inl ha)) hj
  table hop _ hj := ldC_of_outside h.outside (fun _ ha => dstR_apart (h.inv.admitted h.desc) hop (.inr ha)) hj
  buffer _ j hj := h.waiting g hg j hj

/-- Performing a pending group goes on with the operation, whatever inputs remain. -/
theorem perform (h : Progress m d u) (hg : g ∈ u.pending) :
    Progress m d (performGroup d g { u with events := es, pending := u.pending.erase g }) := by
  have hf := h.inv.admitted h.desc
  have hgd := h.inv.pending_mem_groups h.desc hg
  let v : State := { u with events := es, pending := u.pending.erase g }
  have hsame : performGroup d g v = { v with mem := (performGroup d g v).mem, draws := (performGroup d g v).draws } :=
    performGroup_frame.same
  have hi : MachineInv (performGroup d g v) :=
    performGroup_machineInv (erase_machineInv g ((HostFrame.events u es).machineInv h.inv) (h.inv.busy_of_desc h.desc)) hf hgd
  have hpend (g' : Group) : g' ∈ (performGroup d g v).pending ↔ g' ≠ g ∧ g' ∈ u.pending := by
    rw [hsame]
    exact (h.inv.pending_nodup h.desc).mem_erase_iff
  refine ⟨hi, ?_, ?_, fun a ha => ?_, fun g' hg' j hj => ?_, fun g' hg' hnp => ?_⟩
  · rw [hsame]
    exact h.running
  · rw [hsame]
    exact h.desc
  · exact (read_performGroup_outside hf ha hgd).trans (h.outside a ha)
  · obtain ⟨hne, hg'⟩ := (hpend g').1 hg'
    exact (ldC_performGroup_other hf hgd (h.inv.pending_mem_groups h.desc hg') hne hj).trans (h.waiting g' hg' j hj)
  · rw [hpend, not_and] at hnp
    by_cases hne : g' = g
    · subst hne
      exact ⟨u.draws, (performGroup_stores hf hgd).1.trans (groupValues_congr (h.sameInputs hg) _ hf hgd)⟩
    · obtain ⟨n, hn⟩ := h.performed g' hg' (hnp hne)
      exact ⟨n, (List.map_congr_left fun j hj => ldC_performGroup_other hf hgd hg' hne hj).trans hn⟩

/-- A step with something pending performs one group of it. -/
theorem step_pending (h : Progress m d u) (he : u.events = .engine k :: es) (hp : u.pending ≠ []) :
    ∃ t, step u = .next t ∧ Progress m d t ∧ t.events = es ∧ t.pending.length + 1 = u.pending.length := by
  obtain ⟨g, hg⟩ := Option.ne_none_iff_exists'.1 (mt chosenGroup_eq_none.1 hp : chosenGroup k u ≠ none)
  have hgp := chosenGroup_mem hg
  refine ⟨_, step_group h.inv h.running he h.desc hg, h.perform hgp, ?_, ?_⟩ <;> rw [performGroup_frame.same]
  exact List.length_erase_add_one hgp

/-- With nothing pending the completion step ends the operation. -/
theorem step_last (h : Progress m d u) (he : u.events = .engine k :: es) (hp : u.pending = []) :
    ∃ t, step u = .next t ∧ OperationResult m d t :=
  ⟨_, step_complete h.inv h.running he h.desc hp, rfl, rfl, h.outside,
    fun g hg => h.performed g hg (hp ▸ List.not_mem_nil)⟩

/-- One step for each pending group in any order, and the completion step. -/
theorem run (h : Progress m d u) (he : u.events = ks.map .engine) (hl : ks.length = u.pending.length + 1) :
    ∃ t, core.run ks.length u = .next t ∧ OperationResult m d t := by
  induction ks generalizing u with
  | nil => cases hl
  | cons k ks ih =>
    by_cases hp : u.pending = []
    · obtain ⟨t, ht, hr⟩ := h.step_last he hp
      obtain rfl : ks = [] := List.eq_nil_of_length_eq_zero (by simpa [hp] using hl)
      exact ⟨t, core_run_succ ht 0, hr⟩
    · obtain ⟨v, hv, hprog, hev, hlen⟩ := h.step_pending he hp
      obtain ⟨t, ht, hr⟩ := ih hprog hev (by rw [List.length_cons] at hl; omega)
      exact ⟨t, (core_run_succ hv _).trans ht, hr⟩

end Progress

/-- An accepted operation runs to its result under every order of its groups (`70_reset_and_hazards.md` R202). -/
theorem JustAccepted.run (h : JustAccepted s d ks) : ∃ t, core.run ks.length s = .next t ∧ OperationResult s.mem d t := by
  obtain ⟨hi, hstop, hd, hp, he, hl⟩ := h
  refine Progress.run ⟨hi, hstop, hd, fun _ _ => rfl, fun _ _ _ _ => rfl, fun g hg hn => ?_⟩ he (hp ▸ hl)
  exact absurd (hp ▸ hg) hn

/-- Settles O32: each pair is a group, and its OR formulas are sums. -/
theorem radix2WholeStage : Obligations.Radix2WholeStage := by
  intro s d ks h hop
  have ⟨hi, _, hd, _⟩ := h
  have hf := hi.admitted hd
  obtain ⟨t, ht, hr⟩ := h.run
  refine ⟨t, ht, hr.idle, hr.done, hr.outside, ?_⟩
  rintro _ _ i o rfl rfl hlt hdvd ho
  have hstage : d.op ≠ .init := by rcases hop with e | e <;> rw [e] <;> decide
  obtain ⟨a, b, -, -, hσ⟩ := stage_dims hf hstage
  have hg : .pair i o ∈ d.groups := by
    rw [(stage_groups_perm hf hstage).mem_iff, pair_mem_groupsR2c_iff (hσ ▸ Nat.two_pow_pos b), (radix2_dims hop).1,
      (radix2_dims hop).2]
    exact ⟨hlt, hdvd, ho⟩
  obtain ⟨k, hk⟩ := hr.stored _ hg
  rw [(radix2_dims hop).2] at hσ
  rw [radix2_groupWrites hop, radix2_groupValues hop, bfOut_eq_add (hσ ▸ hdvd) (hσ ▸ ho),
    bf2In_eq_add (hσ ▸ hdvd) (hσ ▸ ho)] at hk
  obtain ⟨hsum, hdiff⟩ := List.cons_eq_cons.1 hk
  exact ⟨k, hsum, (List.cons_eq_cons.1 hdiff).1⟩

end Sys2Proof.Machine
end

section
/-! SUPPORT. Results up to the NaN draws (`40_complex64.md` R102, `41_radix2.md` R124, R127): the datapath takes lanes that agree to
lanes that agree, and so two operations that read the same elements leave the same destination. -/

namespace Sys2Proof.Machine

section Lanes

variable {x y x' y' : F32}

/-! ### The binary32 primitives and the Complex64 operations -/

theorem SameLane.refl (x : F32) : SameLane x x := .inl rfl

theorem SameLane.nan (hx : isQuietNaN x = true) (hy : isQuietNaN y = true) : SameLane x y := .inr ⟨hx, hy⟩

theorem nanResult_sameLane (k k' : Nat) : SameLane (nanResult k) (nanResult k') :=
  .nan (isQuietNaN_nanResult k) (isQuietNaN_nanResult k')

/-- Of the same operands, the draw matters to a NaN result alone. -/
theorem fadd_draw_sameLane (k k' : Nat) (x y : F32) : SameLane (fadd k x y) (fadd k' x y) := by
  unfold fadd
  split
  · exact nanResult_sameLane k k'
  · split
    · split
      · exact nanResult_sameLane k k'
      · exact .refl _
    · exact .refl _

theorem fmul_draw_sameLane (k k' : Nat) (x y : F32) : SameLane (fmul k x y) (fmul k' x y) := by
  unfold fmul
  split
  · exact nanResult_sameLane k k'
  · split
    · split
      · exact nanResult_sameLane k k'
      · exact .refl _
    · exact .refl _

theorem SameLane.fneg (h : SameLane x x') : SameLane (fneg x) (fneg x') := by
  rcases h with rfl | ⟨hx, hx'⟩
  · exact .refl _
  · rw [isQuietNaN_iff] at hx hx'
    exact .nan (by rwa [isQuietNaN_iff, f32Body_fneg]) (by rwa [isQuietNaN_iff, f32Body_fneg])

theorem SameLane.fadd (hx : SameLane x x') (hy : SameLane y y') (k k' : Nat) : SameLane (fadd k x y) (fadd k' x' y') := by
  rcases hx with rfl | ⟨hx, hx'⟩
  · rcases hy with rfl | ⟨hy, hy'⟩
    · exact fadd_draw_sameLane k k' x y
    · exact .nan (isQuietNaN_fadd (.inr (isNaN_of_isQuietNaN hy))) (isQuietNaN_fadd (.inr (isNaN_of_isQuietNaN hy')))
  · exact .nan (isQuietNaN_fadd (.inl (isNaN_of_isQuietNaN hx))) (isQuietNaN_fadd (.inl (isNaN_of_isQuietNaN hx')))

theorem SameLane.fsub (hx : SameLane x x') (hy : SameLane y y') (k k' : Nat) : SameLane (fsub k x y) (fsub k' x' y') :=
  hx.fadd hy.fneg k k'

end Lanes

section Elements

variable {a b a' b' : C64}

theorem SameElem.cadd (ha : SameElem a a') (hb : SameElem b b') (k k' : Nat) : SameElem (cadd k a b) (cadd k' a' b') :=
  ⟨ha.1.fadd hb.1 _ _, ha.2.fadd hb.2 _ _⟩

theorem SameElem.csub (ha : SameElem a a') (hb : SameElem b b') (k k' : Nat) : SameElem (csub k a b) (csub k' a' b') :=
  ⟨ha.1.fsub hb.1 _ _, ha.2.fsub hb.2 _ _⟩

theorem SameElem.crotni (ha : SameElem a a') : SameElem (crotni a) (crotni a') := ⟨ha.2, ha.1.fneg⟩

theorem SameElem.refl (x : C64) : SameElem x x := ⟨.refl _, .refl _⟩

theorem cmul_draw_sameElem (k k' : Nat) (x t : C64) : SameElem (cmul k x t) (cmul k' x t) :=
  ⟨(fmul_draw_sameLane _ _ _ _).fsub (fmul_draw_sameLane _ _ _ _) _ _,
    (fmul_draw_sameLane _ _ _ _).fadd (fmul_draw_sameLane _ _ _ _) _ _⟩

/-! ### The groups -/

theorem bf2_draw_sameElem (k k' : Nat) (a x t : C64) :
    SameElem (bf2 k a x t).1 (bf2 k' a x t).1 ∧ SameElem (bf2 k a x t).2 (bf2 k' a x t).2 :=
  have hb := cmul_draw_sameElem k k' x t
  ⟨(SameElem.refl a).cadd hb _ _, (SameElem.refl a).csub hb _ _⟩

theorem bf4_draw_sameElem (k k' : Nat) (a x₁ t₁ x₂ t₂ x₃ t₃ : C64) :
    let v := bf4 k a x₁ t₁ x₂ t₂ x₃ t₃
    let v' := bf4 k' a x₁ t₁ x₂ t₂ x₃ t₃
    SameElem v.1 v'.1 ∧ SameElem v.2.1 v'.2.1 ∧ SameElem v.2.2.1 v'.2.2.1 ∧ SameElem v.2.2.2 v'.2.2.2 := by
  have hb := cmul_draw_sameElem k k' x₁ t₁
  have hc := cmul_draw_sameElem (k + 6) (k' + 6) x₂ t₂
  have hd := cmul_draw_sameElem (k + 12) (k' + 12) x₃ t₃
  have hacp := (SameElem.refl a).cadd hc (k + 18) (k' + 18)
  have hacm := (SameElem.refl a).csub hc (k + 20) (k' + 20)
  have hbdp := hb.cadd hd (k + 22) (k' + 22)
  have hbdm := (hb.csub hd (k + 24) (k' + 24)).crotni
  exact ⟨hacp.cadd hbdp _ _, hacm.cadd hbdm _ _, hacp.csub hbdp _ _, hacm.csub hbdm _ _⟩

/-- A group's values are the same lanes for any draws (`40_complex64.md` R102). -/
theorem groupValues_draw_sameElem (k k' : Nat) (d : Desc) (g : Group) (m : Memory) :
    List.Forall₂ SameElem (groupValues k d g m) (groupValues k' d g m) := by
  have two (i o : Nat) : List.Forall₂ SameElem [(bf2Values k d i o m).1, (bf2Values k d i o m).2]
      [(bf2Values k' d i o m).1, (bf2Values k' d i o m).2] := by
    obtain ⟨h1, h2⟩ := bf2_draw_sameElem k k' (ldC m d.srcB (bf2In i o))
      (ldC m d.srcB (bf2In i o + stride d.op d.n.toNat d.idx)) (ldC m d.twB i)
    exact .cons h1 (.cons h2 .nil)
  unfold groupValues
  split
  · exact two _ _
  · exact two _ _
  · obtain ⟨h1, h2, h3, h4⟩ := bf4_draw_sameElem k k' _ _ _ _ _ _ _
    exact .cons h1 (.cons h2 (.cons h3 (.cons h4 .nil)))
  · exact .cons ((SameElem.refl _).cadd (.refl _) _ _) (.cons ((SameElem.refl _).csub (.refl _) _ _) .nil)
  · exact .nil

end Elements

/-! ### Whole operations -/

section Results

variable {s t₁ t₂ : State} {d₁ d₂ : Desc} {m₁ m₂ : Memory}

/-- Two operations whose groups write the same elements, and compute the same values under the same draws, leave the same lanes. -/
theorem OperationResult.sameElem (hf : failingCheck s d₁ = none) (h₁ : OperationResult m₁ d₁ t₁)
    (h₂ : OperationResult m₂ d₂ t₂)
    (hg : ∀ g ∈ d₁.groups, g ∈ d₂.groups ∧ groupWrites d₁ g = groupWrites d₂ g
      ∧ ∀ k, groupValues k d₁ g m₁ = groupValues k d₂ g m₂) (j : Nat)
    (hj : j < d₁.n.toNat) : SameElem (ldC t₁.mem d₁.dstB j) (ldC t₂.mem d₂.dstB j) := by
  obtain ⟨g, hg₁, hjw⟩ := exists_group_writing hf hj
  obtain ⟨hg₂, hw, hv⟩ := hg g hg₁
  obtain ⟨k₁, hk₁⟩ := h₁.stored g hg₁
  obtain ⟨k₂, hk₂⟩ := h₂.stored g hg₂
  have hsame := groupValues_draw_sameElem k₁ k₂ d₁ g m₁
  rw [hv k₂, ← hk₁, ← hk₂, ← hw, List.forall₂_map_left_iff, List.forall₂_map_right_iff, List.forall₂_same] at hsame
  exact hsame j hjw

/-- Settles O36: the two have the same groups, and each group is the same `BF2`. -/
theorem r2aMatchesR2c : Obligations.R2aMatchesR2c := by
  intro s₁ s₂ d ks₁ ks₂ hop h₁ h₂ hm
  have ⟨hi₁, _, hd₁, _⟩ := h₁
  have ⟨hi₂, _, hd₂, _⟩ := h₂
  have hf₁ := hi₁.admitted hd₁
  have hf₂ := hi₂.admitted hd₂
  obtain ⟨t₁, ht₁, hr₁⟩ := h₁.run
  obtain ⟨t₂, ht₂, hr₂⟩ := h₂.run
  have hstage : d.op ≠ .init := by rw [hop]; decide
  have hgroups : d.groups.Perm ({ d with op := .r2a } : Desc).groups := by
    refine (stage_groups_perm hf₁ hstage).trans (.trans (.of_eq ?_) (stage_groups_perm hf₂ Op.noConfusion).symm)
    rw [hop]
    rfl
  have hsame := hr₁.sameElem hf₁ hr₂ fun g hg => by
    obtain ⟨-, -, i, o, rfl, -⟩ := stage_group_cases hf₁ hstage hg
    refine ⟨hgroups.mem_iff.1 hg, ?_, fun k => ?_⟩
    · rw [radix2_groupWrites (.inl hop), radix2_groupWrites (.inr rfl)]
    · rw [radix2_groupValues (.inl hop), radix2_groupValues (.inr rfl), hm]
  exact ⟨t₁, t₂, ht₁, ht₂, hsame, fun a ha => by rw [hr₁.outside a ha, hr₂.outside a ha, hm]⟩

/-- Settles O37: the same groups read the same elements. -/
theorem resultDependsOnlyOnInputs : Obligations.ResultDependsOnlyOnInputs := by
  intro s₁ s₂ d₁ d₂ ks₁ ks₂ h₁ h₂ hop hn hidx hbuf hsrc
  have ⟨hi, _, hd, _⟩ := h₁
  have hf := hi.admitted hd
  obtain ⟨t₁, ht₁, hr₁⟩ := h₁.run
  obtain ⟨t₂, ht₂, hr₂⟩ := h₂.run
  have hgroups : d₁.groups = d₂.groups := by rw [Desc.groups, Desc.groups, hop, hn, hidx]
  have hwrites : groupWrites d₁ = groupWrites d₂ := by rw [groupWrites, groupWrites, hop, hn]
  refine ⟨t₁, t₂, ht₁, ht₂, hr₁.sameElem hf hr₂ fun g hg => ⟨hgroups ▸ hg, by rw [hwrites], fun k => ?_⟩⟩
  refine groupValues_congr ⟨hop, hn, hidx, fun hs => (hsrc hs).1, fun hs => (hsrc hs).2, fun hb q hq => ?_⟩ k hf hg
  exact hbuf hb q ((mem_groupWrites_iff hf hg).1 hq).1

end Results

end Sys2Proof.Machine
end

section
/-! SUPPORT. The elements that the groups of `R4` and `INIT` cover (`42_radix4.md` R143, R147). -/

namespace Sys2Proof.Machine

variable {a b i : Nat}

/-- Quadruples `m` apart that start at `s, …, s + m - 1` fill the `4 * m` indices from `s` on: pairs, and pairs `2 * m` further. -/
theorem flatMap_quadruples_perm (s m : Nat) :
    ((List.range m).flatMap fun j => [s + j, s + j + m, s + j + 2 * m, s + j + 3 * m]).Perm (List.range' s (4 * m)) := by
  have hsplit (j : Nat) : [s + j, s + j + m, s + j + 2 * m, s + j + 3 * m]
      = [s + j, s + j + m] ++ [s + 2 * m + j, s + 2 * m + j + m] := by
    rw [List.cons_append, List.cons_append, List.nil_append, Nat.add_right_comm s (2 * m) j, Nat.add_assoc _ (2 * m) m,
      Nat.succ_mul 2 m]
  have hfill : List.range' s (2 * m) ++ List.range' (s + 2 * m) (2 * m) = List.range' s (4 * m) := by
    rw [List.range'_append_1, ← Nat.add_mul]
  simp only [hsplit]
  refine (List.flatMap_append_perm _ _ _).symm.trans (.trans ?_ (.of_eq hfill))
  exact (flatMap_pairs_perm s m).append (flatMap_pairs_perm (s + 2 * m) m)

/-- Where the block that starts at `i` fills the `w` times stride indices from `w * i` on, the stage fills `[0, w * N')`. -/
theorem flatMap_groupsR2c_of_blocks (hba : b ≤ a) {f : Group → List Nat} {w : Nat}
    (hf : ∀ i, 2 ^ b ∣ i →
      ((List.range (2 ^ b)).flatMap fun o => f (.pair i o)).Perm (List.range' (w * i) (w * 2 ^ b))) :
    ((groupsR2c (2 ^ a) (2 ^ b)).flatMap f).Perm (List.range (w * 2 ^ a)) := by
  obtain ⟨n, hn⟩ := Nat.pow_dvd_pow 2 hba
  rw [hn, Nat.mul_comm (2 ^ b) n, groupsR2c, stepRange_mul n (Nat.two_pow_pos b), List.flatMap_assoc, List.flatMap_map,
    Nat.mul_left_comm, ← flatMap_blocks]
  refine .flatMap_left _ fun j _ => ?_
  rw [List.flatMap_map, Nat.mul_left_comm]
  exact hf _ (Nat.dvd_mul_left _ j)

/-- The inputs of the block of `R4` that starts at `i` (`42_radix4.md` R143). -/
theorem radix4_block_reads_perm (hi : 2 ^ b ∣ i) :
    ((List.range (2 ^ b)).flatMap fun o => radix4Reads (2 ^ b) (.pair i o)).Perm (List.range' (4 * i) (4 * 2 ^ b)) := by
  refine .trans (.of_eq (List.flatMap_congr fun o ho => ?_)) (flatMap_quadruples_perm (4 * i) (2 ^ b))
  rw [radix4Reads, bf4In_eq_add hi (List.mem_range.1 ho)]

/-- Settles O24: the inputs block by block, the outputs in the enumeration of `R2A`. -/
theorem radix4IndexFacts : Obligations.Radix4IndexFacts := by
  intro a b hba
  rw [groupsR4_eq_groupsR2c]
  refine ⟨fun i o h => ?_, fun i _ => radix4_block_reads_perm,
    flatMap_groupsR2c_of_blocks hba fun i => radix4_block_reads_perm, ?_⟩
  · obtain ⟨-, hi, ho⟩ := (pair_mem_groupsR2c_iff (Nat.two_pow_pos b)).1 h
    exact ⟨bf4In_eq_add hi ho, bfOut_eq_add hi ho⟩
  · refine (flatMap_groupsR2c_perm hba (h := fun o => [o, o + 2 ^ a, o + 2 * 2 ^ a, o + 3 * 2 ^ a]) fun _ _ => rfl).trans ?_
    simpa [List.range_eq_range'] using flatMap_quadruples_perm 0 (2 ^ a)

/-- Settles O25: the pairs that start at `0, …, h - 1`. -/
theorem initPairsPartition : Obligations.InitPairsPartition := by
  intro h
  rw [groupsInit, List.flatMap_map]
  simpa [initElements, List.range_eq_range'] using flatMap_pairs_perm 0 h

end Sys2Proof.Machine
end

section
/-! SUPPORT. The groups of `R4` and `INIT`: one engine step, and the whole operation (`42_radix4.md` R141, R142, R146, R147). -/

namespace Sys2Proof.Machine

variable {s : State} {es : List Event} {d : Desc} {g : Group} {m : Memory} {k : Nat}

/-! ### A group step of any operation (`60_exceptions.md` R173) -/

/-- The step that performs a group takes its draws, stores its values where it writes them, and changes nothing else. -/
theorem step_group_stores (hi : MachineInv s) (hin : NextInput s (.engine k) es) (hd : s.desc = some d)
    (hg : chosenGroup k s = some g) {n : Nat} (hn : ∀ u, (performGroup d g u).draws = u.draws + n) :
    ∃ m', step s = .next { s with events := es, pending := s.pending.erase g, mem := m', draws := s.draws + n }
      ∧ (groupWrites d g).map (ldC m' d.dstB) = groupValues s.draws d g s.mem
      ∧ ∀ a, outsideElems d.dstB (groupWrites d g) a → Memory.read m' a = Memory.read s.mem a := by
  obtain ⟨hstop, -, he⟩ := hin
  let u : State := { s with events := es, pending := s.pending.erase g }
  refine ⟨(performGroup d g u).mem, ?_,
    performGroup_stores (u := u) (hi.admitted hd) (hi.pending_mem_groups hd (chosenGroup_mem hg))⟩
  rw [step_group hi hstop he hd hg, performGroup_frame.same, hn]

/-! ### `R4` (`42_radix4.md` R141) -/

/-- Four stored elements, read one by one. -/
theorem map_quadruple_eq {f : Nat → C64} {j₀ j₁ j₂ j₃ : Nat} {x₀ x₁ x₂ x₃ : C64}
    (h : [j₀, j₁, j₂, j₃].map f = [x₀, x₁, x₂, x₃]) : f j₀ = x₀ ∧ f j₁ = x₁ ∧ f j₂ = x₂ ∧ f j₃ = x₃ := by
  simpa only [List.map_cons, List.map_nil, List.cons.injEq, and_true] using h

section R4

variable (hop : d.op = .r4)

include hop

theorem r4_dims : nPrime d.op d.n.toNat = d.n.toNat / 4 ∧ stride d.op d.n.toNat d.idx = d.n.toNat / 4 / 2 ^ d.idx := by
  rw [stride_eq_div, nPrime_eq_div, hop]
  exact ⟨rfl, rfl⟩

theorem r4_groups : d.groups = groupsR2c (d.n.toNat / 4) (d.n.toNat / 4 / 2 ^ d.idx) := by
  obtain ⟨hP, hσ⟩ := r4_dims hop
  rw [hop] at hP hσ
  rw [Desc.groups, hop, ← hσ, ← hP, groupsR4_eq_groupsR2c]

theorem r4_groupWrites (i o : Nat) :
    groupWrites d (.pair i o) =
      [bfOut i o, bfOut i o + d.n.toNat / 4, bfOut i o + 2 * (d.n.toNat / 4), bfOut i o + 3 * (d.n.toNat / 4)] := by
  rw [← (r4_dims hop).1]
  simp only [groupWrites, hop, radix4Writes]

/-- The four values of `BF4` (`42_radix4.md` R141). -/
theorem r4_groupValues (i o : Nat) :
    groupValues k d (.pair i o) m =
      let σ := d.n.toNat / 4 / 2 ^ d.idx
      let v := bf4 k (ldC m d.srcB (bf4In i o)) (ldC m d.srcB (bf4In i o + σ)) (ldC m d.twB i)
        (ldC m d.srcB (bf4In i o + 2 * σ)) (ldC m d.twB (2 * i)) (ldC m d.srcB (bf4In i o + 3 * σ)) (ldC m d.twB (3 * i))
      [v.1, v.2.1, v.2.2.1, v.2.2.2] := by
  rw [← (r4_dims hop).2]
  simp only [groupValues, hop, bf4Values]

theorem r4_draws (i o : Nat) (u : State) : (performGroup d (.pair i o) u).draws = u.draws + 34 := by
  simp only [performGroup, hop]
  rfl

end R4

/-- Settles O28: the group's four stores, and what they leave. -/
theorem radix4GroupStep : Obligations.Radix4GroupStep := by
  intro s es k d i o hi hin hd hop hg
  obtain ⟨m, hstep, hvals, hout⟩ := step_group_stores hi hin hd hg (r4_draws hop i o)
  rw [r4_groupWrites hop] at hvals hout
  rw [r4_groupValues hop] at hvals
  obtain ⟨h0, h1, h2, h3⟩ := map_quadruple_eq hvals
  exact ⟨m, hstep, h0, h1, h2, h3, hout⟩

/-- Settles O33: each pair is a group, and its OR formulas are sums. -/
theorem radix4WholeStage : Obligations.Radix4WholeStage := by
  intro s d ks h hop
  have ⟨hi, _, hd, _⟩ := h
  obtain ⟨t, ht, hr⟩ := h.run
  refine ⟨t, ht, hr.idle, hr.done, hr.outside, ?_⟩
  rintro _ _ i o rfl rfl hlt hdvd ho
  obtain ⟨a, b, -, -, hσ⟩ := stage_dims (hi.admitted hd) (by rw [hop]; decide)
  rw [(r4_dims hop).2] at hσ
  have hg : .pair i o ∈ d.groups := by
    rw [r4_groups hop, pair_mem_groupsR2c_iff (hσ ▸ Nat.two_pow_pos b)]
    exact ⟨hlt, hdvd, ho⟩
  obtain ⟨k, hk⟩ := hr.stored _ hg
  rw [r4_groupWrites hop, r4_groupValues hop, bfOut_eq_add (hσ ▸ hdvd) (hσ ▸ ho), bf4In_eq_add (hσ ▸ hdvd) (hσ ▸ ho)] at hk
  exact ⟨k, map_quadruple_eq hk⟩

/-! ### `INIT` (`42_radix4.md` R146) -/

section Init

variable (hop : d.op = .init)

include hop

theorem init_nPrime : nPrime d.op d.n.toNat = d.n.toNat / 2 := by
  rw [nPrime_eq_div, hop]
  rfl

theorem init_groups : d.groups = groupsInit (d.n.toNat / 2) := by
  have hh := init_nPrime hop
  rw [hop] at hh
  rw [Desc.groups, hop, ← hh]

theorem init_groupWrites (o : Nat) : groupWrites d (.index o) = [o, o + d.n.toNat / 2] := by
  rw [← init_nPrime hop]
  simp only [groupWrites, hop, initElements]

/-- The sum and the difference of a pair (`42_radix4.md` R146). -/
theorem init_groupValues (o : Nat) :
    groupValues k d (.index o) m =
      [cadd k (ldC m d.dstB o) (ldC m d.dstB (o + d.n.toNat / 2)),
        csub (k + 2) (ldC m d.dstB o) (ldC m d.dstB (o + d.n.toNat / 2))] := by
  rw [← init_nPrime hop]
  simp only [groupValues, hop, initValues]

theorem init_draws (o : Nat) (u : State) : (performGroup d (.index o) u).draws = u.draws + 4 := by
  simp only [performGroup, hop]
  rfl

end Init

/-- Settles O29: the group's two stores in place, and what they leave. -/
theorem initGroupStep : Obligations.InitGroupStep := by
  intro s es k d o hi hin hd hop hg
  obtain ⟨m, hstep, hvals, hout⟩ := step_group_stores hi hin hd hg (init_draws hop o)
  rw [init_groupWrites hop] at hvals hout
  rw [init_groupValues hop] at hvals
  obtain ⟨hsum, hdiff⟩ := List.cons_eq_cons.1 hvals
  exact ⟨m, hstep, hsum, (List.cons_eq_cons.1 hdiff).1, hout⟩

/-- Settles O34: each index below `h` is a group. -/
theorem initWholeStage : Obligations.InitWholeStage := by
  intro s d ks h hop
  obtain ⟨t, ht, hr⟩ := h.run
  refine ⟨t, ht, hr.idle, hr.done, hr.outside, ?_⟩
  rintro _ o rfl ho
  have hg : .index o ∈ d.groups := by
    rw [init_groups hop]
    exact List.mem_map_of_mem (List.mem_range.2 ho)
  obtain ⟨k, hk⟩ := hr.stored _ hg
  rw [init_groupWrites hop, init_groupValues hop] at hk
  obtain ⟨hsum, hdiff⟩ := List.cons_eq_cons.1 hk
  exact ⟨k, hsum, (List.cons_eq_cons.1 hdiff).1⟩

end Sys2Proof.Machine
end

section
/-! SUPPORT. The first failing check of an issue (`60_exceptions.md` R161, R164, R170), the interrupt output (R177), and the access of a
second host agent (R183). -/

namespace Sys2Proof.Machine

open Host

variable {s : State} {d : Desc} {c : Check} {i : Instr}

/-! ### The first failing check -/

/-- The checks stand in the order of their codes (`60_exceptions.md` R161). -/
theorem issueChecks_sorted (cfg : Config) (twlen : Word) (d : Desc) :
    (issueChecks cfg twlen d).Pairwise fun p q => p.1.code.toNat < q.1.code.toNat := by
  simp [issueChecks, Check.code]

/-- In an ordered list of checks the first to fail is the one that fails while none of a smaller code does. -/
theorem firstFailing_eq_some {l : List (Check × Bool)} (hl : l.Pairwise fun p q => p.1.code.toNat < q.1.code.toNat)
    (hc : (c, true) ∈ l) (hmin : ∀ c' : Check, c'.code.toNat < c.code.toNat → (c', true) ∉ l) :
    firstFailing l = some c := by
  induction l with
  | nil => cases hc
  | cons p l ih =>
    obtain ⟨hp, hrest⟩ := List.pairwise_cons.1 hl
    obtain ⟨c', b⟩ := p
    cases b with
    | false =>
      have hc : (c, true) ∈ l := by simpa using hc
      exact ih hrest hc fun c' hlt hm => hmin c' hlt (List.mem_cons_of_mem _ hm)
    | true =>
      rcases List.mem_cons.1 hc with e | hc
      · cases e
        rfl
      · exact absurd List.mem_cons_self (hmin c' (hp _ hc))

theorem failingCheck_eq_some (hc : CheckFails c s d)
    (hmin : ∀ c' : Check, c'.code.toNat < c.code.toNat → ¬ CheckFails c' s d) : failingCheck s d = some c := by
  have hne : c ≠ .illegalCmd := by
    rintro rfl
    exact hc
  obtain ⟨b, hb⟩ := exists_mem_issueChecks (s := s) (d := d) hne
  have htrue : b = true := (issueChecks_iff hb).2 hc
  subst htrue
  exact firstFailing_eq_some (issueChecks_sorted _ _ _) hb fun c' hlt hm => hmin c' hlt ((issueChecks_iff hm).1 rfl)

theorem exec_faulted (hb : s.busy = false) (hc : failingCheck s (commandDesc i s) = some c) :
    exec i s = .next (takeFault c (beginIssue (encodeWord i) s)) := by
  obtain ⟨enum, e, -⟩ := exec_eq_command i s
  rw [e, command_failing hb hc]

/-- Settles O10: the check that the issue step finds first takes its fault. -/
theorem failedIssueTakesFirstFault : Obligations.FailedIssueTakesFirstFault :=
  fun _ _ _ hb hc hmin => exec_faulted hb (failingCheck_eq_some hc hmin)

/-! ### `BAD_IDX` -/

/-- A power of two shifted by `k` vanishes past its exponent and divides it before. -/
theorem two_pow_div_eq_zero_or_mod_ne_zero_iff (a k : Nat) :
    (2 ^ a / 2 ^ k = 0 ∨ 2 ^ a % (2 ^ a / 2 ^ k) ≠ 0) ↔ a < k := by
  rcases Nat.lt_or_ge a k with h | h
  · have hzero : 2 ^ a / 2 ^ k = 0 := Nat.div_eq_of_lt (Nat.pow_lt_pow_right (by omega) h)
    exact iff_of_true (.inl hzero) h
  · have hpow : 2 ^ a / 2 ^ k = 2 ^ (a - k) := Nat.pow_div h (by omega)
    have hdvd : 2 ^ a % 2 ^ (a - k) = 0 := Nat.mod_eq_zero_of_dvd (Nat.pow_dvd_pow 2 (Nat.sub_le a k))
    refine iff_of_false ?_ (Nat.not_lt.2 h)
    rw [hpow, not_or, not_not]
    exact ⟨(Nat.two_pow_pos _).ne', hdvd⟩

/-- `BAD_IDX` of an admitted length (`60_exceptions.md` R164). -/
theorem checkFails_badIdx_iff {m : Nat} (hop : d.op ≠ .init) (hn : d.n.toNat = 2 ^ m) (hlo : d.op.minLog ≤ m) :
    CheckFails .badIdx s d ↔ m < d.idx + d.op.minLog := by
  have hP : nPrime d.op d.n.toNat = 2 ^ (m - d.op.minLog) := by rw [nPrime_eq_div, hn, Nat.pow_div hlo (by omega)]
  have hiff := two_pow_div_eq_zero_or_mod_ne_zero_iff (m - d.op.minLog) d.idx
  rw [CheckFails, stride, Nat.shiftRight_eq_div_pow, hP, hiff, and_iff_right hop]
  omega

/-- Settles O12: `N'` is a power of two, and a shift by 32 is past that of `N = 8`. -/
theorem badIdxIsShiftPastN : Obligations.BadIdxIsShiftPastN := by
  have hradix2 (s d m) (hn : d.n.toNat = 2 ^ m) (hm : 1 ≤ m) (hop : d.op = .r2c ∨ d.op = .r2a) :
      CheckFails .badIdx s d ↔ m < d.idx + 1 := by
    have hlog : d.op.minLog = 1 := by rcases hop with e | e <;> rw [e] <;> rfl
    have hstage : d.op ≠ .init := by rcases hop with e | e <;> rw [e] <;> decide
    rw [checkFails_badIdx_iff hstage hn (hlog ▸ hm), hlog]
  refine ⟨hradix2, fun s d m hn hm hop => ?_, fun s d hop hn hidx => ?_⟩
  · have hlog : d.op.minLog = 2 := by rw [hop]; rfl
    rw [checkFails_badIdx_iff (by rw [hop]; decide) hn (hlog ▸ hm), hlog]
  · rw [hradix2 s d 3 (by rw [hn]; rfl) (by omega) (.inl hop), hidx]
    decide

/-! ### The interrupt output -/

theorem irq_iff (s : State) : irq s = true ↔ s.ie = true ∧ (s.done = true ∨ s.fault = true) := by
  rw [irq, Bool.and_eq_true, Bool.or_eq_true]

theorem irq_eq_ie (h : s.done = true ∨ s.fault = true) : irq s = s.ie := by
  rw [irq, Bool.or_eq_true_iff.2 h, Bool.and_true]

theorem irq_eq_false_of_ie (h : s.ie = false) : irq s = false := by rw [irq, h, Bool.false_and]

theorem irq_eq_false_of_no_outcome (hd : s.done = false) (hf : s.fault = false) : irq s = false := by
  rw [irq, hd, hf, Bool.or_false, Bool.and_false]

/-- Settles O48: what each operation leaves in `IE`, `DONE` and `FAULT`. -/
theorem interruptOutput : Obligations.InterruptOutput := by
  refine ⟨irq_iff, fun s => irq_eq_ie (.inl rfl), fun s c => irq_eq_ie (.inr rfl), fun s => rfl, fun s => ?_,
    fun s v hv => irq_eq_false_of_ie hv, fun s v hdone hfault => ?_, fun s w => irq_eq_false_of_no_outcome rfl rfl⟩
  · rw [resetEngine_eq]
    exact irq_eq_false_of_ie rfl
  · rw [writeStatus_eq, hdone, hfault]
    exact irq_eq_false_of_no_outcome rfl rfl

/-! ### A second host agent -/

/-- An aligned 32-bit access is a model fault when another host owns the window (`60_exceptions.md` R183). -/
theorem accessFault_secondHost {h h' addr : Nat} (hr : s.regHost = some h') (hne : h' ≠ h) (ha : addr % 4 = 0) :
    accessFault h addr 4 s = some (.multiHost h) := by
  have halign : ¬ (4 ≠ 4 ∨ addr % 4 ≠ 0) := by omega
  have hother : s.regHost.any (fun x => x != h) = true := by simpa [hr] using hne
  rw [accessFault, if_neg halign, if_pos hother]

/-- An access to the window that is a model fault is logged, and does nothing else (`60_exceptions.md` R179). -/
theorem step_windowAccess_faulted {es : List Event} {h addr width : Nat} {v : Word} {acc : HostAccess} {f : MFault}
    (hstop : modelStop s = none) (he : s.events = .access acc :: es)
    (hacc : acc = .regWrite h addr width v ∨ acc = .regRead h addr width)
    (ht : touchesWindow s.cfg addr width = true) (hf : accessFault h addr width { s with events := es } = some f) :
    step s = .next (logFault f { s with events := es }) := by
  rw [step_cons hstop he]
  rcases hacc with rfl | rfl <;> simp only [handle, hostAccess, regAccess, ht, hf, if_true]

/-- Settles O19: such an access reaches `accessFault`, whose entry stops the machine. -/
theorem secondHostIsModelFault : Obligations.SecondHostIsModelFault := by
  intro s es h h' addr v acc hacc ⟨hstop, _, he⟩ hr hne ha hlo hhi
  have ht : touchesWindow s.cfg addr 4 = true := bytesMeet_iff.2 ⟨addr, by omega, by omega⟩
  exact ⟨step_windowAccess_faulted hstop he hacc ht (accessFault_secondHost hr hne ha),
    step_of_modelStop (modelStop_append (f := .multiHost h) hstop)⟩

end Sys2Proof.Machine
end

section
/-! SUPPORT. What ends a run (`60_exceptions.md` R179, `70_reset_and_hazards.md` R203): a logged model fault, or a host memory access
beyond the address space (log 9). -/

namespace Sys2Proof.Machine

open Host

variable {s : State} {es : List Event} {P Q : Word → Nat → Prop} {o : Outcome State Fault Refusal}

/-! ### The stop of a model fault -/

/-- A log entry that is no failed check has a stop. -/
theorem stopOf_isSome {f : MFault} (h : ∀ code, f ≠ .check code) : (stopOf f).isSome = true := by
  cases f with
  | check code => exact absurd rfl (h code)
  | _ => rfl

/-- The stop of a log entry is one of the three of `60_exceptions.md` R179. -/
theorem stopOf_cases {f : MFault} {x : Fault} (h : stopOf f = some x) :
    x = .mmioAccess ∨ x = .hazard ∨ x = .multiHost := by
  cases f <;> cases h <;> decide

theorem exists_modelStop {f : MFault} (hf : f ∈ s.mfaults) (h : ∀ code, f ≠ .check code) :
    ∃ x, modelStop s = some x ∧ (x = .mmioAccess ∨ x = .hazard ∨ x = .multiHost) := by
  have hsome : (modelStop s).isSome = true := List.findSome?_isSome_iff.2 ⟨f, hf, stopOf_isSome h⟩
  obtain ⟨x, hx⟩ := Option.isSome_iff_exists.1 hsome
  obtain ⟨e, -, he⟩ := List.exists_of_findSome?_eq_some hx
  exact ⟨x, hx, stopOf_cases he⟩

/-! ### Without one a step answers a next state, or leaves the address space -/

/-- The outcome is a next state, or the stop of a memory access, one of `P`, that reaches beyond the address space (log 9). -/
def NextOrBeyond (P : Word → Nat → Prop) (o : Outcome State Fault Refusal) : Prop :=
  (∃ t, o = .next t) ∨ o = .fault .noSuchAddress ∧ ∃ a n, P a n ∧ 2 ^ 32 < a.toNat + n

theorem NextOrBeyond.mono (h : NextOrBeyond P o) (hpq : ∀ a n, P a n → Q a n) : NextOrBeyond Q o :=
  h.imp_right fun ⟨e, a, n, hp, hlt⟩ => ⟨e, a, n, hpq a n hp, hlt⟩

theorem hostMemWrite_nextOrBeyond {a : Word} {bs : List Byte} (h : P a bs.length) :
    NextOrBeyond P (hostMemWrite a.toNat bs s) := by
  rcases hostMemWrite_cases a.toNat bs s with ⟨hlt, e⟩ | ⟨-, -, e⟩ | ⟨-, -, e⟩
  · exact .inr ⟨e, a, bs.length, h, hlt⟩
  · exact .inl ⟨_, e⟩
  · exact .inl ⟨_, e⟩

theorem hostMemRead_nextOrBeyond {a : Word} {n : Nat} (h : P a n) : NextOrBeyond P (hostMemRead a.toNat n s) := by
  rcases hostMemRead_cases a.toNat n s with ⟨hlt, e⟩ | ⟨-, e⟩
  · exact .inr ⟨e, a, n, h, hlt⟩
  · exact .inl ⟨_, e⟩

theorem hostAccess_nextOrBeyond (acc : HostAccess) (s : State) :
    NextOrBeyond (fun a n => (∃ bs, acc = .memWrite a bs ∧ bs.length = n) ∨ acc = .memRead a n) (hostAccess acc s) := by
  cases acc with
  | regWrite host addr width v => exact .inl (regAccess_next fun r t => writeReg_next r v t)
  | regRead host addr width => exact .inl (regAccess_next fun _ _ => ⟨_, rfl⟩)
  | memWrite a bs => exact hostMemWrite_nextOrBeyond (.inl ⟨bs, rfl, rfl⟩)
  | memRead a n => exact hostMemRead_nextOrBeyond (.inr rfl)

theorem hostLine_nextOrBeyond (line : HostLine) (s : State) :
    NextOrBeyond (fun a n => n = 8 ∧ ((∃ x, line = .stc a x) ∨ ∃ k, line = .ldc a k)) (hostLine line s) := by
  cases line with
  | wr r v => exact .inl (regAccess_next fun r t => writeReg_next r v t)
  | rd r n => exact .inl (regAccess_next fun _ _ => ⟨_, rfl⟩)
  | stc a x => exact hostMemWrite_nextOrBeyond ⟨length_bytesOfNat, .inl ⟨x, rfl⟩⟩
  | ldc a k =>
    rcases hostMemRead_cases a.toNat 8 (nextLine s) with ⟨hlt, e⟩ | ⟨-, e⟩
    · exact .inr ⟨by simp only [hostLine, e], a, 8, ⟨rfl, .inr ⟨k, rfl⟩⟩, hlt⟩
    · exact .inl ⟨_, hostLine_ldc_next e⟩
  | label | bnz | bz | fence | halt => exact .inl ⟨_, rfl⟩

/-- The host's own step, with the line it executes. -/
theorem hostStep_nextOrBeyond (s : State) :
    NextOrBeyond (fun a n => n = 8 ∧ ∃ line, (s.halted = false ∧ s.prog[s.hpc]? = some line)
      ∧ ((∃ x, line = .stc a x) ∨ ∃ k, line = .ldc a k)) (hostStep s) := by
  by_cases hdone : s.halted = true ∨ s.prog[s.hpc]? = none
  · exact .inl ⟨s, hostStep_done hdone⟩
  · obtain ⟨hh, hl⟩ := not_or.1 hdone
    obtain ⟨line, hl⟩ := Option.ne_none_iff_exists'.1 hl
    have hh : s.halted = false := Bool.eq_false_iff.2 hh
    rw [hostStep_line hh hl]
    exact (hostLine_nextOrBeyond line s).mono fun a n ⟨hn, hline⟩ => ⟨hn, line, ⟨hh, hl⟩, hline⟩

/-- The line that the host executes makes its step an access to memory. -/
theorem accessesMemory_of_line (hturn : (∃ es, s.events = .host :: es) ∨ s.events = [] ∧ s.busy = false) {a : Word} {n : Nat}
    (h : n = 8 ∧ ∃ line, (s.halted = false ∧ s.prog[s.hpc]? = some line)
      ∧ ((∃ x, line = .stc a x) ∨ ∃ k, line = .ldc a k)) : AccessesMemory s a n := by
  obtain ⟨hn, line, ⟨hh, hl⟩, hline⟩ := h
  have hx : HostExecutes s line := ⟨hturn, hh, hl⟩
  refine .inr (.inr ⟨hn, ?_⟩)
  rcases hline with ⟨x, rfl⟩ | ⟨k, rfl⟩
  · exact .inl ⟨x, hx⟩
  · exact .inr ⟨k, hx⟩

theorem handle_nextOrBeyond {e : Event} (he : s.events = e :: es) :
    NextOrBeyond (AccessesMemory s) (handle e { s with events := es }) := by
  cases e with
  | host => exact (hostStep_nextOrBeyond _).mono fun a n => accessesMemory_of_line (.inl ⟨es, he⟩)
  | access acc =>
    refine (hostAccess_nextOrBeyond acc _).mono fun a n h => ?_
    rcases h with ⟨bs, rfl, hlen⟩ | rfl
    · exact .inl ⟨bs, es, he, hlen⟩
    · exact .inr (.inl ⟨es, he⟩)
  | engine | reset => exact .inl ⟨_, rfl⟩

theorem unscheduled_nextOrBeyond (he : s.events = []) : NextOrBeyond (AccessesMemory s) (unscheduled s) := by
  cases hb : s.busy with
  | true => exact .inl ⟨engineStep 0 s, by rw [unscheduled, if_pos hb]⟩
  | false =>
    rw [unscheduled, if_neg (Bool.eq_false_iff.1 hb)]
    exact (hostStep_nextOrBeyond s).mono fun a n => accessesMemory_of_line (.inr ⟨he, hb⟩)

theorem step_nextOrBeyond (hstop : modelStop s = none) : NextOrBeyond (AccessesMemory s) (step s) := by
  cases he : s.events with
  | nil => exact step_nil hstop he ▸ unscheduled_nextOrBeyond he
  | cons e es => exact step_cons hstop he ▸ handle_nextOrBeyond he

/-- Settles O20: a logged model fault has one of the three stops; without one only memory's bound can stop a step. -/
theorem onlyModelFaultsEndTheRun : Obligations.OnlyModelFaultsEndTheRun := by
  refine ⟨fun s f hf hne => ?_, fun s hlog => step_nextOrBeyond (modelStop_of_checks hlog)⟩
  obtain ⟨x, hx, hcases⟩ := exists_modelStop hf hne
  rw [step_of_modelStop hx]
  rcases hcases with rfl | rfl | rfl
  · exact .inl rfl
  · exact .inr (.inl rfl)
  · exact .inr (.inr rfl)

end Sys2Proof.Machine
end

section
/-! SUPPORT. An operation runs to completion (`60_exceptions.md` R173, R174, `70_reset_and_hazards.md` R202), with the engine's steps
scheduled or with nothing scheduled (log 2). -/

namespace Sys2Proof.Machine

open Host

variable {s : State} {ks : List Nat} {n : Nat}

/-- A busy engine has a descriptor (`10_state.md` R39). -/
theorem MachineInv.exists_desc (hi : MachineInv s) (hb : s.busy = true) : ∃ d, s.desc = some d := by
  obtain ⟨-, -, ⟨hd, -⟩, -⟩ := hi
  exact Option.isSome_iff_exists.1 (hd ▸ hb)

/-- Where the engine moves, the step is an engine step with some choice, and an input that asked for it is taken off. -/
theorem step_of_engineMoves (hstop : modelStop s = none) (hm : EngineMoves s) :
    ∃ k, step s = .next (engineStep k { s with events := s.events.tail }) := by
  rcases hm with ⟨k, es, he⟩ | ⟨he, hb⟩
  · exact ⟨k, by rw [step_cons hstop he, he]; rfl⟩
  · refine ⟨0, ?_⟩
    have htail : { s with events := s.events.tail } = s := by rw [he, List.tail_nil, ← he]
    rw [step_nil hstop he, unscheduled, if_pos hb, htail]

/-- With nothing pending the engine's step completes (`60_exceptions.md` R174). -/
theorem step_completes (hi : MachineInv s) (hstop : modelStop s = none) (hm : EngineMoves s) (hb : s.busy = true)
    (hp : s.pending = []) :
    step s = .next { s with events := s.events.tail, busy := false, done := true, desc := none } := by
  obtain ⟨d, hd⟩ := hi.exists_desc hb
  obtain ⟨k, hk⟩ := step_of_engineMoves hstop hm
  exact hk.trans (congrArg Outcome.next (engineStep_complete (s := { s with events := s.events.tail }) hb hd hp))

/-- With something pending the engine's step performs one group of it (`60_exceptions.md` R173). -/
theorem step_performs (hi : MachineInv s) (hstop : modelStop s = none) (hm : EngineMoves s) (hb : s.busy = true)
    (hp : s.pending ≠ []) :
    ∃ g ∈ s.pending, ∃ m n, step s = .next
      { s with events := s.events.tail, pending := s.pending.erase g, mem := m, draws := n } := by
  obtain ⟨d, hd⟩ := hi.exists_desc hb
  obtain ⟨k, hk⟩ := step_of_engineMoves hstop hm
  let u : State := { s with events := s.events.tail }
  obtain ⟨g, hg⟩ := Option.ne_none_iff_exists'.1 (mt chosenGroup_eq_none.1 hp : chosenGroup k u ≠ none)
  let v : State := { u with pending := s.pending.erase g }
  refine ⟨g, chosenGroup_mem hg, (performGroup d g v).mem, (performGroup d g v).draws, ?_⟩
  exact hk.trans (congrArg Outcome.next ((engineStep_group (s := u) hb hd hg).trans performGroup_frame.same))

/-- Settles O30: the engine moves at its input. -/
theorem completionStep : Obligations.CompletionStep := by
  rintro s es k hi ⟨hstop, -, he⟩ hb hp
  rw [step_completes hi hstop (.inl ⟨k, es, he⟩) hb hp, he]
  rfl

/-- For the next `n` steps of a busy engine only the engine is to move: `n` engine steps with the choices `ks` are scheduled, or
nothing is (log 2). -/
def OnlyEngineFor (n : Nat) (ks : List Nat) (s : State) : Prop :=
  s.events = [] ∨ s.events = ks.map Event.engine ∧ ks.length = n

theorem OnlyEngineFor.engineMoves (h : OnlyEngineFor (n + 1) ks s) (hb : s.busy = true) : EngineMoves s := by
  rcases h with he | ⟨he, hl⟩
  · exact .inr ⟨he, hb⟩
  · obtain ⟨k, ks, rfl⟩ := List.exists_cons_of_length_eq_add_one hl
    exact .inl ⟨k, ks.map Event.engine, he⟩

/-- One step takes one choice off. -/
theorem OnlyEngineFor.tail {t : State} (h : OnlyEngineFor (n + 1) ks s) (ht : t.events = s.events.tail) :
    OnlyEngineFor n ks.tail t := by
  rcases h with he | ⟨he, hl⟩
  · exact .inl (by rw [ht, he, List.tail_nil])
  · exact .inr ⟨by rw [ht, he, List.map_tail], by rw [List.length_tail, hl, Nat.add_sub_cancel]⟩

theorem OnlyEngineFor.events_of_zero (h : OnlyEngineFor 0 ks s) : s.events = [] := by
  rcases h with he | ⟨he, hl⟩
  · exact he
  · rw [he, List.eq_nil_of_length_eq_zero hl, List.map_nil]

/-- A busy engine performs what is pending, group by group, and completes. -/
theorem run_to_completion (hi : MachineInv s) (hstop : modelStop s = none) (hb : s.busy = true)
    (hlen : s.pending.length = n) (hs : OnlyEngineFor (n + 1) ks s) :
    ∃ m draws, core.run (n + 1) s = .next
      { s with events := [], busy := false, done := true, desc := none, pending := [], mem := m, draws := draws } := by
  induction n generalizing s ks with
  | zero =>
    have hp := List.eq_nil_of_length_eq_zero hlen
    have htail : s.events.tail = [] :=
      (hs.tail (t := { s with events := s.events.tail }) rfl).events_of_zero
    refine ⟨s.mem, s.draws, ?_⟩
    rw [core_run_succ (step_completes hi hstop (hs.engineMoves hb) hb hp), htail, ← hp]
    rfl
  | succ n ih =>
    have hp : s.pending ≠ [] := List.ne_nil_of_length_eq_add_one hlen
    obtain ⟨g, hg, m, draws, hstep⟩ := step_performs hi hstop (hs.engineMoves hb) hb hp
    have herase : (s.pending.erase g).length = n := by rw [List.length_erase_of_mem hg, hlen, Nat.add_sub_cancel]
    obtain ⟨m', draws', hrun⟩ := ih (stepKeepsInv _ _ hi hstep) hstop hb herase (hs.tail rfl)
    exact ⟨m', draws', (core_run_succ hstep _).trans hrun⟩

/-- Settles O35, by induction on the number of pending groups. -/
theorem operationCompletes : Obligations.OperationCompletes :=
  fun _ _ hi hstop hb hs => run_to_completion hi hstop hb rfl hs

end Sys2Proof.Machine
end

section
/-! SUPPORT. A host write that is the model fault `HAZARD` (`70_reset_and_hazards.md` R197, `60_exceptions.md` R179). -/

namespace Sys2Proof.Machine

variable {s : State}

/-- A hazardous write within memory is logged, and nothing is stored (log 7). -/
theorem hostMemWrite_hazard {a : Nat} {bs : List Byte} (hb : a + bs.length ≤ addressSpace)
    (hz : isHazard s a bs.length = true) :
    hostMemWrite a bs s = .next (logFault (.hazard a bs.length) s) := by
  simp [hostMemWrite, Nat.not_lt.2 hb, hz]

/-- Settles O39: such a write is a hazard, whose entry stops the machine. -/
theorem hostWriteHazard : Obligations.HostWriteHazard := by
  intro s es a bs d r x hn hb hbusy hd hr hx hlo hhi
  have hz : isHazard { s with events := es } a.toNat bs.length = true :=
    isHazard_iff.2 ⟨hbusy, d, hd, r, hr, x, ⟨hlo, hhi⟩, hx⟩
  have ⟨hstop, _, _⟩ := hn
  exact ⟨(step_memWrite hn).trans (hostMemWrite_hazard hb hz),
    step_of_modelStop (modelStop_append (f := .hazard a.toNat bs.length) hstop)⟩

end Sys2Proof.Machine
end
